-- ==== Sys2Proof/Word.lean ====
section
/-! DEFINITION. The words of the two ports and of the sample store (30_encoding.md R60, R62; 40_numerics.md R90). -/

namespace Sys2Proof

/-- Eight bits: the unit in which a frame is written down outside the core (20_memory.md R43). -/
abbrev Byte := BitVec 8

/-- One 32-bit word of a port or of the store (00_scope.md R9 "word size"). As an operand it is a `U32` (R62). -/
abbrev Word := BitVec 32

/-- An IEEE 754 binary32 datum, identified with its 32-bit pattern (40_numerics.md R90). -/
abbrev F32 := BitVec 32

/-- A command frame: a non-empty finite list of words, the header first (30_encoding.md R60, R61). -/
structure Frame where
  /-- word 0 (R61) -/
  header : Word
  /-- the words after the header, in order -/
  operands : List Word
  deriving DecidableEq, Repr

/-- The frame as the list of its words (R60). -/
def Frame.words (f : Frame) : List Word := f.header :: f.operands

/-- The frame with these words; a frame has at least one word (R60). -/
def Frame.ofWords : List Word → Option Frame
  | [] => none
  | h :: ws => some ⟨h, ws⟩

end Sys2Proof
end

