-- ==== Sys2Proof/Syntax.lean ====
section
/-! DEFINITION. The 27 commands of 30_encoding.md R65 with their operands (R62, R63). -/

namespace Sys2Proof

/-- The oscillator's parameter selectors (30_encoding.md R66). -/
inductive LfoParam where
  | sr | freq | phase
  deriving DecidableEq, Repr

/-- The engine's parameter selectors (30_encoding.md R67). -/
inductive EngParam where
  | sr | mf | depth | base
  deriving DecidableEq, Repr

/-- One constructor per row of the opcode map (30_encoding.md R65). A `Word` operand is a `U32`, an `F32` operand a
binary32 pattern (R62). The sample count `n` of `ENG_PROC` is the length of its list of samples (R73). -/
inductive Instr where
  /-- `SYS_STATUS` (R200) -/
  | sysStatus
  /-- `DL_NEW capacity` (R120) -/
  | dlNew (capacity : Word)
  /-- `DL_RESET` (R121) -/
  | dlReset
  /-- `DL_PUSH value` (R122) -/
  | dlPush (value : F32)
  /-- `DL_POP` (R123) -/
  | dlPop
  /-- `DL_PUT value` (R124) -/
  | dlPut (value : F32)
  /-- `DL_PEEK` (R125) -/
  | dlPeek
  /-- `DL_GET offset` (R126) -/
  | dlGet (offset : Word)
  /-- `DL_GETF offset` (R127) -/
  | dlGetf (offset : F32)
  /-- `DL_GETWI` (R128) -/
  | dlGetwi
  /-- `DL_SETWI i` (R129) -/
  | dlSetwi (index : Word)
  /-- `DL_GETRI` (R130) -/
  | dlGetri
  /-- `DL_SETRI i` (R131) -/
  | dlSetri (index : Word)
  /-- `DL_LEN` (R132) -/
  | dlLen
  /-- `DL_CAP` (R133) -/
  | dlCap
  /-- `LFO_NEW sr, freq, phase` (R150) -/
  | lfoNew (sr freq phase : F32)
  /-- `LFO_RESET` (R151) -/
  | lfoReset
  /-- `LFO_SETP sel, value` (R152) -/
  | lfoSetp (sel : LfoParam) (value : F32)
  /-- `LFO_GETP sel` (R153) -/
  | lfoGetp (sel : LfoParam)
  /-- `LFO_ADV` (R154) -/
  | lfoAdv
  /-- `ENG_NEW sr, mf, depth, base` (R170) -/
  | engNew (sr mf depth base : F32)
  /-- `ENG_RESET` (R173) -/
  | engReset
  /-- `ENG_SETP sel, value` (R174) -/
  | engSetp (sel : EngParam) (value : F32)
  /-- `ENG_GETP sel` (R175) -/
  | engGetp (sel : EngParam)
  /-- `ENG_PROC n, x[0], ..., x[n−1]` (R176) -/
  | engProc (samples : List F32)
  /-- `ENG_FREE` (R185) -/
  | engFree
  /-- `ENG_GETT` (R186) -/
  | engGett
  deriving DecidableEq, Repr

/-- `ENG_STEP x` is `ENG_PROC 1, x`: a second spelling, no opcode of its own (30_encoding.md R75). -/
def Instr.engStep (x : F32) : Instr := .engProc [x]

end Sys2Proof
end

