-- ==== Sys2Proof/WellFormed.lean ====
section
/-! DEFINITION. Which terms of `Instr` are commands. Selectors are enumerations and operand words have their width by type,
so one check is left: the sample count of `ENG_PROC` is a `U32` (30_encoding.md R73). -/

namespace Sys2Proof

/-- R73: "Word 1 is the sample count `n` (`U32`, `0 ≤ n ≤ 2^32 − 1`)". -/
def sampleCountFits (samples : List F32) : Bool := decide (samples.length < 2 ^ 32)

/-- The well-formed commands: those that have a frame (30_encoding.md R63, R73). -/
def Instr.wellFormed : Instr → Bool
  | .engProc samples => sampleCountFits samples
  | .sysStatus | .dlNew _ | .dlReset | .dlPush _ | .dlPop | .dlPut _ | .dlPeek | .dlGet _ | .dlGetf _ | .dlGetwi
  | .dlSetwi _ | .dlGetri | .dlSetri _ | .dlLen | .dlCap | .lfoNew _ _ _ | .lfoReset | .lfoSetp _ _ | .lfoGetp _
  | .lfoAdv | .engNew _ _ _ _ | .engReset | .engSetp _ _ | .engGetp _ | .engFree | .engGett => true

end Sys2Proof
end

