-- ==== Sys2Proof/Decode.lean ====
section
/-! DEFINITION. Command frames to commands and back (30_encoding.md sections 1 and 2): the opcode map, the decoder (total,
rejecting by name), the encoder, and the byte form of a frame (20_memory.md R43). -/

namespace Sys2Proof

/-! ### The opcode map -/

/-- The command formats of R63. -/
inductive Format where
  | n | s | i | f | p | l3 | e4 | b
  deriving DecidableEq, Repr

/-- The assigned opcodes of R65. -/
inductive Opcode where
  | sysStatus
  | dlNew | dlReset | dlPush | dlPop | dlPut | dlPeek | dlGet | dlGetf | dlGetwi | dlSetwi | dlGetri | dlSetri | dlLen | dlCap
  | lfoNew | lfoReset | lfoSetp | lfoGetp | lfoAdv
  | engNew | engReset | engSetp | engGetp | engProc | engFree | engGett
  deriving DecidableEq, Repr

/-- The `op` byte of each opcode (R65). -/
def Opcode.byte : Opcode → BitVec 8
  | .sysStatus => 0x01
  | .dlNew => 0x10 | .dlReset => 0x11 | .dlPush => 0x12 | .dlPop => 0x13 | .dlPut => 0x14 | .dlPeek => 0x15
  | .dlGet => 0x16 | .dlGetf => 0x17 | .dlGetwi => 0x18 | .dlSetwi => 0x19 | .dlGetri => 0x1A | .dlSetri => 0x1B
  | .dlLen => 0x1C | .dlCap => 0x1D
  | .lfoNew => 0x20 | .lfoReset => 0x21 | .lfoSetp => 0x22 | .lfoGetp => 0x23 | .lfoAdv => 0x24
  | .engNew => 0x30 | .engReset => 0x31 | .engSetp => 0x32 | .engGetp => 0x33 | .engProc => 0x34 | .engFree => 0x35
  | .engGett => 0x36

/-- The format of each opcode (R65). -/
def Opcode.format : Opcode → Format
  | .sysStatus => .n
  | .dlNew => .i | .dlReset => .n | .dlPush => .f | .dlPop => .n | .dlPut => .f | .dlPeek => .n | .dlGet => .i
  | .dlGetf => .f | .dlGetwi => .n | .dlSetwi => .i | .dlGetri => .n | .dlSetri => .i | .dlLen => .n | .dlCap => .n
  | .lfoNew => .l3 | .lfoReset => .n | .lfoSetp => .p | .lfoGetp => .s | .lfoAdv => .n
  | .engNew => .e4 | .engReset => .n | .engSetp => .p | .engGetp => .s | .engProc => .b | .engFree => .n | .engGett => .n

/-- All assigned opcodes (R69: "There are 27 assigned opcodes"). -/
def Opcode.all : List Opcode :=
  [.sysStatus, .dlNew, .dlReset, .dlPush, .dlPop, .dlPut, .dlPeek, .dlGet, .dlGetf, .dlGetwi, .dlSetwi, .dlGetri, .dlSetri,
   .dlLen, .dlCap, .lfoNew, .lfoReset, .lfoSetp, .lfoGetp, .lfoAdv, .engNew, .engReset, .engSetp, .engGetp, .engProc,
   .engFree, .engGett]

/-- The opcode of an `op` byte, none if it is unassigned (R65, R69). -/
def Opcode.ofByte (b : BitVec 8) : Option Opcode := Opcode.all.find? (fun o => o.byte == b)

/-- The fixed frame lengths of R63; format B has none (R73). -/
def Format.length : Format → Option Nat
  | .n => some 1 | .s => some 1 | .i => some 2 | .f => some 2 | .p => some 2 | .l3 => some 4 | .e4 => some 5 | .b => none

/-- R61, R68: only formats S and P carry a selector. -/
def Format.hasSelector : Format → Bool
  | .s | .p => true
  | .n | .i | .f | .l3 | .e4 | .b => false

/-! ### Header fields (R61) -/

/-- Header bits 31:24. -/
def headerOp (h : Word) : BitVec 8 := h.extractLsb' 24 8

/-- Header bits 23:16. -/
def headerSel (h : Word) : BitVec 8 := h.extractLsb' 16 8

/-- Header bits 15:0. -/
def headerRsvd (h : Word) : BitVec 16 := h.extractLsb' 0 16

/-- The header of R61 with its reserved field 0. -/
def headerOf (op : Opcode) (sel : BitVec 8) : Word := op.byte ++ sel ++ 0#16

/-! ### Selectors -/

/-- The selector numbers of R66. -/
def LfoParam.sel : LfoParam → BitVec 8
  | .sr => 0#8 | .freq => 1#8 | .phase => 2#8

/-- The selector numbers of R67. -/
def EngParam.sel : EngParam → BitVec 8
  | .sr => 0#8 | .mf => 1#8 | .depth => 2#8 | .base => 3#8

/-- R66: 0 to 2; 3 to 255 are illegal. -/
def LfoParam.ofSel (b : BitVec 8) : Option LfoParam := [LfoParam.sr, .freq, .phase].find? (fun p => p.sel == b)

/-- R67: 0 to 3; 4 to 255 are illegal. -/
def EngParam.ofSel (b : BitVec 8) : Option EngParam := [EngParam.sr, .mf, .depth, .base].find? (fun p => p.sel == b)

/-- R64 step 4: the selector names a parameter of the opcode's component. -/
def selectorLegal : Opcode → BitVec 8 → Bool
  | .lfoSetp, b | .lfoGetp, b => (LfoParam.ofSel b).isSome
  | .engSetp, b | .engGetp, b => (EngParam.ofSel b).isSome
  | _, _ => true

/-! ### Decoding (R64) -/

/-- Why a frame is not a command (R64, R69). Every one of them is answered by `ILLEGAL_CMD` (R213). -/
inductive DecodeError where
  /-- R64 step 1 -/
  | unassignedOpcode
  /-- R64 step 2 -/
  | reservedBits
  /-- R64 step 3 -/
  | selectorNotZero
  /-- R64 step 4 -/
  | selectorOutOfRange
  /-- R64 step 5 -/
  | wrongLength
  /-- bytes that are no whole number of words, or no word at all (R44, R60): cannot arrive on the port -/
  | notWords
  deriving DecidableEq, Repr

/-- R64 step 5: the frame length the format asks for, `operands` being the words after the header. -/
def lengthLegal (fmt : Format) (operands : List Word) : Bool :=
  match fmt.length with
  | some len => operands.length + 1 == len
  | none =>
    match operands with
    | [] => false
    | count :: samples => samples.length == count.toNat

/-- R64 step 6: the command of an opcode with its selector and operand words in order. -/
def commandOf : Opcode → BitVec 8 → List Word → Option Instr
  | .sysStatus, _, [] => some .sysStatus
  | .dlNew, _, [a] => some (.dlNew a)
  | .dlReset, _, [] => some .dlReset
  | .dlPush, _, [v] => some (.dlPush v)
  | .dlPop, _, [] => some .dlPop
  | .dlPut, _, [v] => some (.dlPut v)
  | .dlPeek, _, [] => some .dlPeek
  | .dlGet, _, [a] => some (.dlGet a)
  | .dlGetf, _, [v] => some (.dlGetf v)
  | .dlGetwi, _, [] => some .dlGetwi
  | .dlSetwi, _, [a] => some (.dlSetwi a)
  | .dlGetri, _, [] => some .dlGetri
  | .dlSetri, _, [a] => some (.dlSetri a)
  | .dlLen, _, [] => some .dlLen
  | .dlCap, _, [] => some .dlCap
  | .lfoNew, _, [sr, freq, phase] => some (.lfoNew sr freq phase)
  | .lfoReset, _, [] => some .lfoReset
  | .lfoSetp, b, [v] => (LfoParam.ofSel b).map (fun p => .lfoSetp p v)
  | .lfoGetp, b, [] => (LfoParam.ofSel b).map .lfoGetp
  | .lfoAdv, _, [] => some .lfoAdv
  | .engNew, _, [sr, mf, depth, base] => some (.engNew sr mf depth base)
  | .engReset, _, [] => some .engReset
  | .engSetp, b, [v] => (EngParam.ofSel b).map (fun p => .engSetp p v)
  | .engGetp, b, [] => (EngParam.ofSel b).map .engGetp
  | .engProc, _, _ :: samples => some (.engProc samples)
  | .engFree, _, [] => some .engFree
  | .engGett, _, [] => some .engGett
  | _, _, _ => none

/-- Decoding of a frame: the six steps of R64, in their order. -/
def decode (f : Frame) : Except DecodeError Instr :=
  match Opcode.ofByte (headerOp f.header) with
  | none => .error .unassignedOpcode
  | some op =>
    if headerRsvd f.header ≠ 0#16 then .error .reservedBits
    else if op.format.hasSelector = false ∧ headerSel f.header ≠ 0#8 then .error .selectorNotZero
    else if selectorLegal op (headerSel f.header) = false then .error .selectorOutOfRange
    else if lengthLegal op.format f.operands = false then .error .wrongLength
    else
      match commandOf op (headerSel f.header) f.operands with
      | some i => .ok i
      | none => .error .wrongLength

/-! ### Encoding (R61, R63) -/

/-- The opcode of a command (R65). -/
def Instr.opcode : Instr → Opcode
  | .sysStatus => .sysStatus
  | .dlNew _ => .dlNew | .dlReset => .dlReset | .dlPush _ => .dlPush | .dlPop => .dlPop | .dlPut _ => .dlPut
  | .dlPeek => .dlPeek | .dlGet _ => .dlGet | .dlGetf _ => .dlGetf | .dlGetwi => .dlGetwi | .dlSetwi _ => .dlSetwi
  | .dlGetri => .dlGetri | .dlSetri _ => .dlSetri | .dlLen => .dlLen | .dlCap => .dlCap
  | .lfoNew _ _ _ => .lfoNew | .lfoReset => .lfoReset | .lfoSetp _ _ => .lfoSetp | .lfoGetp _ => .lfoGetp
  | .lfoAdv => .lfoAdv
  | .engNew _ _ _ _ => .engNew | .engReset => .engReset | .engSetp _ _ => .engSetp | .engGetp _ => .engGetp
  | .engProc _ => .engProc | .engFree => .engFree | .engGett => .engGett

/-- The selector field of a command's header: 0 outside formats S and P (R61). -/
def Instr.selector : Instr → BitVec 8
  | .lfoSetp p _ => p.sel
  | .lfoGetp p => p.sel
  | .engSetp p _ => p.sel
  | .engGetp p => p.sel
  | .sysStatus | .dlNew _ | .dlReset | .dlPush _ | .dlPop | .dlPut _ | .dlPeek | .dlGet _ | .dlGetf _ | .dlGetwi
  | .dlSetwi _ | .dlGetri | .dlSetri _ | .dlLen | .dlCap | .lfoNew _ _ _ | .lfoReset | .lfoAdv | .engNew _ _ _ _
  | .engReset | .engProc _ | .engFree | .engGett => 0#8

/-- The words after the header, in the order the format gives (R63). -/
def Instr.operandWords : Instr → List Word
  | .dlNew a => [a]
  | .dlPush v => [v]
  | .dlPut v => [v]
  | .dlGet a => [a]
  | .dlGetf v => [v]
  | .dlSetwi a => [a]
  | .dlSetri a => [a]
  | .lfoNew sr freq phase => [sr, freq, phase]
  | .lfoSetp _ v => [v]
  | .engNew sr mf depth base => [sr, mf, depth, base]
  | .engSetp _ v => [v]
  | .engProc samples => BitVec.ofNat 32 samples.length :: samples
  | .sysStatus | .dlReset | .dlPop | .dlPeek | .dlGetwi | .dlGetri | .dlLen | .dlCap | .lfoReset | .lfoGetp _ | .lfoAdv
  | .engReset | .engGetp _ | .engFree | .engGett => []

/-- The frame of a command (R61, R63). -/
def encode (i : Instr) : Frame := ⟨headerOf i.opcode i.selector, i.operandWords⟩

/-! ### Frames as bytes (20_memory.md R43) -/

/-- A word, least significant byte first (R43). -/
def wordBytes (w : Word) : List Byte :=
  [w.extractLsb' 0 8, w.extractLsb' 8 8, w.extractLsb' 16 8, w.extractLsb' 24 8]

/-- The bytes of words in order. -/
def bytesOfWords : List Word → List Byte
  | [] => []
  | w :: ws => wordBytes w ++ bytesOfWords ws

/-- The words that bytes spell, none unless they are a whole number of words (R43, R44). -/
def wordsOfBytes : List Byte → Option (List Word)
  | [] => some []
  | b0 :: b1 :: b2 :: b3 :: rest => (wordsOfBytes rest).map (fun ws => (b3 ++ b2 ++ b1 ++ b0) :: ws)
  | _ => none

/-- Decoding of a frame written down as bytes, total on any bytes. -/
def decodeBytes (bs : List Byte) : Except DecodeError Instr :=
  match (wordsOfBytes bs).bind Frame.ofWords with
  | none => .error .notWords
  | some f => decode f

/-- The frame of a command as bytes (R43). -/
def encodeBytes (i : Instr) : List Byte := bytesOfWords (encode i).words

/-! ### The words of the opcode table -/

/-- `count` words from the bits of `w`, the first word in the least significant bits. -/
def wordsOfNat : Nat → Nat → List Word
  | 0, _ => []
  | count + 1, w => BitVec.ofNat 32 w :: wordsOfNat count (w / 2 ^ 32)

/-- The number of words of the frame that these first words begin (R63, R73): the format's length, `2 + n` for format B with
`n` the second word (0 where none is given); as many as there are where the opcode is unassigned. -/
def frameWordCount (ws : List Word) : Nat :=
  match ws with
  | [] => 1
  | h :: rest =>
    match Opcode.ofByte (headerOp h) with
    | none => ws.length
    | some op => op.format.length.getD (2 + ((rest.head?.map BitVec.toNat).getD 0))

/-- The frame whose first `nbits` bits are `w`, every operand bit above them 0. -/
def tableFrame (nbits w : Nat) : Frame :=
  let given := wordsOfNat ((nbits + 31) / 32) (w % 2 ^ nbits)
  let words := given ++ List.replicate (frameWordCount given - given.length) 0#32
  match words with
  | [] => ⟨0, []⟩
  | h :: rest => ⟨h, rest⟩

/-- The command the decoder reads from the bits of a row of spec/opcode_table.json, laid out as bytes first (R43). -/
def decodeTableWord (nbits w : Nat) : Option Instr :=
  match decodeBytes (bytesOfWords (tableFrame nbits w).words) with
  | .ok i => some i
  | .error _ => none

end Sys2Proof
end

