-- ==== Sys2Proof/Config.lean ====
section
/-! DEFINITION. The parameter record of 00_scope.md R9: fixed values, open parameters and the values the spec leaves
unspecified. `CAP_MAX` is open too, and is a field of State (log 6). An `opaque` constant has no body: nothing can be proved of its value beyond its type. -/

namespace Sys2Proof

/-! ### Fixed parameters (R9) -/

/-- `MARGIN` (00_scope.md R9, 92 D8): the interpolation margin of the engine's sizing. -/
def Config.margin : Nat := 2

/-- `TWO_PI` (40_numerics.md R103): the binary32 nearest to 2π. -/
def Config.twoPi : F32 := 0x40C90FDB#32

/-- `PHASE0` (00_scope.md R9, 92 D17): the phase the engine gives its oscillator. -/
def Config.phase0 : F32 := 0x00000000#32

/-! ### Open parameters (R9) -/

/-- The largest value the open parameter `CAP_MAX` may have (R9, 92 D7); its least is 1. `State.capMax` carries it. -/
def Config.capMaxLimit : Nat := 2 ^ 24

/-- The value R9 suggests for `CAP_MAX`. -/
def Config.capMaxSuggested : Nat := 65536

/-- What the implementation fixes for the sign of `CANON_NAN`. -/
opaque Config.canonNanSign : BitVec 1

/-- What the implementation fixes for the payload of `CANON_NAN` below the quiet bit. -/
opaque Config.canonNanPayload : BitVec 22

/-- `CANON_NAN` (40_numerics.md R94, 92 D11): open, any quiet NaN (exponent all ones, bit 22 set). -/
def Config.canonNan : F32 := Config.canonNanSign ++ 0x1FF#9 ++ Config.canonNanPayload

/-- What the implementation's `SIN` gives outside the finite data, before S4 of 40_numerics.md R106 is applied. Its values at
the finite data are `Config.sinTable` of `Machine/Sine.lean`, whose type states S2 and S5 and needs the numbers. -/
opaque Config.sinNan : F32 → F32

/-! ### Unspecified values

60_exceptions.md R217: after a fault every register and store word but the flags is unspecified. The first argument is
`State.freeIdx`, so that no two faults share their values. -/

/-- The unspecified capacity after a fault, before its type's range is applied. -/
opaque Config.faultCapacity : Nat → Nat

/-- The unspecified write cursor after a fault, before its type's range is applied. -/
opaque Config.faultWriteCursor : Nat → Nat

/-- The unspecified read cursor after a fault, before its type's range is applied. -/
opaque Config.faultReadCursor : Nat → Nat

/-- The unspecified store words after a fault, by index. -/
opaque Config.faultSample : Nat → Nat → F32

/-- The unspecified `F32` registers after a fault, by a number for each register. -/
opaque Config.faultRegister : Nat → Nat → F32

/-- The words of a response the hardware reset cut short (70_reset_and_hazards.md R242, 93 U14: any value). -/
opaque Config.partialResponse : Nat → List Word

end Sys2Proof
end

