-- ==== Sys2Proof/Machine/State.lean ====
section
/-! DEFINITION. The state of one VIBCORE (10_state.md R10) with its two ports (30_encoding.md R60), as plain data, and the
state after hardware reset (70_reset_and_hazards.md R241). -/

namespace Sys2Proof.Machine

/-- The sample store (20_memory.md R40): pairs of a word index and the word there, indices strictly rising, no word `+0.0`.
The unit of addressing is the word (R44). An index not listed holds `+0.0`, which construction wrote to every word (R53). -/
structure Memory where
  cells : List (Nat × F32)
  deriving DecidableEq, Repr

/-- The Delay Line's registers and store (10_state.md R13 to R15). -/
structure DelayLine where
  /-- `DL.N`, the capacity -/
  n : Nat
  /-- `DL.w`, the write cursor -/
  w : Nat
  /-- `DL.r`, the read cursor -/
  r : Nat
  /-- `DL.buf` -/
  buf : Memory
  deriving DecidableEq, Repr

/-- The Oscillator's registers (10_state.md R18 to R20). -/
structure Oscillator where
  sr : F32
  freq : F32
  phase : F32
  sr0 : F32
  freq0 : F32
  phase0 : F32
  deriving DecidableEq, Repr

/-- The Modulation Engine's own registers (10_state.md R21, R22). -/
structure Engine where
  sr : F32
  mf : F32
  depth : F32
  base : F32
  time : F32
  sr0 : F32
  mf0 : F32
  depth0 : F32
  base0 : F32
  deriving DecidableEq, Repr

/-- "exactly the registers and the one store" of 10_state.md R10. A component is present while its VALID flag is 1
(`DL_VALID` is `dl.isSome`, and so on); an absent component's registers hold no value (R25, 93 U4). -/
structure Regs where
  /-- `FAULT` (R11), sticky -/
  fault : Bool
  dl : Option DelayLine
  lfo : Option Oscillator
  eng : Option Engine
  deriving DecidableEq, Repr

/-- What the host does next (70_reset_and_hazards.md R254). -/
inductive HostEvent where
  /-- a whole command frame, answered by its response -/
  | command (frame : Frame)
  /-- `rst` while no command is in flight (R240) -/
  | reset
  /-- `rst` while this frame is being sent, executed or answered (R242) -/
  | resetDuring (frame : Frame)
  deriving DecidableEq, Repr

/-- The machine. `regs` is the state the spec gives the core; `rsp` is the response port; the others are the model's own:
`capMax` carries a parameter that the implementation leaves open, `inbox` the host's events still to come, and `freeIdx` the
number of the next unspecified values. -/
structure State where
  regs : Regs
  /-- the words of the last response frame, in order (30_encoding.md R70); empty while the port is idle after reset (R241) -/
  rsp : List Word
  /-- the parameter `CAP_MAX` (00_scope.md R9), which nothing writes; so a statement about every state is one about every
  `CAP_MAX` -/
  capMax : Nat
  inbox : List HostEvent
  freeIdx : Nat
  deriving DecidableEq, Repr

/-- The model's own stops. Each is SAFE (the model says nothing of what would follow) and stands for a state that the spec's
invariants rule out (10_state.md R12, R16, R23): no run from reset meets one. -/
inductive Fault where
  /-- a store access at an index not below `DL.N` (20_memory.md R41: "cannot be expressed"); raised by the commands that read
  or write the store. Safe. -/
  | storeBounds
  /-- an engine without its Delay Line or its Oscillator (against 10_state.md R12); raised by the engine commands that use
  them. Safe. -/
  | leafMissing
  /-- an engine whose originals cannot be sized (43_engine.md R173: "cannot raise"); raised by `ENG_RESET`. Safe. -/
  | sizeLost
  deriving DecidableEq, Repr

/-- Why an instruction has no meaning. No arm of `exec` answers it: every command of 30_encoding.md R65 has its meaning. -/
inductive Refusal where
  /-- an instruction whose meaning is not written; raised by no arm. Safe. -/
  | notModelled (mnemonic : String)
  deriving DecidableEq, Repr

/-- The registers after hardware reset (70_reset_and_hazards.md R241): the four flags are 0, nothing else holds a value. -/
def Regs.reset : Regs := ⟨false, none, none, none⟩

/-- The machine right after hardware reset (R241), the host having done nothing yet, with the `CAP_MAX` that R9 suggests. -/
def State.reset : State := ⟨Regs.reset, [], Config.capMaxSuggested, [], 0⟩

end Sys2Proof.Machine
end

