-- ==== Sys2Proof/Machine/Flags.lean ====
section
/-! DEFINITION. The four status flags (10_state.md R11), the flags word (44_system.md R200), the status codes and the status
word (30_encoding.md R70, R71). No arithmetic writes a flag (R11). -/

namespace Sys2Proof.Machine

/-- `DL_VALID` (10_state.md R11). -/
def Regs.dlValid (g : Regs) : Bool := g.dl.isSome

/-- `LFO_VALID` (10_state.md R11). -/
def Regs.lfoValid (g : Regs) : Bool := g.lfo.isSome

/-- `ENG_VALID` (10_state.md R11). -/
def Regs.engValid (g : Regs) : Bool := g.eng.isSome

/-- The flags word of `SYS_STATUS` (44_system.md R200): `FAULT ‖ ENG_VALID ‖ LFO_VALID ‖ DL_VALID`, zero-extended. -/
def Regs.flagsWord (g : Regs) : Word :=
  (BitVec.ofBool g.fault ++ BitVec.ofBool g.engValid ++ BitVec.ofBool g.lfoValid ++ BitVec.ofBool g.dlValid).setWidth 32

/-- The eight ways a command ends (60_exceptions.md R210). -/
inductive Status where
  | ok | invalidValue | illegalCmd | notConstructed | owned | badSize | fault | faulted
  deriving DecidableEq, Repr

/-- The status codes (30_encoding.md R71). -/
def Status.code : Status → BitVec 8
  | .ok => 0x00 | .invalidValue => 0x01 | .illegalCmd => 0x02 | .notConstructed => 0x03
  | .owned => 0x04 | .badSize => 0x05 | .fault => 0x06 | .faulted => 0x07

/-- The status word (30_encoding.md R70): `esel` in bits 15:8, `code` in bits 7:0, bits 31:16 zero. -/
def statusWord (st : Status) (esel : BitVec 8) : Word := 0#16 ++ esel ++ st.code

/-- The response frame (30_encoding.md R70): the result words, then the status word, always last. -/
def responseFrame (results : List Word) (st : Status) (esel : BitVec 8) : List Word := results ++ [statusWord st esel]

end Sys2Proof.Machine
end

