-- ==== Sys2Proof/Machine/Numerics.lean ====
section
/-! DEFINITION. The numeric primitives of 40_numerics.md: binary32 arithmetic, conversions, rounding, the periodic wrap,
linear interpolation and index arithmetic. A finite datum is an integer number of units of 2^-149; every operation is
computed exactly on integers and rounded once, by `roundUnits`. -/

namespace Sys2Proof.Machine

/-! ### The binary32 datum (R90) -/

/-- Bit 31. -/
def signBit (a : F32) : Bool := a.getLsbD 31

/-- Bits 30:23, the biased exponent. -/
def expField (a : F32) : Nat := (a.extractLsb' 23 8).toNat

/-- Bits 22:0, the fraction. -/
def fracField (a : F32) : Nat := (a.extractLsb' 0 23).toNat

/-- Bits 30:0: the magnitude's pattern. -/
def magBits (a : F32) : Nat := (a.extractLsb' 0 31).toNat

/-- R90: `e = 255, f ≠ 0`. -/
def isNaN (a : F32) : Bool := expField a == 255 && fracField a != 0

/-- R90: `e = 255, f = 0`. -/
def isInf (a : F32) : Bool := expField a == 255 && fracField a == 0

/-- R96: neither NaN nor infinite. -/
def isFinite (a : F32) : Bool := expField a != 255

/-- A zero of either sign. -/
def isZero (a : F32) : Bool := magBits a == 0

/-- The datum with this sign and magnitude pattern. -/
def ofSignMag (s : Bool) (bits : Nat) : F32 := BitVec.ofBool s ++ BitVec.ofNat 31 bits

/-- `+Inf`'s magnitude pattern (R90). -/
def infBits : Nat := 0x7F800000

/-- `+0.0` (R90). -/
def fzero : F32 := 0x00000000#32

/-- `1.0` (R90). -/
def fone : F32 := 0x3F800000#32

/-- R91: `−b` flips the sign bit. -/
def fneg (a : F32) : F32 := a ^^^ 0x80000000#32

/-- How many units of 2^-149 make 1. -/
def unitsPerOne : Nat := 2 ^ 149

/-- R90: the magnitude of a finite datum in units of 2^-149 (a subnormal is `f` units, a normal `(2^23 + f) · 2^(e−1)`). -/
def units (a : F32) : Nat :=
  if expField a = 0 then fracField a else (2 ^ 23 + fracField a) * 2 ^ (expField a - 1)

/-- R97: `real(a)` of a finite datum, in units of 2^-149. -/
def signedUnits (a : F32) : Int := if signBit a then -(units a : Int) else (units a : Int)

/-! ### Rounding (R91: roundTiesToEven, once) -/

/-- `num / den` to the nearest integer, ties to even. -/
def roundHalfEven (num den : Nat) : Nat :=
  let q := num / den
  let r := num % den
  if 2 * r < den then q else if den < 2 * r then q + 1 else q + q % 2

/-- The magnitude pattern of the binary32 nearest to `num / den` units of 2^-149, ties to even, infinity on overflow. The
quantum is `2^k` units, `k` being the least that leaves 24 significant bits (R92: no less than one unit); the pattern of
`q · 2^k` units with `q ≤ 2^24` is `k · 2^23 + q`. -/
def roundUnits (num den : Nat) : Nat :=
  let k := (num / den).log2 - 23
  min (k * 2 ^ 23 + roundHalfEven num (den * 2 ^ k)) infBits

/-! ### Arithmetic (R91 to R95) -/

/-- R91, R93, R94, R95: addition. -/
def fadd (a b : F32) : F32 :=
  if isNaN a || isNaN b then Config.canonNan
  else if isInf a then (if isInf b && signBit a != signBit b then Config.canonNan else a)
  else if isInf b then b
  else
    let sum := signedUnits a + signedUnits b
    if sum = 0 then ofSignMag (signBit a && signBit b) 0
    else ofSignMag (decide (sum < 0)) (roundUnits sum.natAbs 1)

/-- R91: `fsub(a, b)` is `fadd(a, −b)`. -/
def fsub (a b : F32) : F32 := fadd a (fneg b)

/-- R91, R93, R94, R95: multiplication. -/
def fmul (a b : F32) : F32 :=
  let s := signBit a != signBit b
  if isNaN a || isNaN b then Config.canonNan
  else if isInf a || isInf b then (if isZero a || isZero b then Config.canonNan else ofSignMag s infBits)
  else ofSignMag s (roundUnits (units a * units b) unitsPerOne)

/-- R91, R93, R94, R95: division. -/
def fdiv (a b : F32) : F32 :=
  let s := signBit a != signBit b
  if isNaN a || isNaN b then Config.canonNan
  else if isInf a then (if isInf b then Config.canonNan else ofSignMag s infBits)
  else if isInf b then ofSignMag s 0
  else if isZero b then (if isZero a then Config.canonNan else ofSignMag s infBits)
  else ofSignMag s (roundUnits (units a * unitsPerOne) (units b))

/-! ### Comparisons (R96) -/

/-- A number that orders the non-NaN data as their values; both zeros give 0. -/
def orderKey (a : F32) : Int := if signBit a then -(magBits a : Int) else (magBits a : Int)

/-- R96: `a < b`, false if either is NaN. -/
def flt (a b : F32) : Bool := !isNaN a && !isNaN b && decide (orderKey a < orderKey b)

/-- R96: `a ≥ b`, false if either is NaN. -/
def fge (a b : F32) : Bool := !isNaN a && !isNaN b && decide (orderKey b ≤ orderKey a)

/-- R96: `a = b` as numbers, false if either is NaN. -/
def feq (a b : F32) : Bool := !isNaN a && !isNaN b && decide (orderKey a = orderKey b)

/-- R96: `v > 0`, the parameter check of the source. -/
def positive (v : F32) : Bool := flt fzero v

/-- R96: `v ≥ 0`, the check of `ENG_NEW`'s depth (43_engine.md R170). -/
def nonNegative (v : F32) : Bool := fge v fzero

/-! ### Conversions (R97 to R100) -/

/-- R97: `⌊real(a)⌋` of a finite datum. -/
def floorInt (a : F32) : Int := signedUnits a / (unitsPerOne : Int)

/-- R97: `⌈real(a)⌉` of a finite datum. -/
def ceilInt (a : F32) : Int := -((-signedUnits a) / (unitsPerOne : Int))

/-- R98: the binary32 nearest to a natural number. -/
def u2f (k : Nat) : F32 := ofSignMag false (roundUnits (k * unitsPerOne) 1)

/-- R98: the binary32 nearest to an integer. -/
def i2f (k : Int) : F32 := ofSignMag (decide (k < 0)) (roundUnits (k.natAbs * unitsPerOne) 1)

/-- R99: `fsub(a, i2f(floor(a)))`. -/
def frac (a : F32) : F32 := fsub a (i2f (floorInt a))

/-- R100: to the nearest integer, halves away from zero, the sign kept, on a zero result too (95_test_vectors.md V50; DEDUCED,
log 15); a NaN gives a NaN (R94). -/
def fround (a : F32) : F32 :=
  if isNaN a then Config.canonNan
  else if isInf a then a
  else ofSignMag (signBit a) (roundUnits ((2 * units a + unitsPerOne) / (2 * unitsPerOne) * unitsPerOne) 1)

/-- R100: `f2n(a)`, the natural number that a finite, integral, non-negative `a` is. -/
def f2n (a : F32) : Nat := (floorInt a).toNat

/-! ### The periodic wrap (R105) -/

/-- R105: the exact remainder with the sign of the dividend, for finite `m > 0`; NaN if `a` is NaN or infinite. -/
def fmodx (a m : F32) : F32 :=
  if isFinite a then ofSignMag (signBit a) (roundUnits (units a % units m) 1) else Config.canonNan

/-! ### Linear interpolation (R108) -/

/-- R108: the bypass at `fr = 0`, else four rounded operations in this nesting. -/
def interp (l r fr : F32) : F32 :=
  if feq fr fzero then l else fadd (fmul l (fsub fone fr)) (fmul r fr)

/-! ### Index arithmetic (R109, R110) -/

/-- R109: `(c + k) mod N` for an integer `k`, exact. -/
def wrapIndex (c : Nat) (k : Int) (n : Nat) : Nat := (((c : Int) + k) % (n : Int)).toNat

/-- R110: `(w − r) mod N` without a negative intermediate. -/
def wrapSub (w r n : Nat) : Nat := if r ≤ w then w - r else w + n - r

end Sys2Proof.Machine
end

