-- ==== Sys2Proof/Machine/Ops.lean ====
section
/-! DEFINITION. The named operations over the store, the registers and the ports: the store primitives (20_memory.md R41),
how a command ends (60_exceptions.md R210, R221: "trap entry" is the emission of the response frame; there is no return,
R222), the fault (R217), the common checks (R219), hardware reset (70_reset_and_hazards.md R240 to R242) and taking the next
event from the host. -/

namespace Sys2Proof.Machine

/-- What a step answers. -/
abbrev Result := Host.Outcome State Fault Refusal

/-! ### The store (20_memory.md R40, R41, R53) -/

/-- The word at an index of the canonical list, `+0.0` where none is listed. -/
def cellRead : List (Nat × F32) → Nat → F32
  | [], _ => 0#32
  | (a, v) :: rest, i => if a = i then v else cellRead rest i

/-- The canonical list with the word at an index replaced; a `+0.0` is not listed. -/
def cellWrite : List (Nat × F32) → Nat → F32 → List (Nat × F32)
  | [], i, v => if v = 0#32 then [] else [(i, v)]
  | (a, u) :: rest, i, v =>
    if i < a then (if v = 0#32 then (a, u) :: rest else (i, v) :: (a, u) :: rest)
    else if a = i then (if v = 0#32 then rest else (i, v) :: rest)
    else (a, u) :: cellWrite rest i v

/-- The word at index `i` of the store. -/
def Memory.read (m : Memory) (i : Nat) : F32 := cellRead m.cells i

/-- The store with the word at index `i` replaced. -/
def Memory.write (m : Memory) (i : Nat) (v : F32) : Memory := ⟨cellWrite m.cells i v⟩

/-- The store after `+0.0` is written to every word (20_memory.md R53). -/
def Memory.zeroed : Memory := ⟨[]⟩

/-- The canonical form: indices strictly rising, no word `+0.0`. -/
abbrev Memory.wf (m : Memory) : Prop := m.cells.Pairwise (fun a b => a.1 < b.1) ∧ ∀ c ∈ m.cells, c.2 ≠ 0#32

/-- Every listed index is below `n`. -/
abbrev Memory.within (m : Memory) (n : Nat) : Prop := ∀ c ∈ m.cells, c.1 < n

/-- The store whose words at the indices below `n` are given. -/
def Memory.fill (word : Nat → F32) : Nat → Memory
  | 0 => Memory.zeroed
  | n + 1 => (Memory.fill word n).write n (word n)

/-- The store's listed words as bytes, least significant first, as it is written down outside the core (20_memory.md R43). -/
def Memory.bytes (m : Memory) : List Host.Cell :=
  m.cells.flatMap (fun c => (wordBytes c.2).zipIdx.map (fun b => (4 * c.1 + b.2, b.1)))

/-- `MemRead(i, 1)` (R41): requires `i` below `DL.N`. -/
def DelayLine.memRead (d : DelayLine) (i : Nat) : Option F32 := if i < d.n then some (d.buf.read i) else none

/-- `MemWrite(i, 1, v)` (R41): requires `i` below `DL.N`. -/
def DelayLine.memWrite (d : DelayLine) (i : Nat) (v : F32) : Option DelayLine :=
  if i < d.n then some { d with buf := d.buf.write i v } else none

/-- The slot at offset `k` from the read cursor (40_numerics.md R109). -/
def DelayLine.slot (d : DelayLine) (k : Int) : Nat := wrapIndex d.r k d.n

/-- The number of queued samples (10_state.md R17, 40_numerics.md R110). -/
def DelayLine.len (d : DelayLine) : Nat := wrapSub d.w d.r d.n

/-- `DL.w <- (DL.w + 1) mod DL.N`. -/
def DelayLine.advanceWrite (d : DelayLine) : DelayLine := { d with w := (d.w + 1) % d.n }

/-- `DL.r <- (DL.r + 1) mod DL.N`. -/
def DelayLine.advanceRead (d : DelayLine) : DelayLine := { d with r := (d.r + 1) % d.n }

/-- `+0.0` to all words, the cursors placed (41_delay_line.md R121, 43_engine.md R172). -/
def DelayLine.cleared (d : DelayLine) (w r : Nat) : DelayLine := { d with buf := Memory.zeroed, w := w, r := r }

/-- The offsets of `DL_GETF` that fault (41_delay_line.md R127): NaN, infinite or negative. -/
def badOffset (o : F32) : Bool := isNaN o || isInf o || flt o fzero

/-- `getf(o)` (41_delay_line.md R127), shared by `DL_GETF` and the engine: the taps at `floor` and `ceil`, interpolated. -/
def DelayLine.getf (d : DelayLine) (o : F32) : Option F32 :=
  match d.memRead (d.slot (floorInt o)), d.memRead (d.slot (ceilInt o)) with
  | some l, some r => some (interp l r (frac o))
  | _, _ => none

/-! ### Register writes -/

/-- The state with the core's registers replaced. -/
def State.setRegs (s : State) (g : Regs) : State := { s with regs := g }

/-- The state with the Delay Line replaced, `DL_VALID` being 1 then. -/
def State.setDl (s : State) (d : DelayLine) : State := { s with regs := { s.regs with dl := some d } }

/-- The state with the Oscillator replaced, `LFO_VALID` being 1 then. -/
def State.setLfo (s : State) (o : Oscillator) : State := { s with regs := { s.regs with lfo := some o } }

/-- The state with the Engine's own registers replaced, `ENG_VALID` being 1 then. -/
def State.setEng (s : State) (e : Engine) : State := { s with regs := { s.regs with eng := some e } }

/-- The state with an engine and the leaves it owns replaced. -/
def State.setAll (s : State) (d : DelayLine) (o : Oscillator) (e : Engine) : State :=
  { s with regs := { s.regs with dl := some d, lfo := some o, eng := some e } }

/-! ### How a command ends (60_exceptions.md R210, R221) -/

/-- The response frame is put on the port and the command ends; nothing else changes (R221). -/
def answer (results : List Word) (st : Status) (esel : BitVec 8) (s : State) : Result :=
  .next { s with rsp := responseFrame results st esel }

/-- `respond(v...)` (00_scope.md section 5): the results, then `OK`. -/
def respond (results : List Word) (s : State) : Result := answer results .ok 0#8 s

/-- `raise` of a status that carries nothing (R221); no effect was made yet. -/
def refuse (st : Status) (s : State) : Result := answer [] st 0#8 s

/-- `raise INVALID_VALUE(esel, value)` (R211): the rejected value is the one result word. -/
def rejectValue (esel : BitVec 8) (value : F32) (s : State) : Result := answer [value] .invalidValue esel s

/-- The Delay Line after a fault (R217): every register and word unspecified, each within its type of 10_state.md R10
(`1 ≤ N ≤ CAP_MAX`, cursors below `N`). -/
def faultedDelayLine (capMax k : Nat) : DelayLine :=
  let n := Config.faultCapacity k % capMax + 1
  { n := n, w := Config.faultWriteCursor k % n, r := Config.faultReadCursor k % n,
    buf := Memory.fill (Config.faultSample k) n }

/-- The Oscillator after a fault (R217): every register unspecified. -/
def faultedOscillator (k : Nat) : Oscillator :=
  { sr := Config.faultRegister k 0, freq := Config.faultRegister k 1, phase := Config.faultRegister k 2,
    sr0 := Config.faultRegister k 3, freq0 := Config.faultRegister k 4, phase0 := Config.faultRegister k 5 }

/-- The Engine's registers after a fault (R217): every register unspecified. -/
def faultedEngine (k : Nat) : Engine :=
  { sr := Config.faultRegister k 6, mf := Config.faultRegister k 7, depth := Config.faultRegister k 8,
    base := Config.faultRegister k 9, time := Config.faultRegister k 10, sr0 := Config.faultRegister k 11,
    mf0 := Config.faultRegister k 12, depth0 := Config.faultRegister k 13, base0 := Config.faultRegister k 14 }

/-- R217: `FAULT <- 1`, the VALID flags keep their values, the rest is unspecified. -/
def Regs.faulted (g : Regs) (capMax k : Nat) : Regs :=
  { fault := true, dl := g.dl.map (fun _ => faultedDelayLine capMax k), lfo := g.lfo.map (fun _ => faultedOscillator k),
    eng := g.eng.map (fun _ => faultedEngine k) }

/-- `raise Fault()` (R217): the outputs delivered before it, the status `FAULT`, the registers as `Regs.faulted` says. -/
def takeFault (outputs : List F32) (s : State) : Result :=
  answer outputs .fault 0#8 { s with regs := s.regs.faulted s.capMax s.freeIdx, freeIdx := s.freeIdx + 1 }

/-! ### The common checks (60_exceptions.md R219 steps 3 to 5) -/

/-- R219 step 3, R218. -/
def unlessFaulted (s : State) (k : Result) : Result := if s.regs.fault then refuse .faulted s else k

/-- R219 step 5, R215. -/
def unlessOwned (s : State) (k : Result) : Result := if s.regs.engValid then refuse .owned s else k

/-- R219 step 4 for the Delay Line (R214). -/
def withDl (s : State) (k : DelayLine → Result) : Result :=
  match s.regs.dl with
  | none => refuse .notConstructed s
  | some d => k d

/-- R219 step 4 for the Oscillator (R214). -/
def withLfo (s : State) (k : Oscillator → Result) : Result :=
  match s.regs.lfo with
  | none => refuse .notConstructed s
  | some o => k o

/-- R219 step 4 for the Engine (R214). -/
def withEng (s : State) (k : Engine → Result) : Result :=
  match s.regs.eng with
  | none => refuse .notConstructed s
  | some e => k e

/-- The checks of a constructing leaf command (R134, R160: no existence check). -/
def newLeaf (s : State) (k : Result) : Result := unlessFaulted s (unlessOwned s k)

/-- The checks of a Delay Line command that changes nothing (R134). -/
def readDl (s : State) (k : DelayLine → Result) : Result := unlessFaulted s (withDl s k)

/-- The checks of a Delay Line command that changes it (R134). -/
def mutateDl (s : State) (k : DelayLine → Result) : Result :=
  unlessFaulted s (withDl s (fun d => unlessOwned s (k d)))

/-- The checks of an Oscillator command that changes nothing (R160). -/
def readLfo (s : State) (k : Oscillator → Result) : Result := unlessFaulted s (withLfo s k)

/-- The checks of an Oscillator command that changes it (R160). -/
def mutateLfo (s : State) (k : Oscillator → Result) : Result :=
  unlessFaulted s (withLfo s (fun o => unlessOwned s (k o)))

/-- The checks of an Engine command (R190: no ownership check). -/
def onEng (s : State) (k : Engine → Result) : Result := unlessFaulted s (withEng s k)

/-- The leaves an engine owns (10_state.md R23); without one of them the state is none of the spec's (R12). -/
def withOwned (s : State) (k : DelayLine → Oscillator → Result) : Result :=
  match s.regs.dl, s.regs.lfo with
  | some d, some o => k d o
  | _, _ => .fault .leafMissing

/-- A store access, stopped where its index is outside the store (20_memory.md R41). -/
def withStore {α : Type} (access : Option α) (k : α → Result) : Result :=
  match access with
  | none => .fault .storeBounds
  | some a => k a

/-! ### Hardware reset (70_reset_and_hazards.md R240 to R242) -/

/-- `rst` while no command is in flight (R240, R241): the reset registers, the response port idle. -/
def State.hardReset (s : State) : State := { s with regs := Regs.reset, rsp := [] }

/-- `rst` during a command (R242): the reset registers; of the command's response any words may have been delivered, and they
carry no information (93 U14). -/
def State.hardResetDuring (s : State) : State :=
  { s with regs := Regs.reset, rsp := Config.partialResponse s.freeIdx, freeIdx := s.freeIdx + 1 }

/-! ### The host's next event (30_encoding.md R60, 20_memory.md R48) -/

/-- The first pending event and the state without it. -/
def State.nextEvent (s : State) : Option (HostEvent × State) :=
  match s.inbox with
  | [] => none
  | e :: rest => some (e, { s with inbox := rest })

/-- The frame is put before all pending events. -/
def State.withFrame (s : State) (f : Frame) : State := { s with inbox := .command f :: s.inbox }

end Sys2Proof.Machine
end

