-- ==== Sys2Proof/Machine/Operands.lean ====
section
/-! DEFINITION. Operands: what a selector names (30_encoding.md R66, R67), the domains of parameter values
(60_exceptions.md R211) and the words of `U32` results (30_encoding.md R72). -/

namespace Sys2Proof.Machine

/-- `zext_32` of an index, a count or a capacity (30_encoding.md R72). -/
def indexWord (k : Nat) : Word := BitVec.ofNat 32 k

/-! ### Oscillator parameters (30_encoding.md R66) -/

/-- The register a selector names. -/
def Oscillator.get (o : Oscillator) : LfoParam → F32
  | .sr => o.sr
  | .freq => o.freq
  | .phase => o.phase

/-- The selected register written, nothing else (42_oscillator.md R152). -/
def Oscillator.set (o : Oscillator) (p : LfoParam) (v : F32) : Oscillator :=
  match p with
  | .sr => { o with sr := v }
  | .freq => { o with freq := v }
  | .phase => { o with phase := v }

/-- The domain `LFO_SETP` accepts (30_encoding.md R66): the phase is unconstrained. -/
def lfoAccepts (p : LfoParam) (v : F32) : Bool :=
  match p with
  | .sr => positive v
  | .freq => positive v
  | .phase => true

/-! ### Engine parameters (30_encoding.md R67) -/

/-- The register a selector names. -/
def Engine.get (e : Engine) : EngParam → F32
  | .sr => e.sr
  | .mf => e.mf
  | .depth => e.depth
  | .base => e.base

/-- The selected register written, nothing else (43_engine.md R174). -/
def Engine.set (e : Engine) (p : EngParam) (v : F32) : Engine :=
  match p with
  | .sr => { e with sr := v }
  | .mf => { e with mf := v }
  | .depth => { e with depth := v }
  | .base => { e with base := v }

/-- What `ENG_SETP` copies into the owned oscillator: selectors 0 and 1 (43_engine.md R174, 92 D25). -/
def Oscillator.follow (o : Oscillator) (p : EngParam) (v : F32) : Oscillator :=
  match p with
  | .sr => { o with sr := v }
  | .mf => { o with freq := v }
  | .depth => o
  | .base => o

/-- The domain `ENG_SETP` accepts: all four must be above 0 (30_encoding.md R67, 90_conflicts.md C3). -/
def engAccepts (_ : EngParam) (v : F32) : Bool := positive v

/-! ### Constructor operands (60_exceptions.md R219 step 6: the first out of its domain, in selector order) -/

/-- The first operand, with its selector, that its check refuses. -/
def firstInvalid : List (BitVec 8 × F32 × Bool) → Option (BitVec 8 × F32)
  | [] => none
  | (esel, v, accepted) :: rest => if accepted then firstInvalid rest else some (esel, v)

/-- `LFO_NEW`'s operands against their domains (42_oscillator.md R150). -/
def lfoNewInvalid (sr freq : F32) : Option (BitVec 8 × F32) :=
  firstInvalid [(0#8, sr, positive sr), (1#8, freq, positive freq)]

/-- `ENG_NEW`'s operands against their domains (43_engine.md R170): depth may be 0. -/
def engNewInvalid (sr mf depth base : F32) : Option (BitVec 8 × F32) :=
  firstInvalid [(0#8, sr, positive sr), (1#8, mf, positive mf), (2#8, depth, nonNegative depth), (3#8, base, positive base)]

/-- A constructor's operand check: the first invalid one is rejected (60_exceptions.md R211). -/
def unlessInvalid (s : State) (bad : Option (BitVec 8 × F32)) (k : Result) : Result :=
  match bad with
  | some (esel, v) => rejectValue esel v s
  | none => k

/-- `capacity` is a valid size (41_delay_line.md R120, 60_exceptions.md R216). -/
def validCapacity (capMax : Nat) (capacity : Word) : Bool :=
  decide (1 ≤ capacity.toNat ∧ capacity.toNat ≤ capMax)

end Sys2Proof.Machine
end

