-- ==== Sys2Proof/Machine/DelayLine.lean ====
section
/-! DEFINITION. The Delay Line commands (41_delay_line.md). The common checks of R134 are `newLeaf`, `readDl` and
`mutateDl`. -/

namespace Sys2Proof.Machine

/-- A Delay Line of this capacity, all words `+0.0`, both cursors 0 (R120). -/
def freshDelayLine (n : Nat) : DelayLine := { n := n, w := 0, r := 0, buf := Memory.zeroed }

/-- `DL_NEW capacity` (R120). -/
def execDlNew (capacity : Word) (s : State) : Result :=
  newLeaf s <|
    if validCapacity s.capMax capacity then respond [] (s.setDl (freshDelayLine capacity.toNat)) else refuse .badSize s

/-- `DL_RESET` (R121). -/
def execDlReset (s : State) : Result := mutateDl s fun d => respond [] (s.setDl (d.cleared 0 0))

/-- `DL_PUSH value` (R122). -/
def execDlPush (value : F32) (s : State) : Result :=
  mutateDl s fun d => withStore (d.memWrite d.w value) fun d' => respond [] (s.setDl d'.advanceWrite)

/-- `DL_POP` (R123). -/
def execDlPop (s : State) : Result :=
  mutateDl s fun d => withStore (d.memRead d.r) fun v => respond [v] (s.setDl d.advanceRead)

/-- `DL_PUT value` (R124). -/
def execDlPut (value : F32) (s : State) : Result :=
  mutateDl s fun d => withStore (d.memWrite d.w value) fun d' => respond [] (s.setDl d')

/-- `DL_PEEK` (R125). -/
def execDlPeek (s : State) : Result := readDl s fun d => withStore (d.memRead d.r) fun v => respond [v] s

/-- `DL_GET offset` (R126). -/
def execDlGet (offset : Word) (s : State) : Result :=
  readDl s fun d => withStore (d.memRead (d.slot offset.toNat)) fun v => respond [v] s

/-- `DL_GETF offset` (R127). -/
def execDlGetf (offset : F32) (s : State) : Result :=
  readDl s fun d =>
    if badOffset offset then takeFault [] s else withStore (d.getf offset) fun y => respond [y] s

/-- `DL_GETWI` (R128). -/
def execDlGetwi (s : State) : Result := readDl s fun d => respond [indexWord d.w] s

/-- `DL_SETWI i` (R129). -/
def execDlSetwi (index : Word) (s : State) : Result :=
  mutateDl s fun d => respond [] (s.setDl { d with w := index.toNat % d.n })

/-- `DL_GETRI` (R130). -/
def execDlGetri (s : State) : Result := readDl s fun d => respond [indexWord d.r] s

/-- `DL_SETRI i` (R131). -/
def execDlSetri (index : Word) (s : State) : Result :=
  mutateDl s fun d => respond [] (s.setDl { d with r := index.toNat % d.n })

/-- `DL_LEN` (R132). -/
def execDlLen (s : State) : Result := readDl s fun d => respond [indexWord d.len] s

/-- `DL_CAP` (R133). -/
def execDlCap (s : State) : Result := readDl s fun d => respond [indexWord d.n] s

end Sys2Proof.Machine
end

