-- ==== Sys2Proof/Machine/Sine.lean ====
section
/-! DEFINITION. The sine of 40_numerics.md R106: an open parameter that has the properties S1 to S6. Its values carry the proof
that they are in the range S2 and in the accuracy S5, so `SIN` is a conforming sine, and may be any one (log 8). -/

namespace Sys2Proof.Machine

/-- `real(a)` of a finite datum (40_numerics.md R97). -/
def realOf (a : F32) : Rat := (signedUnits a : Rat) / (unitsPerOne : Rat)

/-- R106 S2 and S5: a conforming sine may have the value `v` at the finite datum `a`. -/
def SineAt (a v : F32) : Prop :=
  (isFinite v = true ∧ -1 ≤ realOf v ∧ realOf v ≤ 1) ∧
  (|realOf a| < 8 → |((realOf v : Rat) : ℝ) - Real.sin ((realOf a : Rat) : ℝ)| ≤ 1 / 2 ^ 22)

end Sys2Proof.Machine

namespace Sys2Proof

/-- `SIN` at the finite data without a sign (00_scope.md R9, 40_numerics.md R106): open, any values with S2 and S5; none leaves
the datum to `sinSubstitute`. -/
opaque Config.sinTable : (a : F32) → Option { v : F32 // Machine.SineAt a v }

end Sys2Proof

namespace Sys2Proof.Machine

/-- The first `n` terms of the series of the sine at `x`. -/
def sinSeries (x : Rat) : Nat → Rat
  | 0 => 0
  | n + 1 => sinSeries x n + (-1) ^ n * x ^ (2 * n + 1) / ((2 * n + 1).factorial : Rat)

/-- A value with S2 and S5 at every finite datum, for where the open table has none: where S5 states the accuracy the series,
rounded (forty terms leave less than 2^-150 for `|x| < 8`), else `+0.0`. -/
def sinSubstitute (a : F32) : F32 :=
  if units a < 8 * unitsPerOne then
    let y := sinSeries (realOf a) 40
    ofSignMag (decide (y < 0)) (min (roundUnits (y.num.natAbs * unitsPerOne) y.den) (magBits fone))
  else fzero

/-- The sine at a finite datum without a sign. -/
def sinUnsigned (table : (a : F32) → Option { v : F32 // SineAt a v }) (a : F32) : F32 :=
  match table a with
  | some v => v.val
  | none => sinSubstitute a

/-- The sine that a table of values and a function of the non-finite data give (R106): S4 outside the finite data, S3 at the
zeros, S6 for negative arguments. -/
def sineOf (table : (a : F32) → Option { v : F32 // SineAt a v }) (nan : F32 → F32) (a : F32) : F32 :=
  if !isFinite a then (if isNaN (nan a) then nan a else Config.canonNan)
  else if isZero a then a
  else if signBit a then fneg (sinUnsigned table (fneg a))
  else sinUnsigned table a

/-- `SIN` (00_scope.md R9, 40_numerics.md R106). -/
def SIN (a : F32) : F32 := sineOf Config.sinTable Config.sinNan a

end Sys2Proof.Machine
end

