-- ==== Sys2Proof/Machine/Oscillator.lean ====
section
/-! DEFINITION. The Oscillator commands (42_oscillator.md). The common checks of R160 are `newLeaf`, `readLfo` and
`mutateLfo`. -/

namespace Sys2Proof.Machine

/-- The phase increment (R155), recomputed at every advance (10_state.md R27). With `sr = +Inf` and a product that is `+Inf`
(`freq = +Inf`, or a finite `freq` so large that it overflows) it is the NaN of 40_numerics.md R93, against R155's remark that it
is never NaN (DEDUCED, log 14). -/
def Oscillator.increment (o : Oscillator) : F32 := fdiv (fmul Config.twoPi o.freq) o.sr

/-- The value before the advance (R157). -/
def Oscillator.value (o : Oscillator) : F32 := SIN o.phase

/-- The oscillator after `lfo_step()` (R154, R156); the value it returned is `Oscillator.value` of the one before. -/
def Oscillator.advance (o : Oscillator) : Oscillator :=
  { o with phase := fmodx (fadd o.phase o.increment) Config.twoPi }

/-- The originals restored (R151). -/
def Oscillator.restored (o : Oscillator) : Oscillator := { o with sr := o.sr0, freq := o.freq0, phase := o.phase0 }

/-- An oscillator constructed with this triple (R150). -/
def freshOscillator (sr freq phase : F32) : Oscillator :=
  { sr := sr, freq := freq, phase := phase, sr0 := sr, freq0 := freq, phase0 := phase }

/-- `LFO_NEW sr, freq, phase` (R150). -/
def execLfoNew (sr freq phase : F32) (s : State) : Result :=
  newLeaf s <| unlessInvalid s (lfoNewInvalid sr freq) <| respond [] (s.setLfo (freshOscillator sr freq phase))

/-- `LFO_RESET` (R151). -/
def execLfoReset (s : State) : Result := mutateLfo s fun o => respond [] (s.setLfo o.restored)

/-- `LFO_SETP sel, value` (R152). -/
def execLfoSetp (sel : LfoParam) (value : F32) (s : State) : Result :=
  mutateLfo s fun o =>
    if lfoAccepts sel value then respond [] (s.setLfo (o.set sel value)) else rejectValue sel.sel value s

/-- `LFO_GETP sel` (R153). -/
def execLfoGetp (sel : LfoParam) (s : State) : Result := readLfo s fun o => respond [o.get sel] s

/-- `LFO_ADV` (R154). -/
def execLfoAdv (s : State) : Result := mutateLfo s fun o => respond [o.value] (s.setLfo o.advance)

end Sys2Proof.Machine
end

