-- ==== Sys2Proof/Machine/Engine.lean ====
section
/-! DEFINITION. The Modulation Engine commands and the sample loop (43_engine.md). The common checks of R190 are `onEng`. -/

namespace Sys2Proof.Machine

/-! ### Sizing (R171) -/

/-- `base_delay_samples`, an integer-valued `F32` (R171, R178). -/
def baseSamples (sr base : F32) : F32 := fround (fmul base sr)

/-- `size(sr, depth, base)` (R171): the base delay in samples and the capacity; none where it raises `BAD_SIZE`. -/
def engineSize (capMax : Nat) (sr depth base : F32) : Option (Nat × Nat) :=
  let dn := baseSamples sr base
  let d := f2n dn
  let ds := fmul depth dn
  let m := fadd dn ds
  let n := (ceilInt m).toNat + Config.margin
  if isFinite dn = false then none
  else if d < 1 then none
  else if isFinite m = false then none
  else if (d : Int) - 1 < ceilInt ds then none
  else if capMax < n then none
  else some (d, n)

/-! ### The sample step (R177 to R179) -/

/-- An engine with the leaves it owns (10_state.md R23): all that the sample loop reads and writes. -/
structure Voice where
  dl : DelayLine
  lfo : Oscillator
  eng : Engine
  deriving DecidableEq, Repr

/-- `offset(osc)` (R178), from the current registers (10_state.md R27). -/
def Engine.offset (e : Engine) (osc : F32) : F32 :=
  let dn := baseSamples e.sr e.base
  let ds := fmul e.depth dn
  fadd dn (fmul ds osc)

/-- R179: the offsets at which a sample step faults. -/
def offsetOutOfRange (o : F32) (n : Nat) : Bool := isNaN o || flt o fzero || fge o (u2f (n - 1))

/-- The time accumulator after one sample (R177 step 6). -/
def Engine.tick (e : Engine) : Engine := { e with time := fadd e.time (fdiv fone e.sr) }

/-- What one sample step gives. -/
inductive SampleOutcome where
  /-- the output word and what the registers hold after the step -/
  | output (y : F32) (after : Voice)
  /-- `raise Fault()` (R179) -/
  | outOfRange
  /-- a store access outside the store (20_memory.md R41) -/
  | bounds
  deriving DecidableEq, Repr

/-- `sample_step(x)` (R177): advance the oscillator, compute the offset, read, write the input, advance both cursors and the
time. -/
def sampleStep (x : F32) (v : Voice) : SampleOutcome :=
  let o := v.eng.offset v.lfo.value
  if offsetOutOfRange o v.dl.n then .outOfRange
  else
    match v.dl.getf o, v.dl.memWrite v.dl.w x with
    | some y, some d => .output y { dl := d.advanceWrite.advanceRead, lfo := v.lfo.advance, eng := v.eng.tick }
    | _, _ => .bounds

/-- What a block of samples gives: the outputs so far, and how it ended. -/
inductive BlockOutcome where
  | outputs (ys : List F32) (after : Voice)
  | outOfRange (ys : List F32)
  | bounds
  deriving DecidableEq, Repr

/-- An output put before what the rest of the block gives. -/
def BlockOutcome.cons (y : F32) : BlockOutcome → BlockOutcome
  | .outputs ys v => .outputs (y :: ys) v
  | .outOfRange ys => .outOfRange (y :: ys)
  | .bounds => .bounds

/-- The loop of `ENG_PROC` (R176): the samples in order, stopped at the first that faults. -/
def runBlock : List F32 → Voice → BlockOutcome
  | [], v => .outputs [] v
  | x :: xs, v =>
    match sampleStep x v with
    | .outOfRange => .outOfRange []
    | .bounds => .bounds
    | .output y v' => (runBlock xs v').cons y

/-! ### Construction, reset and destruction (R170, R173, R185) -/

/-- The engine's own registers after `ENG_NEW` (R170). -/
def freshEngine (sr mf depth base : F32) : Engine :=
  { sr := sr, mf := mf, depth := depth, base := base, time := fzero, sr0 := sr, mf0 := mf, depth0 := depth, base0 := base }

/-- The owned Delay Line after `ENG_NEW` (R170, R172): zeroed, `DL.r = 0`, `DL.w = (2 · D) mod N`. -/
def ownedDelayLine (d n : Nat) : DelayLine := { n := n, w := (2 * d) % n, r := 0, buf := Memory.zeroed }

/-- The engine's registers with the originals restored and the time zeroed (R173). -/
def Engine.restored (e : Engine) : Engine :=
  { e with sr := e.sr0, mf := e.mf0, depth := e.depth0, base := e.base0, time := fzero }

/-- The three VALID flags cleared: the components hold no value any more (R185, 10_state.md R25). -/
def State.freed (s : State) : State := { s with regs := { s.regs with dl := none, lfo := none, eng := none } }

/-- `ENG_NEW sr, mf, depth, base` (R170). -/
def execEngNew (sr mf depth base : F32) (s : State) : Result :=
  unlessFaulted s <| unlessInvalid s (engNewInvalid sr mf depth base) <|
    match engineSize s.capMax sr depth base with
    | none => refuse .badSize s
    | some (d, n) =>
      respond [] (s.setAll (ownedDelayLine d n) (freshOscillator sr mf Config.phase0) (freshEngine sr mf depth base))

/-- `ENG_RESET` (R173). -/
def execEngReset (s : State) : Result :=
  onEng s fun e => withOwned s fun d o =>
    match engineSize s.capMax e.sr0 e.depth0 e.base0 with
    | none => .fault .sizeLost
    | some (d0, _) => respond [] (s.setAll (d.cleared ((2 * d0) % d.n) 0) o.restored e.restored)

/-- `ENG_SETP sel, value` (R174): selectors 0 and 1 are copied into the owned oscillator. -/
def execEngSetp (sel : EngParam) (value : F32) (s : State) : Result :=
  onEng s fun e =>
    if engAccepts sel value then
      withOwned s fun d o => respond [] (s.setAll d (o.follow sel value) (e.set sel value))
    else rejectValue sel.sel value s

/-- `ENG_GETP sel` (R175). -/
def execEngGetp (sel : EngParam) (s : State) : Result := onEng s fun e => respond [e.get sel] s

/-- `ENG_PROC n, x[0], ..., x[n−1]` (R176). -/
def execEngProc (samples : List F32) (s : State) : Result :=
  onEng s fun e => withOwned s fun d o =>
    match runBlock samples { dl := d, lfo := o, eng := e } with
    | .outputs ys v => respond ys (s.setAll v.dl v.lfo v.eng)
    | .outOfRange ys => takeFault ys s
    | .bounds => .fault .storeBounds

/-- `ENG_FREE` (R185). -/
def execEngFree (s : State) : Result := onEng s fun _ => respond [] s.freed

/-- `ENG_GETT` (R186). -/
def execEngGett (s : State) : Result := onEng s fun e => respond [e.time] s

end Sys2Proof.Machine
end

