-- ==== Sys2Proof/Machine/System.lean ====
section
/-! DEFINITION. The system command (44_system.md). -/

namespace Sys2Proof.Machine

/-- `SYS_STATUS` (R200): executed in every state, the faulted one included (60_exceptions.md R218, R219 step 2). -/
def execSysStatus (s : State) : Result := respond [s.regs.flagsWord] s

/-- The answer to a frame that is no command (60_exceptions.md R213), whatever the state. -/
def answerIllegal (s : State) : Result := refuse .illegalCmd s

end Sys2Proof.Machine
end

