-- ==== Sys2Proof/Machine/Dispatch.lean ====
section
/-! DEFINITION. One arm per command of 30_encoding.md R65. -/

namespace Sys2Proof.Machine

def exec (i : Instr) (s : State) : Host.Outcome State Fault Refusal :=
  match i with
  | .sysStatus => Sys2Proof.Machine.execSysStatus s
  | .dlNew capacity => Sys2Proof.Machine.execDlNew capacity s
  | .dlReset => Sys2Proof.Machine.execDlReset s
  | .dlPush value => Sys2Proof.Machine.execDlPush value s
  | .dlPop => Sys2Proof.Machine.execDlPop s
  | .dlPut value => Sys2Proof.Machine.execDlPut value s
  | .dlPeek => Sys2Proof.Machine.execDlPeek s
  | .dlGet offset => Sys2Proof.Machine.execDlGet offset s
  | .dlGetf offset => Sys2Proof.Machine.execDlGetf offset s
  | .dlGetwi => Sys2Proof.Machine.execDlGetwi s
  | .dlSetwi index => Sys2Proof.Machine.execDlSetwi index s
  | .dlGetri => Sys2Proof.Machine.execDlGetri s
  | .dlSetri index => Sys2Proof.Machine.execDlSetri index s
  | .dlLen => Sys2Proof.Machine.execDlLen s
  | .dlCap => Sys2Proof.Machine.execDlCap s
  | .lfoNew sr freq phase => Sys2Proof.Machine.execLfoNew sr freq phase s
  | .lfoReset => Sys2Proof.Machine.execLfoReset s
  | .lfoSetp sel value => Sys2Proof.Machine.execLfoSetp sel value s
  | .lfoGetp sel => Sys2Proof.Machine.execLfoGetp sel s
  | .lfoAdv => Sys2Proof.Machine.execLfoAdv s
  | .engNew sr mf depth base => Sys2Proof.Machine.execEngNew sr mf depth base s
  | .engReset => Sys2Proof.Machine.execEngReset s
  | .engSetp sel value => Sys2Proof.Machine.execEngSetp sel value s
  | .engGetp sel => Sys2Proof.Machine.execEngGetp sel s
  | .engProc samples => Sys2Proof.Machine.execEngProc samples s
  | .engFree => Sys2Proof.Machine.execEngFree s
  | .engGett => Sys2Proof.Machine.execEngGett s

end Sys2Proof.Machine
end

