-- ==== Sys2Proof/Machine/Step.lean ====
section
/-! DEFINITION. One step: the host's next event (00_scope.md R8, 20_memory.md R48). -/

namespace Sys2Proof.Machine

/-- One whole command frame, from decode to the last word of its response (R8); or one hardware reset (R240, R242). With no
event pending the core holds its state and does nothing (60_exceptions.md R229). -/
def step (s : State) : Host.Outcome State Fault Refusal :=
  match s.nextEvent with
  | none => .next s
  | some (.command f, s') =>
    match decode f with
    | .ok i => exec i s'
    | .error _ => answerIllegal s'
  | some (.reset, s') => .next s'.hardReset
  | some (.resetDuring _, s') => .next s'.hardResetDuring

/-- The state whose next event is the frame of these bits of an opcode-table row (`tableFrame`): the host sends that frame. -/
def State.withFetchWord (s : State) (nbits w : Nat) : State := s.withFrame (tableFrame nbits w)

end Sys2Proof.Machine
end

