-- ==== Sys2Proof/Safety.lean ====
section
/-! DEFINITION. The terms claims use: the invariants of the states a run reaches (10_state.md R12, R13, R16, R18, R21, R23),
which commands a common check refuses (60_exceptions.md R214, R215, R219), runs and good runs (70_reset_and_hazards.md R253),
the legal frames (30_encoding.md R64), the
queue discipline of the ring property (41_delay_line.md R136), rounding to nearest (40_numerics.md R91), the conforming sines
(R106) and the history an engine's store holds (20_memory.md R47). -/

namespace Sys2Proof.Machine

/-! ### Invariants -/

/-- 10_state.md R10 (types), R13, R16: the capacity in its range, both cursors below it, the store canonical and inside. -/
def DelayLine.ok (capMax : Nat) (d : DelayLine) : Prop :=
  1 ≤ d.n ∧ d.n ≤ capMax ∧ d.w < d.n ∧ d.r < d.n ∧ d.buf.wf ∧ d.buf.within d.n

/-- The parameter in its range (00_scope.md R9), a Delay Line that is there as R16 says, and R12: an engine has its leaves. -/
def State.Typed (s : State) : Prop :=
  1 ≤ s.capMax ∧ s.capMax ≤ Config.capMaxLimit ∧ (∀ d, s.regs.dl = some d → d.ok s.capMax) ∧
  (s.regs.engValid = true → s.regs.dlValid = true ∧ s.regs.lfoValid = true)

/-- 10_state.md R18, for the registers and the originals a reset restores. -/
def Oscillator.InDomain (o : Oscillator) : Prop :=
  positive o.sr = true ∧ positive o.freq = true ∧ positive o.sr0 = true ∧ positive o.freq0 = true

/-- 10_state.md R21, for the registers and the originals a reset restores. -/
def Engine.InDomain (e : Engine) : Prop :=
  positive e.sr = true ∧ positive e.mf = true ∧ nonNegative e.depth = true ∧ positive e.base = true ∧
  positive e.sr0 = true ∧ positive e.mf0 = true ∧ nonNegative e.depth0 = true ∧ positive e.base0 = true

/-- 10_state.md R18, R21. After a fault the registers are unspecified (60_exceptions.md R217). -/
def State.InDomain (s : State) : Prop :=
  s.regs.fault = false →
    (∀ o, s.regs.lfo = some o → o.InDomain) ∧ (∀ e, s.regs.eng = some e → e.InDomain)

/-- 10_state.md R23: what an engine and the leaves it owns have in common. -/
def Owns (capMax : Nat) (e : Engine) (d : DelayLine) (o : Oscillator) : Prop :=
  o.sr = e.sr ∧ o.freq = e.mf ∧ o.sr0 = e.sr0 ∧ o.freq0 = e.mf0 ∧ o.phase0 = Config.phase0 ∧
  ∃ d0, engineSize capMax e.sr0 e.depth0 e.base0 = some (d0, d.n) ∧ d.len = (2 * d0) % d.n

/-- 10_state.md R23. After a fault the registers are unspecified (60_exceptions.md R217). -/
def State.Owned (s : State) : Prop :=
  s.regs.fault = false → ∀ e d o, s.regs.eng = some e → s.regs.dl = some d → s.regs.lfo = some o → Owns s.capMax e d o

/-- The invariants together. -/
def State.Inv (s : State) : Prop := s.Typed ∧ s.InDomain ∧ s.Owned

/-! ### The common checks -/

/-- The three components (00_scope.md R2). -/
inductive Component where
  | delayLine | oscillator | engine
  deriving DecidableEq, Repr

/-- Its VALID flag (10_state.md R11). -/
def Component.valid (c : Component) (g : Regs) : Bool :=
  match c with
  | .delayLine => g.dlValid
  | .oscillator => g.lfoValid
  | .engine => g.engValid

/-- The component whose VALID flag a command needs (60_exceptions.md R214); constructors and `SYS_STATUS` need none. -/
def needsComponent : Instr → Option Component
  | .sysStatus | .dlNew _ | .lfoNew _ _ _ | .engNew _ _ _ _ => none
  | .dlReset | .dlPush _ | .dlPop | .dlPut _ | .dlPeek | .dlGet _ | .dlGetf _ | .dlGetwi | .dlSetwi _ | .dlGetri
  | .dlSetri _ | .dlLen | .dlCap => some .delayLine
  | .lfoReset | .lfoSetp _ _ | .lfoGetp _ | .lfoAdv => some .oscillator
  | .engReset | .engSetp _ _ | .engGetp _ | .engProc _ | .engFree | .engGett => some .engine

/-- The eleven mutating leaf commands (60_exceptions.md R215). -/
def mutatesLeaf : Instr → Bool
  | .dlNew _ | .dlReset | .dlPush _ | .dlPop | .dlPut _ | .dlSetwi _ | .dlSetri _ | .lfoNew _ _ _ | .lfoReset
  | .lfoSetp _ _ | .lfoAdv => true
  | .sysStatus | .dlPeek | .dlGet _ | .dlGetf _ | .dlGetwi | .dlGetri | .dlLen | .dlCap | .lfoGetp _ | .engNew _ _ _ _
  | .engReset | .engSetp _ _ | .engGetp _ | .engProc _ | .engFree | .engGett => false

/-- The status steps 2 to 5 of 60_exceptions.md R219 refuse a command with, none if they let it pass. -/
def commonCheck (i : Instr) (g : Regs) : Option Status :=
  if i = .sysStatus then none
  else if g.fault = true then some .faulted
  else if (needsComponent i).any (fun c => !c.valid g) then some .notConstructed
  else if mutatesLeaf i = true ∧ g.engValid = true then some .owned
  else none

/-! ### Runs (70_reset_and_hazards.md R253) -/

/-- Commands in order from a state: their response frames and the final state, none if the model stops. -/
def runCommands : List Instr → State → Option (List (List Word) × State)
  | [], s => some ([], s)
  | i :: is, s =>
    match exec i s with
    | .next t => (runCommands is t).map (fun p => (t.rsp :: p.1, p.2))
    | .fault _ => none
    | .refused _ => none

/-- The status word of a response frame: its last word (30_encoding.md R70). -/
def lastWord (rsp : List Word) : Word := rsp.getLast?.getD 0

/-- R253: a response whose status is neither `FAULT` nor `FAULTED`. -/
def goodResponse (rsp : List Word) : Bool :=
  lastWord rsp != statusWord .fault 0#8 && lastWord rsp != statusWord .faulted 0#8

/-- The states of a run: from reset, whatever the host goes on to do, step by step. -/
inductive Reachable : State → Prop where
  | reset (capMax : Nat) (inbox : List HostEvent) : 1 ≤ capMax → capMax ≤ Config.capMaxLimit →
      Reachable { State.reset with capMax := capMax, inbox := inbox }
  | step (s t : State) : Reachable s → Sys2Proof.Machine.step s = .next t → Reachable t

/-! ### The queue discipline (41_delay_line.md R136) -/

/-- A push of a value, or a pop. -/
inductive QueueOp where
  | push (v : F32)
  | pop
  deriving DecidableEq, Repr

/-- The command of a queue operation. -/
def QueueOp.instr : QueueOp → Instr
  | .push v => .dlPush v
  | .pop => .dlPop

/-- The values pushed, in order. -/
def pushedValues : List QueueOp → List F32
  | [] => []
  | .push v :: ops => v :: pushedValues ops
  | .pop :: ops => pushedValues ops

/-- The responses of the pops among the responses to these operations. -/
def popResponses : List QueueOp → List (List Word) → List (List Word)
  | .pop :: ops, r :: rs => r :: popResponses ops rs
  | .push _ :: ops, _ :: rs => popResponses ops rs
  | _, _ => []

/-- R136: with `queued` samples outstanding, every pop has one to take and every push finds at most `n − 1`. -/
def disciplined (n : Nat) : Nat → List QueueOp → Prop
  | _, [] => True
  | queued, .push _ :: ops => queued ≤ n - 1 ∧ disciplined n (queued + 1) ops
  | queued, .pop :: ops => 0 < queued ∧ disciplined n (queued - 1) ops

/-! ### Conforming sines (40_numerics.md R106) -/

/-- The properties S2 to S6 of a waveform at the datum `a`; S1, a function of the bit pattern alone, is the type's. -/
structure ConformsAt (f : F32 → F32) (a : F32) : Prop where
  /-- S2 and S5 -/
  value : isFinite a = true → SineAt a (f a)
  /-- S3 -/
  origin : isZero a = true → f a = a
  /-- S4 -/
  nonFinite : isNaN (f a) = true ↔ isFinite a = false
  /-- S6 -/
  oddness : isFinite a = true → f (fneg a) = fneg (f a)

/-! ### Legal frames (30_encoding.md R64) -/

/-- R65 with R63, R66 and R67: the `op` byte, the number of values `sel` may have (from 0 up), and the number of words of the
frame (none: format B). -/
def frameTable : List (BitVec 8 × Nat × Option Nat) :=
  [(0x01, 1, some 1)] ++
  [(0x10, 1, some 2), (0x11, 1, some 1), (0x12, 1, some 2), (0x13, 1, some 1), (0x14, 1, some 2), (0x15, 1, some 1),
   (0x16, 1, some 2), (0x17, 1, some 2), (0x18, 1, some 1), (0x19, 1, some 2), (0x1A, 1, some 1), (0x1B, 1, some 2),
   (0x1C, 1, some 1), (0x1D, 1, some 1)] ++
  [(0x20, 1, some 4), (0x21, 1, some 1), (0x22, 3, some 2), (0x23, 3, some 1), (0x24, 1, some 1)] ++
  [(0x30, 1, some 5), (0x31, 1, some 1), (0x32, 4, some 2), (0x33, 4, some 1), (0x34, 1, none), (0x35, 1, some 1),
   (0x36, 1, some 1)]

/-- A frame that R64 calls a command: an assigned opcode, `rsvd` 0, `sel` a value its opcode has, and the length of its
format (for format B, `2 + W[1]` words). -/
def LegalFrame (f : Frame) : Prop :=
  (f.header.extractLsb' 0 16).toNat = 0 ∧
  ∃ op sels len, (op, sels, len) ∈ frameTable ∧ f.header.extractLsb' 24 8 = op ∧ (f.header.extractLsb' 16 8).toNat < sels ∧
    match len with
    | some k => f.words.length = k
    | none => ∃ count samples, f.operands = count :: samples ∧ f.words.length = 2 + count.toNat

/-! ### Rounding to nearest (40_numerics.md R91) -/

/-- Where roundTiesToEven overflows: the largest finite datum and half a unit in its last place, `2^128 − 2^103`. -/
def overflowBound : Rat := 2 ^ 128 - 2 ^ 103

/-- R91, R92: `y` is the exact `x` rounded once with roundTiesToEven. Below the overflow bound no finite datum (subnormals
among them) is nearer to `x` than `y`, and if one with another value is as near, `y` is the even one; from the bound on, `y`
is an infinity. The sign is that of `x`; a zero `x` leaves it open (R95 gives it). -/
def IsNearest (x : Rat) (y : F32) : Prop :=
  (x ≠ 0 → signBit y = decide (x < 0)) ∧
  if |x| < overflowBound then
    isFinite y = true ∧
    (∀ z, isFinite z = true → |x - realOf y| ≤ |x - realOf z|) ∧
    (∀ z, isFinite z = true → |x - realOf z| = |x - realOf y| → realOf z ≠ realOf y → y.getLsbD 0 = false)
  else isInf y = true

/-! ### What nothing but `ENG_GETT` reads (10_state.md R22) -/

/-- The state with the engine's time forgotten. -/
def State.forgetTime (s : State) : State :=
  { s with regs := { s.regs with eng := s.regs.eng.map (fun e => { e with time := fzero }) } }

/-! ### The history an engine's store holds (20_memory.md R47) -/

/-- R47's `delay(k) = ((S − k − 1) mod N) + 1` with `S = 2 · D0`. -/
def slotDelay (d0 n k : Nat) : Nat := ((2 * (d0 : Int) - k - 1) % (n : Int)).toNat + 1

/-- Input sample number `total − delay` of `samples`, of which `total` were processed; `+0.0` before the first (R47). -/
def inputAt (samples : List F32) (delay : Nat) : F32 :=
  if delay ≤ samples.length then samples.getD (samples.length - delay) fzero else fzero

end Sys2Proof.Machine
end

