-- ==== Sys2Proof/Certificates/Slice0/Obligations.lean ====
section
/-! DEFINITION. The statements for the provers. A response is written as its words: `0x00000000` is the status word `OK`
(30_encoding.md R70, R71), so `[y, 0x00000000#32]` is one result and `OK`. A next state is written whole, or by every field
that differs; `{ s with rsp := ... }` says that nothing but the response changed. -/

section

open Sys2Proof Sys2Proof.Machine

/-! ### Encoding (30_encoding.md) -/

/-- R61 to R65, R73: every command's frame decodes to that command. -/
def Obligations.EncodedCommandDecodes : Prop :=
  ∀ i : Instr, i.wellFormed = true → decode (encode i) = .ok i

/-- R61 to R65: a frame that decodes is the frame of the command it decodes to; no bit is dropped. -/
def Obligations.DecodedFrameEncodes : Prop :=
  ∀ (f : Frame) (i : Instr), decode f = .ok i → i.wellFormed = true ∧ encode i = f

/-- 20_memory.md R43: frames written down as bytes, each word least significant byte first (byte `j` is bits `8j+7:8j`), the
words in order; with R61 to R65 and R73, both round trips. -/
def Obligations.BytesRoundTrip : Prop :=
  (∀ i : Instr, i.wellFormed = true → decodeBytes (encodeBytes i) = .ok i) ∧
  (∀ (bs : List Byte) (i : Instr), decodeBytes bs = .ok i → encodeBytes i = bs) ∧
  (∀ (w : Word) (j : Nat), j < 4 → (wordBytes w)[j]? = some (w.extractLsb' (8 * j) 8)) ∧
  (∀ w : Word, (wordBytes w).length = 4) ∧
  (∀ i : Instr, encodeBytes i = (encode i).words.flatMap wordBytes) ∧
  (∀ f : Frame, (bytesOfWords f.words).length = 4 * f.words.length) ∧
  wordBytes 0x3F800000#32 = [0x00#8, 0x00#8, 0x80#8, 0x3F#8]

/-- R64: the decoder accepts exactly the legal frames. -/
def Obligations.DecodesExactlyLegalFrames : Prop :=
  ∀ f : Frame, (∃ i, decode f = .ok i) ↔ LegalFrame f

/-- R65, R66, R67: which header word is which command, for every row of the opcode map and every selector, whatever the
operand words; and R76's worked encodings, word for word. -/
def Obligations.WorkedEncodings : Prop :=
  decode ⟨0x01000000#32, []⟩ = .ok .sysStatus ∧
  (∀ a : Word,
    decode ⟨0x10000000#32, [a]⟩ = .ok (.dlNew a) ∧
    decode ⟨0x11000000#32, []⟩ = .ok .dlReset ∧
    decode ⟨0x12000000#32, [a]⟩ = .ok (.dlPush a) ∧
    decode ⟨0x13000000#32, []⟩ = .ok .dlPop ∧
    decode ⟨0x14000000#32, [a]⟩ = .ok (.dlPut a) ∧
    decode ⟨0x15000000#32, []⟩ = .ok .dlPeek ∧
    decode ⟨0x16000000#32, [a]⟩ = .ok (.dlGet a) ∧
    decode ⟨0x17000000#32, [a]⟩ = .ok (.dlGetf a) ∧
    decode ⟨0x18000000#32, []⟩ = .ok .dlGetwi ∧
    decode ⟨0x19000000#32, [a]⟩ = .ok (.dlSetwi a) ∧
    decode ⟨0x1A000000#32, []⟩ = .ok .dlGetri ∧
    decode ⟨0x1B000000#32, [a]⟩ = .ok (.dlSetri a) ∧
    decode ⟨0x1C000000#32, []⟩ = .ok .dlLen ∧
    decode ⟨0x1D000000#32, []⟩ = .ok .dlCap) ∧
  (∀ a b c : Word,
    decode ⟨0x20000000#32, [a, b, c]⟩ = .ok (.lfoNew a b c) ∧
    decode ⟨0x21000000#32, []⟩ = .ok .lfoReset ∧
    decode ⟨0x22000000#32, [a]⟩ = .ok (.lfoSetp .sr a) ∧
    decode ⟨0x22010000#32, [a]⟩ = .ok (.lfoSetp .freq a) ∧
    decode ⟨0x22020000#32, [a]⟩ = .ok (.lfoSetp .phase a) ∧
    decode ⟨0x23000000#32, []⟩ = .ok (.lfoGetp .sr) ∧
    decode ⟨0x23010000#32, []⟩ = .ok (.lfoGetp .freq) ∧
    decode ⟨0x23020000#32, []⟩ = .ok (.lfoGetp .phase) ∧
    decode ⟨0x24000000#32, []⟩ = .ok .lfoAdv) ∧
  (∀ a b c d : Word,
    decode ⟨0x30000000#32, [a, b, c, d]⟩ = .ok (.engNew a b c d) ∧
    decode ⟨0x31000000#32, []⟩ = .ok .engReset ∧
    decode ⟨0x32000000#32, [a]⟩ = .ok (.engSetp .sr a) ∧
    decode ⟨0x32010000#32, [a]⟩ = .ok (.engSetp .mf a) ∧
    decode ⟨0x32020000#32, [a]⟩ = .ok (.engSetp .depth a) ∧
    decode ⟨0x32030000#32, [a]⟩ = .ok (.engSetp .base a) ∧
    decode ⟨0x33000000#32, []⟩ = .ok (.engGetp .sr) ∧
    decode ⟨0x33010000#32, []⟩ = .ok (.engGetp .mf) ∧
    decode ⟨0x33020000#32, []⟩ = .ok (.engGetp .depth) ∧
    decode ⟨0x33030000#32, []⟩ = .ok (.engGetp .base) ∧
    decode ⟨0x34000000#32, [0x00000000#32]⟩ = .ok (.engProc []) ∧
    decode ⟨0x34000000#32, [0x00000002#32, a, b]⟩ = .ok (.engProc [a, b]) ∧
    decode ⟨0x35000000#32, []⟩ = .ok .engFree ∧
    decode ⟨0x36000000#32, []⟩ = .ok .engGett) ∧
  decode ⟨0x10000000#32, [0x00000008#32]⟩ = .ok (.dlNew 8#32) ∧
  decode ⟨0x12000000#32, [0x3F800000#32]⟩ = .ok (.dlPush 0x3F800000#32) ∧
  decode ⟨0x17000000#32, [0x3F000000#32]⟩ = .ok (.dlGetf 0x3F000000#32) ∧
  decode ⟨0x17000000#32, [0x40066666#32]⟩ = .ok (.dlGetf 0x40066666#32) ∧
  decode ⟨0x19000000#32, [0x0000000A#32]⟩ = .ok (.dlSetwi 10#32) ∧
  decode ⟨0x20000000#32, [0x40800000#32, 0x3F800000#32, 0x00000000#32]⟩ =
    .ok (.lfoNew 0x40800000#32 0x3F800000#32 0x00000000#32) ∧
  decode ⟨0x22010000#32, [0x40000000#32]⟩ = .ok (.lfoSetp .freq 0x40000000#32) ∧
  decode ⟨0x30000000#32, [0x40800000#32, 0x3F800000#32, 0x00000000#32, 0x3F000000#32]⟩ =
    .ok (.engNew 0x40800000#32 0x3F800000#32 0x00000000#32 0x3F000000#32) ∧
  decode ⟨0x32020000#32, [0x3E800000#32]⟩ = .ok (.engSetp .depth 0x3E800000#32) ∧
  decode ⟨0x34000000#32, [0x00000002#32, 0x3F800000#32, 0x40000000#32]⟩ = .ok (.engProc [0x3F800000#32, 0x40000000#32])

/-! ### The machine: steps, checks, invariants -/

/-- 60_exceptions.md R213, 30_encoding.md R68: a frame that is not a command is answered by `ILLEGAL_CMD` alone and changes no
state, whatever the state (faulted, nothing constructed). The frame is consumed. -/
def Obligations.IllegalFrameAnswered : Prop :=
  ∀ (s : State) (f : Frame) (rest : List HostEvent), s.inbox = .command f :: rest → ¬ LegalFrame f →
    step s = .next { s with inbox := rest, rsp := [0x00000002#32] }

/-- 20_memory.md R48: a step on a pending frame that decodes to `i` is `exec i` on the state without that frame; the step adds
nothing else. -/
def Obligations.StepRunsDecodedCommand : Prop :=
  ∀ (s : State) (f : Frame) (rest : List HostEvent) (i : Instr), s.inbox = .command f :: rest → decode f = .ok i →
    step s = exec i { s with inbox := rest }

/-- 60_exceptions.md R229, 70_reset_and_hazards.md R240 to R242: with nothing pending the core holds its state; `rst` clears
the four flags, whatever the state was, and the response port is idle; during a command the same, and the response port may
hold any words (the model's free list, log 4). -/
def Obligations.StepWithoutCommand : Prop :=
  (∀ s : State, s.inbox = [] → step s = .next s) ∧
  (∀ (s : State) (rest : List HostEvent), s.inbox = .reset :: rest →
    step s = .next { s with regs := ⟨false, none, none, none⟩, rsp := [], inbox := rest }) ∧
  (∀ (s : State) (f : Frame) (rest : List HostEvent), s.inbox = .resetDuring f :: rest →
    ∃ words, step s =
      .next { s with regs := ⟨false, none, none, none⟩, rsp := words, inbox := rest, freeIdx := s.freeIdx + 1 })

/-- 70_reset_and_hazards.md R241, R243: after hardware reset the flags word is 0 and every command that needs a component is
refused with `NOT_CONSTRUCTED`. -/
def Obligations.NothingConstructedAfterReset : Prop :=
  State.reset.regs.flagsWord = 0x00000000#32 ∧
  ∀ (s : State) (i : Instr), s.regs = State.reset.regs → (needsComponent i).isSome = true →
    exec i s = .next { s with rsp := [0x00000003#32] }

/-- 10_state.md R12, R16, R18, R21, R23 hold after reset; so does `CAP_MAX`'s range (R9), by the model's choice of 65536
(log 6). -/
def Obligations.ResetMeetsInvariant : Prop := State.reset.Inv

/-- 10_state.md R12, R16, R18, R21, R23, "true in every reachable state": every step keeps them, from every state that has
them, and no step changes `CAP_MAX`. -/
def Obligations.StepKeepsInvariant : Prop :=
  ∀ s t : State, s.Inv → step s = .next t → t.Inv ∧ t.capMax = s.capMax

/-- 30_encoding.md R70, 20_memory.md R51, 70_reset_and_hazards.md R252: from a state that has the invariants no step stops, and
a command frame is answered by one response frame, its status word last, with one of the eight codes and `esel` 0 unless the
code is `INVALID_VALUE`. -/
def Obligations.StepNeverStops : Prop :=
  ∀ s : State, s.Inv → ∃ t, step s = .next t ∧
    ∀ (f : Frame) (rest : List HostEvent), s.inbox = .command f :: rest →
      t.inbox = rest ∧
      ∃ (results : List Word) (esel code : BitVec 8), t.rsp = results ++ [0#16 ++ esel ++ code] ∧ code.toNat ≤ 7 ∧
        (code ≠ 0x01#8 → esel = 0#8)

/-- 60_exceptions.md R214, R215, R218, R219 steps 2 to 5: the first common check that fails decides the status, and the
refused command changes nothing but the response. -/
def Obligations.CommonChecksRefuse : Prop :=
  ∀ (s : State) (i : Instr), i ≠ .sysStatus →
    (s.regs.fault = true → exec i s = .next { s with rsp := [0x00000007#32] }) ∧
    (s.regs.fault = false →
      (∀ c, needsComponent i = some c → c.valid s.regs = false → exec i s = .next { s with rsp := [0x00000003#32] }) ∧
      ((∀ c, needsComponent i = some c → c.valid s.regs = true) → mutatesLeaf i = true → s.regs.engValid = true →
        exec i s = .next { s with rsp := [0x00000004#32] }))

/-- 60_exceptions.md R218: while `FAULT = 1` every command but `SYS_STATUS` is refused with `FAULTED` and no effect,
`SYS_STATUS` is executed and shows bit 3 set, and only hardware reset ends this. -/
def Obligations.FaultedUntilReset : Prop :=
  ∀ s : State, s.regs.fault = true →
    (∀ i : Instr, i ≠ .sysStatus → exec i s = .next { s with rsp := [0x00000007#32] }) ∧
    (∃ flags : Word, exec .sysStatus s = .next { s with rsp := [flags, 0x00000000#32] } ∧ flags.getLsbD 3 = true) ∧
    (∀ t, step s = .next t → t.regs.fault = true ∨ (∃ rest, s.inbox = .reset :: rest) ∨
      ∃ f rest, s.inbox = .resetDuring f :: rest)

/-- 60_exceptions.md R212: a command whose status is neither `OK` nor `FAULT` changes nothing but the response; after an
accepted `SETP` the `GETP` of that selector returns the value, after a rejected one the old value; which of the two it is
depends on the selector and the value only. -/
def Obligations.RejectionIsAtomic : Prop :=
  (∀ (i : Instr) (s t : State), exec i s = .next t → lastWord t.rsp ≠ 0x00000000#32 → lastWord t.rsp ≠ 0x00000006#32 →
    t = { s with rsp := t.rsp }) ∧
  (∀ (p : EngParam) (v : F32) (s : State) (d : DelayLine) (o : Oscillator) (e : Engine),
    s.regs.fault = false → s.regs.dl = some d → s.regs.lfo = some o → s.regs.eng = some e →
    ∃ t u, exec (.engSetp p v) s = .next t ∧ exec (.engGetp p) t = .next u ∧
      u.rsp = [if positive v = true then v else e.get p, 0x00000000#32]) ∧
  (∀ (p : LfoParam) (v : F32) (s : State) (o : Oscillator),
    s.regs.fault = false → s.regs.lfo = some o → s.regs.eng = none →
    ∃ t u, exec (.lfoSetp p v) s = .next t ∧ exec (.lfoGetp p) t = .next u ∧
      u.rsp = [if p = .phase ∨ positive v = true then v else o.get p, 0x00000000#32])

/-- 44_system.md R200: `SYS_STATUS` answers the flags word, in every state, and changes nothing else; where R12 holds, its
low three bits are 000, 001, 010, 011 or 111. -/
def Obligations.SysStatusReadsFlags : Prop :=
  decode ⟨0x01000000#32, []⟩ = .ok .sysStatus ∧
  ∀ s : State, ∃ flags : Word, exec .sysStatus s = .next { s with rsp := [flags, 0x00000000#32] } ∧
    (∀ b, flags.getLsbD b =
      if b = 3 then s.regs.fault else if b = 2 then s.regs.eng.isSome else if b = 1 then s.regs.lfo.isSome
      else if b = 0 then s.regs.dl.isSome else false) ∧
    (s.Typed → flags.toNat % 8 = 0 ∨ flags.toNat % 8 = 1 ∨ flags.toNat % 8 = 2 ∨ flags.toNat % 8 = 3 ∨ flags.toNat % 8 = 7)

/-! ### Delay Line (41_delay_line.md) -/

/-- R120, R216: `DL_NEW` with a capacity from 1 to `CAP_MAX` constructs a zeroed Delay Line; with any other it is refused with
`BAD_SIZE`, an existing Delay Line kept. -/
def Obligations.DlNewConstructs : Prop :=
  ∀ (s : State) (capacity : Word), s.regs.fault = false → s.regs.eng = none →
    (1 ≤ capacity.toNat ∧ capacity.toNat ≤ s.capMax →
      ∃ d, exec (.dlNew capacity) s = .next { s.setDl d with rsp := [0x00000000#32] } ∧
        d.n = capacity.toNat ∧ d.w = 0 ∧ d.r = 0 ∧ ∀ a, d.buf.read a = 0x00000000#32) ∧
    (capacity.toNat = 0 ∨ s.capMax < capacity.toNat →
      exec (.dlNew capacity) s = .next { s with rsp := [0x00000005#32] })

/-- R121: `DL_RESET` zeroes every word and both cursors and keeps the capacity. -/
def Obligations.DlResetClears : Prop :=
  ∀ (s : State) (d : DelayLine), s.regs.fault = false → s.regs.dl = some d → s.regs.eng = none →
    ∃ d', exec .dlReset s = .next { s.setDl d' with rsp := [0x00000000#32] } ∧
      d'.n = d.n ∧ d'.w = 0 ∧ d'.r = 0 ∧ ∀ a, d'.buf.read a = 0x00000000#32

/-- R122: `DL_PUSH` stores the value, any bit pattern, at the write cursor and at no other index, and advances the write
cursor modulo the capacity. -/
def Obligations.DlPushStores : Prop :=
  ∀ (s : State) (d : DelayLine) (v : F32),
    s.regs.fault = false → s.regs.dl = some d → s.regs.eng = none → d.w < d.n → d.buf.wf →
    ∃ d', exec (.dlPush v) s = .next { s.setDl d' with rsp := [0x00000000#32] } ∧
      d'.n = d.n ∧ d'.w = (if d.w = d.n - 1 then 0 else d.w + 1) ∧ d'.r = d.r ∧
      d'.buf.read d.w = v ∧ ∀ a, a ≠ d.w → d'.buf.read a = d.buf.read a

/-- R123: `DL_POP` returns the word at the read cursor, advances the read cursor modulo the capacity and leaves the store. -/
def Obligations.DlPopReturns : Prop :=
  ∀ (s : State) (d : DelayLine), s.regs.fault = false → s.regs.dl = some d → s.regs.eng = none → d.r < d.n →
    exec .dlPop s =
      .next { s.setDl { d with r := if d.r = d.n - 1 then 0 else d.r + 1 } with
        rsp := [d.buf.read d.r, 0x00000000#32] }

/-- R124: `DL_PUT` stores the value at the write cursor and at no other index, and moves neither cursor. -/
def Obligations.DlPutStores : Prop :=
  ∀ (s : State) (d : DelayLine) (v : F32),
    s.regs.fault = false → s.regs.dl = some d → s.regs.eng = none → d.w < d.n → d.buf.wf →
    ∃ d', exec (.dlPut v) s = .next { s.setDl d' with rsp := [0x00000000#32] } ∧
      d'.n = d.n ∧ d'.w = d.w ∧ d'.r = d.r ∧ d'.buf.read d.w = v ∧ ∀ a, a ≠ d.w → d'.buf.read a = d.buf.read a

/-- R125, R126: `DL_PEEK` returns the word at the read cursor, `DL_GET k` the word at `(DL.r + k) mod DL.N`; neither changes
anything, and both run while an engine owns the Delay Line. -/
def Obligations.DlPeekAndGetRead : Prop :=
  ∀ (s : State) (d : DelayLine) (k : Word), s.regs.fault = false → s.regs.dl = some d → d.r < d.n →
    exec .dlPeek s = .next { s with rsp := [d.buf.read d.r, 0x00000000#32] } ∧
    exec (.dlGet k) s = .next { s with rsp := [d.buf.read ((d.r + k.toNat) % d.n), 0x00000000#32] }

/-- R127, R108: `DL_GETF` of a finite offset that is not negative interpolates the words at its floor and its ceiling, both
wrapped; at an integer offset it answers the left word's bits; it changes nothing. -/
def Obligations.DlGetfInterpolates : Prop :=
  ∀ (s : State) (d : DelayLine) (o : F32), s.regs.fault = false → s.regs.dl = some d → 1 ≤ d.n →
    isFinite o = true → 0 ≤ realOf o →
    ∃ y, exec (.dlGetf o) s = .next { s with rsp := [y, 0x00000000#32] } ∧
      (let l := d.buf.read ((d.r + ⌊realOf o⌋.toNat) % d.n)
       let r := d.buf.read ((d.r + ⌈realOf o⌉.toNat) % d.n)
       y = if (⌊realOf o⌋ : Rat) = realOf o then l
           else fadd (fmul l (fsub 0x3F800000#32 (frac o))) (fmul r (frac o)))

/-- R127, R217: `DL_GETF` of a NaN, infinite or negative offset ends with status `FAULT` and no result; `FAULT` is set and the
VALID flags keep their values. -/
def Obligations.DlGetfFaults : Prop :=
  ∀ (s : State) (d : DelayLine) (o : F32), s.regs.fault = false → s.regs.dl = some d →
    (isFinite o = false ∨ realOf o < 0) →
    ∃ t, exec (.dlGetf o) s = .next t ∧ t.rsp = [0x00000006#32] ∧ t.regs.fault = true ∧
      t.regs.dl.isSome = s.regs.dl.isSome ∧ t.regs.lfo.isSome = s.regs.lfo.isSome ∧
      t.regs.eng.isSome = s.regs.eng.isSome ∧ t.inbox = s.inbox ∧ t.capMax = s.capMax

/-- R128, R130, R132, R133, 30_encoding.md R72, 40_numerics.md R110: the four queries answer the write cursor, the read cursor,
`(DL.w − DL.r) mod DL.N` and the capacity, each exactly, and change nothing; they run while an engine owns the Delay Line. -/
def Obligations.DlQueriesRead : Prop :=
  ∀ (s : State) (d : DelayLine), s.regs.fault = false → s.regs.dl = some d → d.w < d.n → d.r < d.n → d.n ≤ 2 ^ 24 →
    ∃ w r len cap : Word,
      exec .dlGetwi s = .next { s with rsp := [w, 0x00000000#32] } ∧ w.toNat = d.w ∧
      exec .dlGetri s = .next { s with rsp := [r, 0x00000000#32] } ∧ r.toNat = d.r ∧
      exec .dlLen s = .next { s with rsp := [len, 0x00000000#32] } ∧
        (len.toNat : Int) = ((d.w : Int) - d.r) % d.n ∧
      exec .dlCap s = .next { s with rsp := [cap, 0x00000000#32] } ∧ cap.toNat = d.n

/-- R129, R131: the setters write `i mod DL.N` to their cursor and change nothing else; any 32-bit `i` is accepted. -/
def Obligations.DlSettersWrap : Prop :=
  ∀ (s : State) (d : DelayLine) (i : Word), s.regs.fault = false → s.regs.dl = some d → s.regs.eng = none → 1 ≤ d.n →
    exec (.dlSetwi i) s = .next { s.setDl { d with w := i.toNat % d.n } with rsp := [0x00000000#32] } ∧
    exec (.dlSetri i) s = .next { s.setDl { d with r := i.toNat % d.n } with rsp := [0x00000000#32] } ∧
    i.toNat % d.n < d.n

/-- R127, 40_numerics.md R98: at an index that binary32 holds exactly, `DL_GETF` does what `DL_GET` does, in every state. -/
def Obligations.DlGetfOfIndexIsGet : Prop :=
  ∀ (s : State) (k : Word), k.toNat ≤ 2 ^ 24 → exec (.dlGetf (u2f k.toNat)) s = exec (.dlGet k) s

/-- R124: "`DL_PUT v` followed by `DL_SETWI (DL.w + 1)` has the effect of `DL_PUSH v`." -/
def Obligations.DlPutThenSetwiIsPush : Prop :=
  ∀ (s : State) (d : DelayLine) (v : F32) (i : Word),
    s.regs.fault = false → s.regs.dl = some d → s.regs.eng = none → d.w < d.n → i.toNat = d.w + 1 →
    ∃ t, exec (.dlPut v) s = .next t ∧ exec (.dlSetwi i) t = exec (.dlPush v) s

/-- R136: from equal cursors, under the queue discipline, the `j`-th `DL_POP` returns the `j`-th value pushed, however often
the cursors wrap. -/
def Obligations.DlRingProperty : Prop :=
  ∀ (s : State) (d : DelayLine) (ops : List QueueOp),
    s.regs.fault = false → s.regs.dl = some d → s.regs.eng = none → d.w = d.r → d.w < d.n → d.buf.wf →
    disciplined d.n 0 ops →
    ∃ rs t, runCommands (ops.map QueueOp.instr) s = some (rs, t) ∧
      popResponses ops rs = ((pushedValues ops).take (ops.count .pop)).map (fun v => [v, 0x00000000#32]) ∧
      (popResponses ops rs).length = ops.count .pop

/-! ### Numbers (40_numerics.md) -/

/-- R91, R92: `fadd`, `fsub`, `fmul` and `fdiv` of finite data are the exact real result rounded once with roundTiesToEven,
subnormal operands and results included; overflow gives the infinity of the right sign. -/
def Obligations.ArithmeticRoundsOnce : Prop :=
  ∀ a b : F32, isFinite a = true → isFinite b = true →
    IsNearest (realOf a + realOf b) (fadd a b) ∧ IsNearest (realOf a - realOf b) (fsub a b) ∧
    IsNearest (realOf a * realOf b) (fmul a b) ∧ (realOf b ≠ 0 → IsNearest (realOf a / realOf b) (fdiv a b))

/-- R91, R93, R94, R95: signed zeros, and what infinities (alone, together, with a finite operand), divisions by zero and NaN
give; the sign of every infinity and zero that a product or quotient is, is in the clauses on the sign bit. -/
def Obligations.SpecialOperands : Prop :=
  fadd 0x00000000#32 0x80000000#32 = 0x00000000#32 ∧ fadd 0x80000000#32 0x80000000#32 = 0x80000000#32 ∧
  feq 0x00000000#32 0x80000000#32 = true ∧
  (∀ x, isFinite x = true → fadd x (fneg x) = 0x00000000#32) ∧
  (∀ a b, isNaN (fmul a b) = false → signBit (fmul a b) = (signBit a != signBit b)) ∧
  (∀ a b, isNaN (fdiv a b) = false → signBit (fdiv a b) = (signBit a != signBit b)) ∧
  (∀ x z, isFinite x = true → isZero x = false → isZero z = true → isInf (fdiv x z) = true) ∧
  (∀ z w, isZero z = true → isZero w = true → isNaN (fdiv z w) = true) ∧
  (∀ z i, isZero z = true → isInf i = true → isNaN (fmul z i) = true ∧ isNaN (fmul i z) = true) ∧
  (∀ i j, isInf i = true → isInf j = true → isNaN (fdiv i j) = true ∧ (signBit i ≠ signBit j → isNaN (fadd i j) = true)) ∧
  (∀ i x, isInf i = true → isFinite x = true →
    fadd i x = i ∧ fadd x i = i ∧ fsub i x = i ∧ fsub x i = fneg i ∧ isInf (fdiv i x) = true ∧ isZero (fdiv x i) = true) ∧
  (∀ i x, isInf i = true → isNaN x = false → isZero x = false → isInf (fmul i x) = true ∧ isInf (fmul x i) = true) ∧
  (∀ i j, isInf i = true → isInf j = true → signBit i = signBit j → fadd i j = i ∧ isNaN (fsub i j) = true) ∧
  (∀ i j, isInf i = true → isInf j = true → signBit i ≠ signBit j → fsub i j = i) ∧
  (∀ a b, isNaN a = true ∨ isNaN b = true →
    isNaN (fadd a b) = true ∧ isNaN (fsub a b) = true ∧ isNaN (fmul a b) = true ∧ isNaN (fdiv a b) = true)

/-- R96: the comparisons are those of the real values, false for a NaN, with the infinities at the ends; `> 0` and `≥ 0` are
the parameter checks. -/
def Obligations.ComparisonsAreNumeric : Prop :=
  (∀ a b, isFinite a = true → isFinite b = true →
    (flt a b = true ↔ realOf a < realOf b) ∧ (fge a b = true ↔ realOf b ≤ realOf a) ∧
    (feq a b = true ↔ realOf a = realOf b)) ∧
  (∀ a b, isNaN a = true ∨ isNaN b = true → flt a b = false ∧ fge a b = false ∧ feq a b = false) ∧
  (∀ a, isFinite a = true → flt a 0x7F800000#32 = true ∧ flt 0xFF800000#32 a = true) ∧
  (∀ v, positive v = true ↔ v = 0x7F800000#32 ∨ (isFinite v = true ∧ 0 < realOf v)) ∧
  (∀ v, nonNegative v = true ↔ v = 0x7F800000#32 ∨ (isFinite v = true ∧ 0 ≤ realOf v)) ∧
  (∀ a, isFinite a = true ↔ isNaN a = false ∧ isInf a = false)

/-- R97, R98, R99: `floor` and `ceil` are exact; `u2f` and `i2f` round to nearest and are exact up to `2^24` and on floors;
`frac` is exact and lies in `[0, 1)`. -/
def Obligations.FloorCeilFracExact : Prop :=
  (∀ a, isFinite a = true →
    floorInt a = ⌊realOf a⌋ ∧ ceilInt a = ⌈realOf a⌉ ∧
    ceilInt a - floorInt a = (if realOf a = (⌊realOf a⌋ : Rat) then 0 else 1) ∧
    (2 ^ 23 ≤ |realOf a| → realOf a = (⌊realOf a⌋ : Rat)) ∧
    isFinite (i2f (floorInt a)) = true ∧ realOf (i2f (floorInt a)) = (⌊realOf a⌋ : Rat)) ∧
  realOf 0x80000000#32 = 0 ∧
  (∀ k : Nat, IsNearest (k : Rat) (u2f k) ∧ (k ≤ 2 ^ 24 → isFinite (u2f k) = true ∧ realOf (u2f k) = (k : Rat))) ∧
  (∀ k : Int, IsNearest (k : Rat) (i2f k) ∧ (k.natAbs ≤ 2 ^ 24 → isFinite (i2f k) = true ∧ realOf (i2f k) = (k : Rat))) ∧
  (∀ a, isFinite a = true → 0 ≤ realOf a →
    isFinite (frac a) = true ∧ realOf (frac a) = realOf a - (⌊realOf a⌋ : Rat) ∧
    (frac a = 0x00000000#32 ↔ realOf a = (⌊realOf a⌋ : Rat) ∧ a ≠ 0x80000000#32)) ∧
  frac 0x80000000#32 = 0x80000000#32

/-- R100: `fround` rounds to the nearest integer, halves away from zero, exactly; `f2n` is the number that an integral datum is.
The sign is kept where the result is a zero too, as 95_test_vectors.md V50 gives it for `-0.25`; the formula of R100, read alone,
gives `+0.0` there, and following V50 is the model's choice (log 15). -/
def Obligations.FroundHalvesAway : Prop :=
  (∀ a, isFinite a = true →
    isFinite (fround a) = true ∧ signBit (fround a) = signBit a ∧
    |realOf (fround a)| = (⌊|realOf a| + 1 / 2⌋ : Rat)) ∧
  (∀ a, isInf a = true → fround a = a) ∧ (∀ a, isNaN a = true → isNaN (fround a) = true) ∧
  fround 0x00000000#32 = 0x00000000#32 ∧ fround 0x80000000#32 = 0x80000000#32 ∧
  fround 0x3F000000#32 = 0x3F800000#32 ∧ fround 0x3FC00000#32 = 0x40000000#32 ∧ fround 0x40200000#32 = 0x40400000#32 ∧
  fround 0x3EFFFFFF#32 = 0x00000000#32 ∧ fround 0xBF000000#32 = 0xBF800000#32 ∧
  (∀ a, isFinite a = true → 0 ≤ realOf a → realOf a = (⌊realOf a⌋ : Rat) → (f2n a : Rat) = realOf a)

/-- R105: `fmodx(a, m)` is the exact remainder with the sign of the dividend. -/
def Obligations.FmodxExact : Prop :=
  (∀ a m, isFinite a = true → isFinite m = true → 0 < realOf m →
    isFinite (fmodx a m) = true ∧ (∃ q : Int, realOf (fmodx a m) = realOf a - (q : Rat) * realOf m) ∧
    |realOf (fmodx a m)| < realOf m ∧ signBit (fmodx a m) = signBit a ∧
    (realOf m ≤ realOf a → realOf a < 2 * realOf m → fmodx a m = fsub a m) ∧
    (0 ≤ realOf a → realOf a < realOf m → fmodx a m = a) ∧
    fmodx 0x00000000#32 m = 0x00000000#32 ∧ fmodx 0x80000000#32 m = 0x80000000#32) ∧
  (∀ a m, isFinite m = true → 0 < realOf m → isFinite a = false → isNaN (fmodx a m) = true)

/-- R106: `SIN` has S2, S3, S4, S5 and S6; S6 is read on bit patterns, the model's reading (log 8). S1, a function of the bit
pattern alone, is its type. -/
def Obligations.SineProperties : Prop :=
  (∀ a, isFinite a = true → isFinite (SIN a) = true ∧ -1 ≤ realOf (SIN a) ∧ realOf (SIN a) ≤ 1) ∧
  SIN 0x00000000#32 = 0x00000000#32 ∧ SIN 0x80000000#32 = 0x80000000#32 ∧
  (∀ a, isNaN (SIN a) = true ↔ isFinite a = false) ∧
  (∀ a, isFinite a = true → |realOf a| < 8 →
    |((realOf (SIN a) : Rat) : ℝ) - Real.sin ((realOf a : Rat) : ℝ)| ≤ 1 / 2 ^ 22) ∧
  (∀ a, isFinite a = true → SIN (fneg a) = fneg (SIN a))

/-- R106: the model shuts out no sine that the spec admits: for every waveform there are values of the open parameters with
which the model's sine is that waveform at every datum where it has S2 to S6 (log 8). -/
def Obligations.SineAdmitsEveryConforming : Prop :=
  ∀ f : F32 → F32, ∃ (table : (a : F32) → Option { v : F32 // SineAt a v }) (nan : F32 → F32),
    ∀ a, ConformsAt f a → sineOf table nan a = f a

/-! ### Oscillator (42_oscillator.md) -/

/-- R150: `LFO_NEW` stores the triple as current and original values, or rejects the first operand that is not above 0. -/
def Obligations.LfoNewConstructs : Prop :=
  ∀ (s : State) (sr freq phase : F32), s.regs.fault = false → s.regs.eng = none →
    exec (.lfoNew sr freq phase) s =
      if positive sr = false then .next { s with rsp := [sr, 0x00000001#32] }
      else if positive freq = false then .next { s with rsp := [freq, 0x00000101#32] }
      else .next { s.setLfo { sr := sr, freq := freq, phase := phase, sr0 := sr, freq0 := freq, phase0 := phase } with
        rsp := [0x00000000#32] }

/-- R151: `LFO_RESET` restores the three originals and keeps them. -/
def Obligations.LfoResetRestores : Prop :=
  ∀ (s : State) (o : Oscillator), s.regs.fault = false → s.regs.lfo = some o → s.regs.eng = none →
    exec .lfoReset s =
      .next { s.setLfo { sr := o.sr0, freq := o.freq0, phase := o.phase0, sr0 := o.sr0, freq0 := o.freq0,
                         phase0 := o.phase0 } with rsp := [0x00000000#32] }

/-- R152: `LFO_SETP` writes the one selected register, or rejects a sample rate or frequency that is not above 0; a phase is
stored as given. -/
def Obligations.LfoSetpWrites : Prop :=
  ∀ (s : State) (o : Oscillator) (v : F32), s.regs.fault = false → s.regs.lfo = some o → s.regs.eng = none →
    (positive v = true →
      exec (.lfoSetp .sr v) s = .next { s.setLfo { o with sr := v } with rsp := [0x00000000#32] } ∧
      exec (.lfoSetp .freq v) s = .next { s.setLfo { o with freq := v } with rsp := [0x00000000#32] }) ∧
    (positive v = false →
      exec (.lfoSetp .sr v) s = .next { s with rsp := [v, 0x00000001#32] } ∧
      exec (.lfoSetp .freq v) s = .next { s with rsp := [v, 0x00000101#32] }) ∧
    exec (.lfoSetp .phase v) s = .next { s.setLfo { o with phase := v } with rsp := [0x00000000#32] }

/-- R153: `LFO_GETP` answers the selected register's bits and changes nothing; it runs while an engine owns the oscillator. -/
def Obligations.LfoGetpReads : Prop :=
  ∀ (s : State) (o : Oscillator), s.regs.fault = false → s.regs.lfo = some o →
    exec (.lfoGetp .sr) s = .next { s with rsp := [o.sr, 0x00000000#32] } ∧
    exec (.lfoGetp .freq) s = .next { s with rsp := [o.freq, 0x00000000#32] } ∧
    exec (.lfoGetp .phase) s = .next { s with rsp := [o.phase, 0x00000000#32] }

/-- R154, R155, R157: `LFO_ADV` answers the sine of the phase before the advance and moves the phase by
`TWO_PI · freq / sr`, wrapped; nothing else changes. -/
def Obligations.LfoAdvAdvances : Prop :=
  ∀ (s : State) (o : Oscillator), s.regs.fault = false → s.regs.lfo = some o → s.regs.eng = none →
    exec .lfoAdv s =
      .next { s.setLfo { o with phase := fmodx (fadd o.phase (fdiv (fmul 0x40C90FDB#32 o.freq) o.sr)) 0x40C90FDB#32 } with
        rsp := [SIN o.phase, 0x00000000#32] }

/-- R156, R159: after an advance the phase is below `TWO_PI` in magnitude where the sum is finite, and NaN where it is not; in
the ordinary case the wrap is one conditional exact subtraction; a phase that is not negative stays so. -/
def Obligations.PhaseIsBounded : Prop :=
  ∀ o : Oscillator,
    let sum := fadd o.phase o.increment
    (isFinite sum = true → isFinite o.advance.phase = true ∧ |realOf o.advance.phase| < realOf 0x40C90FDB#32) ∧
    (isFinite sum = false → isNaN o.advance.phase = true) ∧
    (fge o.phase 0x00000000#32 = true → flt o.phase 0x40C90FDB#32 = true → fge o.increment 0x00000000#32 = true →
      flt o.increment 0x40C90FDB#32 = true →
      o.advance.phase = if fge sum 0x40C90FDB#32 = true then fsub sum 0x40C90FDB#32 else sum) ∧
    (fge o.phase 0x00000000#32 = true → fge o.increment 0x00000000#32 = true → isFinite sum = true →
      fge o.advance.phase 0x00000000#32 = true ∧ flt o.advance.phase 0x40C90FDB#32 = true)

/-- R158: a command other than `LFO_NEW`, `LFO_RESET`, `LFO_SETP phase`, `ENG_NEW`, `ENG_RESET`, those that advance the phase
and `ENG_FREE`, leaves the phase exactly as it is (unless it faults); an advance, `LFO_ADV` or a block of one sample, moves it
by one increment of the parameters as they then stand. -/
def Obligations.PhaseIsContinuous : Prop :=
  (∀ (i : Instr) (s t : State), exec i s = .next t → lastWord t.rsp ≠ 0x00000006#32 →
    (∀ sr freq phase, i ≠ .lfoNew sr freq phase) → i ≠ .lfoReset → (∀ v, i ≠ .lfoSetp .phase v) →
    (∀ sr mf depth base, i ≠ .engNew sr mf depth base) → i ≠ .engReset → i ≠ .lfoAdv → (∀ xs, i ≠ .engProc xs) →
    i ≠ .engFree →
    t.regs.lfo.map Oscillator.phase = s.regs.lfo.map Oscillator.phase) ∧
  (∀ (i : Instr) (s t : State) (o : Oscillator), i = .lfoAdv ∨ (∃ x, i = .engProc [x]) → exec i s = .next t →
    lastWord t.rsp = 0x00000000#32 → s.regs.lfo = some o →
    t.regs.lfo.map Oscillator.phase = some (fmodx (fadd o.phase o.increment) 0x40C90FDB#32))

/-! ### Modulation Engine (43_engine.md) -/

/-- R171: what the sizing computes, in real numbers: `D` is the integral base delay, at least 1, the excursion is below `D`
rounded up, and `N` is the largest offset rounded up, plus 2, within `CAP_MAX`. -/
def Obligations.SizingComputes : Prop :=
  ∀ (capMax : Nat) (sr depth base : F32) (d n : Nat), nonNegative depth = true →
    let dn := fround (fmul base sr)
    let ds := fmul depth dn
    let m := fadd dn ds
    (engineSize capMax sr depth base = some (d, n) ↔
      isFinite dn = true ∧ 1 ≤ realOf dn ∧ (d : Rat) = realOf dn ∧ isFinite m = true ∧
      ⌈realOf ds⌉ ≤ (d : Int) - 1 ∧ (n : Int) = ⌈realOf m⌉ + 2 ∧ n ≤ capMax)

/-- R170, R172, R211, R216: `ENG_NEW` rejects the first operand out of its domain, then refuses what cannot be sized, and
otherwise constructs the engine, its zeroed Delay Line with `DL.r = 0` and `DL.w = (2 · D) mod N`, and its oscillator with
phase `+0.0`, whatever was there before. -/
def Obligations.EngNewConstructs : Prop :=
  ∀ (s : State) (sr mf depth base : F32), s.regs.fault = false →
    exec (.engNew sr mf depth base) s =
      if positive sr = false then .next { s with rsp := [sr, 0x00000001#32] }
      else if positive mf = false then .next { s with rsp := [mf, 0x00000101#32] }
      else if nonNegative depth = false then .next { s with rsp := [depth, 0x00000201#32] }
      else if positive base = false then .next { s with rsp := [base, 0x00000301#32] }
      else match engineSize s.capMax sr depth base with
        | none => .next { s with rsp := [0x00000005#32] }
        | some (d, n) =>
          .next { s.setAll { n := n, w := (2 * d) % n, r := 0, buf := ⟨[]⟩ }
            { sr := sr, freq := mf, phase := 0x00000000#32, sr0 := sr, freq0 := mf, phase0 := 0x00000000#32 }
            { sr := sr, mf := mf, depth := depth, base := base, time := 0x00000000#32, sr0 := sr, mf0 := mf,
              depth0 := depth, base0 := base } with rsp := [0x00000000#32] }

/-- R173: `ENG_RESET` restores the originals, the time, the store and the cursors; where the invariants hold, the state after
it is the state right after the `ENG_NEW` with the original operands. -/
def Obligations.EngResetRestores : Prop :=
  ∀ (s : State) (d : DelayLine) (o : Oscillator) (e : Engine) (d0 n0 : Nat),
    s.regs.fault = false → s.regs.dl = some d → s.regs.lfo = some o → s.regs.eng = some e →
    engineSize s.capMax e.sr0 e.depth0 e.base0 = some (d0, n0) →
    exec .engReset s =
      .next { s.setAll { n := d.n, w := (2 * d0) % d.n, r := 0, buf := ⟨[]⟩ }
        { o with sr := o.sr0, freq := o.freq0, phase := o.phase0 }
        { e with sr := e.sr0, mf := e.mf0, depth := e.depth0, base := e.base0, time := 0x00000000#32 } with
        rsp := [0x00000000#32] } ∧
    (s.Inv → exec .engReset s = exec (.engNew e.sr0 e.mf0 e.depth0 e.base0) s)

/-- R174: `ENG_SETP` with a value above 0 writes the one parameter, copies sample rate and modulation frequency into the
oscillator, and changes nothing else; any other value is rejected with its selector. -/
def Obligations.EngSetpWrites : Prop :=
  ∀ (s : State) (d : DelayLine) (o : Oscillator) (e : Engine) (v : F32),
    s.regs.fault = false → s.regs.dl = some d → s.regs.lfo = some o → s.regs.eng = some e →
    (positive v = true →
      exec (.engSetp .sr v) s = .next { s.setAll d { o with sr := v } { e with sr := v } with rsp := [0x00000000#32] } ∧
      exec (.engSetp .mf v) s = .next { s.setAll d { o with freq := v } { e with mf := v } with rsp := [0x00000000#32] } ∧
      exec (.engSetp .depth v) s = .next { s.setAll d o { e with depth := v } with rsp := [0x00000000#32] } ∧
      exec (.engSetp .base v) s = .next { s.setAll d o { e with base := v } with rsp := [0x00000000#32] }) ∧
    (positive v = false →
      exec (.engSetp .sr v) s = .next { s with rsp := [v, 0x00000001#32] } ∧
      exec (.engSetp .mf v) s = .next { s with rsp := [v, 0x00000101#32] } ∧
      exec (.engSetp .depth v) s = .next { s with rsp := [v, 0x00000201#32] } ∧
      exec (.engSetp .base v) s = .next { s with rsp := [v, 0x00000301#32] })

/-- R175, R186: `ENG_GETP` and `ENG_GETT` answer the register's bits and change nothing. -/
def Obligations.EngGetpGettRead : Prop :=
  ∀ (s : State) (e : Engine), s.regs.fault = false → s.regs.eng = some e →
    exec (.engGetp .sr) s = .next { s with rsp := [e.sr, 0x00000000#32] } ∧
    exec (.engGetp .mf) s = .next { s with rsp := [e.mf, 0x00000000#32] } ∧
    exec (.engGetp .depth) s = .next { s with rsp := [e.depth, 0x00000000#32] } ∧
    exec (.engGetp .base) s = .next { s with rsp := [e.base, 0x00000000#32] } ∧
    exec .engGett s = .next { s with rsp := [e.time, 0x00000000#32] }

/-- R176, R177, R178: `ENG_PROC` of one sample whose offset is in range answers the interpolated read at that offset, taken
before the write; stores the sample at the write cursor and nowhere else; advances both cursors, the phase and the time; and
changes nothing else. -/
def Obligations.EngProcOneSample : Prop :=
  ∀ (s : State) (d : DelayLine) (o : Oscillator) (e : Engine) (x : F32),
    s.regs.fault = false → s.regs.dl = some d → s.regs.lfo = some o → s.regs.eng = some e → d.w < d.n →
    d.buf.wf →
    let dn := fround (fmul e.base e.sr)
    let off := fadd dn (fmul (fmul e.depth dn) (SIN o.phase))
    isNaN off = false → flt off 0x00000000#32 = false → fge off (u2f (d.n - 1)) = false →
    ∃ (y : F32) (d' : DelayLine),
      exec (.engProc [x]) s =
        .next { s.setAll d'
          { o with phase := fmodx (fadd o.phase (fdiv (fmul 0x40C90FDB#32 o.freq) o.sr)) 0x40C90FDB#32 }
          { e with time := fadd e.time (fdiv 0x3F800000#32 e.sr) } with rsp := [y, 0x00000000#32] } ∧
      y = interp (d.buf.read ((d.r + ⌊realOf off⌋.toNat) % d.n)) (d.buf.read ((d.r + ⌈realOf off⌉.toNat) % d.n)) (frac off) ∧
      d'.n = d.n ∧ d'.w = (d.w + 1) % d.n ∧ d'.r = (d.r + 1) % d.n ∧
      d'.buf.read d.w = x ∧ ∀ a, a ≠ d.w → d'.buf.read a = d.buf.read a

/-- R176, R179, R217: an empty block answers `OK` and changes nothing; a block whose first sample's offset is NaN, negative or
not below `u2f(DL.N − 1)` answers `FAULT` with no output, sets `FAULT` and keeps the VALID flags. -/
def Obligations.EngProcEmptyOrFaults : Prop :=
  ∀ (s : State) (d : DelayLine) (o : Oscillator) (e : Engine),
    s.regs.fault = false → s.regs.dl = some d → s.regs.lfo = some o → s.regs.eng = some e →
    exec (.engProc []) s = .next { s with rsp := [0x00000000#32] } ∧
    ∀ (x : F32) (xs : List F32),
      let dn := fround (fmul e.base e.sr)
      let off := fadd dn (fmul (fmul e.depth dn) (SIN o.phase))
      (isNaN off = true ∨ flt off 0x00000000#32 = true ∨ fge off (u2f (d.n - 1)) = true) →
      ∃ t, exec (.engProc (x :: xs)) s = .next t ∧ t.rsp = [0x00000006#32] ∧ t.regs.fault = true ∧
        t.regs.dl.isSome = true ∧ t.regs.lfo.isSome = true ∧ t.regs.eng.isSome = true ∧ t.inbox = s.inbox ∧
        t.capMax = s.capMax

/-- R185: `ENG_FREE` destroys the three components and nothing else. -/
def Obligations.EngFreeDestroys : Prop :=
  ∀ (s : State) (e : Engine), s.regs.fault = false → s.regs.eng = some e →
    exec .engFree s = .next { s with regs := ⟨false, none, none, none⟩, rsp := [0x00000000#32] }

/-- R182: a block and the two parts it is split into give the same final state and the same outputs, concatenated; if the
first part faults (or is refused), the whole block ends exactly as it does. That the registers are equal after a fault too rests
on the model's free values, which depend on the fault's number alone (log 5). -/
def Obligations.BlockSizeInvariance : Prop :=
  ∀ (s t : State) (xs ys : List F32), exec (.engProc xs) s = .next t →
    (lastWord t.rsp = 0x00000000#32 → ∀ u, exec (.engProc ys) t = .next u →
      exec (.engProc (xs ++ ys)) s = .next { u with rsp := t.rsp.dropLast ++ u.rsp }) ∧
    (lastWord t.rsp ≠ 0x00000000#32 → exec (.engProc (xs ++ ys)) s = .next t)

/-- R181: an engine built with depth `±0.0`, its increment finite, delays its input by exactly `D` samples, bit for bit,
after `D` samples of `+0.0`. -/
def Obligations.ZeroDepthIdentity : Prop :=
  ∀ (s t : State) (sr mf depth base : F32) (d n : Nat) (xs : List F32),
    s.regs.fault = false → s.capMax ≤ 2 ^ 24 → positive sr = true → positive mf = true → isZero depth = true →
    positive base = true → engineSize s.capMax sr depth base = some (d, n) →
    isFinite (fdiv (fmul 0x40C90FDB#32 mf) sr) = true → exec (.engNew sr mf depth base) s = .next t →
    ∃ u, exec (.engProc xs) t = .next u ∧
      u.rsp = List.replicate (min d xs.length) 0x00000000#32 ++ xs.take (xs.length - d) ++ [0x00000000#32]

/-- R183: from a store of zeros, zeros give zeros, for as long as no step faults; with `+0.0` everywhere, exactly `+0.0`. -/
def Obligations.SilencePreserved : Prop :=
  ∀ (s t : State) (d : DelayLine) (xs : List F32), s.regs.fault = false → s.regs.dl = some d → d.buf.wf →
    exec (.engProc xs) s = .next t →
    ((∀ a, isZero (d.buf.read a) = true) → (∀ x ∈ xs, isZero x = true) → ∀ y ∈ t.rsp.dropLast, isZero y = true) ∧
    ((∀ a, d.buf.read a = 0x00000000#32) → (∀ x ∈ xs, x = 0x00000000#32) → ∀ y ∈ t.rsp.dropLast, y = 0x00000000#32)

/-- R187: with the parameters of construction and any oscillator value in `[−1, 1]`, the offset lies in `[1, N − 2]`, both
taps on the near side of the seam, and no sample step faults. -/
def Obligations.SizingInvariant : Prop :=
  ∀ (capMax : Nat) (e : Engine) (d n : Nat) (osc : F32),
    capMax ≤ 2 ^ 24 → nonNegative e.depth = true → engineSize capMax e.sr e.depth e.base = some (d, n) →
    isFinite osc = true → -1 ≤ realOf osc → realOf osc ≤ 1 →
    let off := e.offset osc
    let ds := fmul e.depth (fround (fmul e.base e.sr))
    isFinite off = true ∧ 1 ≤ (d : Int) - ⌈realOf ds⌉ ∧ (d : Int) - ⌈realOf ds⌉ ≤ ⌊realOf off⌋ ∧
    ⌈realOf off⌉ ≤ (n : Int) - 2 ∧ ⌈realOf off⌉ ≤ 2 * (d : Int) - 1 ∧ 2 * (d : Int) - n ≤ ⌊realOf off⌋ ∧
    offsetOutOfRange off n = false

/-- R187, R176: an engine just built, its increment finite, answers any block with as many outputs and `OK`. -/
def Obligations.FreshEngineNeverFaults : Prop :=
  ∀ (s t : State) (sr mf depth base : F32) (xs : List F32),
    s.regs.fault = false → s.capMax ≤ 2 ^ 24 → exec (.engNew sr mf depth base) s = .next t →
    lastWord t.rsp = 0x00000000#32 → isFinite (fdiv (fmul 0x40C90FDB#32 mf) sr) = true →
    ∃ (u : State) (ys : List F32), exec (.engProc xs) t = .next u ∧ u.rsp = ys ++ [0x00000000#32] ∧ ys.length = xs.length

/-- 20_memory.md R47, R180: after any samples that an engine processed since it was built, the slot at `k` from the read
cursor holds the input of `delay(k)` samples ago, and `+0.0` where there was none; the cursors keep their separation. -/
def Obligations.StoreHoldsHistory : Prop :=
  ∀ (s t u : State) (sr mf depth base : F32) (d n : Nat) (xs : List F32),
    engineSize s.capMax sr depth base = some (d, n) → exec (.engNew sr mf depth base) s = .next t →
    lastWord t.rsp = 0x00000000#32 → exec (.engProc xs) t = .next u → lastWord u.rsp = 0x00000000#32 →
    ∃ dl, u.regs.dl = some dl ∧ dl.n = n ∧ dl.r = xs.length % n ∧ dl.w = (2 * d + xs.length) % n ∧
      ∀ k, k < n → dl.buf.read ((dl.r + k) % n) = inputAt xs (slotDelay d n k)

/-! ### What no command changes or reads -/

/-- 10_state.md R13, R20, R22: the capacity and the saved originals are written by constructors (and go with `ENG_FREE`) only;
no other command that does not fault changes them. -/
def Obligations.OriginalsAndCapacityKept : Prop :=
  ∀ (i : Instr) (s t : State), exec i s = .next t → lastWord t.rsp ≠ 0x00000006#32 → i ≠ .engFree →
    (∀ sr mf depth base, i ≠ .engNew sr mf depth base) →
    ((∀ c, i ≠ .dlNew c) → t.regs.dl.map DelayLine.n = s.regs.dl.map DelayLine.n) ∧
    ((∀ sr freq phase, i ≠ .lfoNew sr freq phase) →
      t.regs.lfo.map (fun o => (o.sr0, o.freq0, o.phase0)) = s.regs.lfo.map (fun o => (o.sr0, o.freq0, o.phase0))) ∧
    t.regs.eng.map (fun e => (e.sr0, e.mf0, e.depth0, e.base0)) = s.regs.eng.map (fun e => (e.sr0, e.mf0, e.depth0, e.base0))

/-- 10_state.md R22, 60_exceptions.md R226: no command but `ENG_GETT` reads the time: from states that differ in it alone
every other command gives the same response and states that differ in it alone. -/
def Obligations.TimeIsReadByGettOnly : Prop :=
  ∀ (i : Instr) (s s' t : State), i ≠ .engGett → s.forgetTime = s'.forgetTime → exec i s = .next t →
    ∃ t', exec i s' = .next t' ∧ t.forgetTime = t'.forgetTime

end
end

