-- ==== Sys2Proof/Laws/Decode.lean ====
section
/-! SUPPORT. The header's fields, the opcode map and the selector numbers: each direction of each table once. -/

namespace Sys2Proof

/-- The bits of a header (30_encoding.md R61). -/
theorem headerOf_bit (op : Opcode) (sel : BitVec 8) (i : Nat) :
    (headerOf op sel).getLsbD i =
      if i < 16 then false else if i < 24 then sel.getLsbD (i - 16) else op.byte.getLsbD (i - 24) := by
  have h1 := BitVec.getLsbD_append (x := op.byte ++ sel) (y := 0#16) (i := i)
  have h2 := BitVec.getLsbD_append (x := op.byte) (y := sel) (i := i - 16)
  rw [headerOf]
  refine h1.trans ?_
  rw [h2]
  by_cases hi : i < 16
  · simp [hi]
  · by_cases hj : i < 24
    · simp [hi, hj, show i - 16 < 8 by omega]
    · simp [hi, hj, show ¬ i - 16 < 8 by omega, Nat.sub_sub]

@[simp] theorem headerOp_headerOf (op : Opcode) (sel : BitVec 8) : headerOp (headerOf op sel) = op.byte := by
  apply BitVec.eq_of_getLsbD_eq
  intro i hi
  simp [headerOp, headerOf_bit, hi, show ¬ 24 + i < 16 by omega]

@[simp] theorem headerSel_headerOf (op : Opcode) (sel : BitVec 8) : headerSel (headerOf op sel) = sel := by
  apply BitVec.eq_of_getLsbD_eq
  intro i hi
  simp [headerSel, headerOf_bit, hi, show 16 + i < 24 by omega]

@[simp] theorem headerRsvd_headerOf (op : Opcode) (sel : BitVec 8) : headerRsvd (headerOf op sel) = 0#16 := by
  apply BitVec.eq_of_getLsbD_eq
  intro i hi
  simp [headerRsvd, headerOf_bit, hi]

/-- A header is its three fields (30_encoding.md R61). -/
theorem headerOf_fields (h : Word) (op : Opcode) (ho : headerOp h = op.byte) (hr : headerRsvd h = 0#16) :
    headerOf op (headerSel h) = h := by
  apply BitVec.eq_of_getLsbD_eq
  intro i hi
  rw [headerOf_bit]
  split_ifs with h1 h2
  · have := congrArg (fun b => b.getLsbD i) hr
    simpa [headerRsvd, h1] using this.symm
  · simp [headerSel, show i - 16 < 8 by omega, show 16 + (i - 16) = i by omega]
  · have := congrArg (fun b => b.getLsbD (i - 24)) ho
    simpa [headerOp, show i - 24 < 8 by omega, show 24 + (i - 24) = i by omega] using this.symm

/-- The opcode map has no two rows with one byte (30_encoding.md R65). -/
@[simp] theorem ofByte_byte (op : Opcode) : Opcode.ofByte op.byte = some op := by
  cases op <;> decide

/-- An assigned byte is its opcode's (30_encoding.md R65). -/
theorem byte_of_ofByte (b : BitVec 8) (op : Opcode) (h : Opcode.ofByte b = some op) : op.byte = b := by
  have := List.find?_some h
  simpa using this

@[simp] theorem lfo_ofSel_sel (p : LfoParam) : LfoParam.ofSel p.sel = some p := by cases p <;> decide

theorem lfo_sel_of_ofSel (b : BitVec 8) (p : LfoParam) (h : LfoParam.ofSel b = some p) : p.sel = b := by
  have := List.find?_some h
  simpa using this

@[simp] theorem eng_ofSel_sel (p : EngParam) : EngParam.ofSel p.sel = some p := by cases p <;> decide

theorem eng_sel_of_ofSel (b : BitVec 8) (p : EngParam) (h : EngParam.ofSel b = some p) : p.sel = b := by
  have := List.find?_some h
  simpa using this

@[simp] theorem encode_header (i : Instr) : (encode i).header = headerOf i.opcode i.selector := rfl
@[simp] theorem encode_operands (i : Instr) : (encode i).operands = i.operandWords := rfl

/-- What the decoder answers for a header with `rsvd = 0` (30_encoding.md R64): it reads the command that `op`, `sel` and the
operand words name, if the length and the selector are legal. -/
theorem decode_headerOf (op : Opcode) (sel : BitVec 8) (ws : List Word) (i : Instr)
    (hsel : op.format.hasSelector = false → sel = 0#8) (hlegal : selectorLegal op sel = true)
    (hlength : lengthLegal op.format ws = true) (hcommand : commandOf op sel ws = some i) :
    decode ⟨headerOf op sel, ws⟩ = .ok i := by
  simp only [decode, headerOp_headerOf, ofByte_byte, headerSel_headerOf, headerRsvd_headerOf, hlegal, hlength, hcommand]
  simpa using hsel

end Sys2Proof
end

