-- ==== Sys2Proof/Laws/State.lean ====
section
/-! SUPPORT. One lemma per field per update of State and of the components: every one true by `rfl`. -/

namespace Sys2Proof.Machine

/-! ### Updates of the state -/

@[simp] theorem setRegs_regs (s : State) (g : Regs) : (s.setRegs g).regs = g := rfl
@[simp] theorem setRegs_rsp (s : State) (g : Regs) : (s.setRegs g).rsp = s.rsp := rfl
@[simp] theorem setRegs_capMax (s : State) (g : Regs) : (s.setRegs g).capMax = s.capMax := rfl
@[simp] theorem setRegs_inbox (s : State) (g : Regs) : (s.setRegs g).inbox = s.inbox := rfl
@[simp] theorem setRegs_freeIdx (s : State) (g : Regs) : (s.setRegs g).freeIdx = s.freeIdx := rfl

@[simp] theorem setDl_fault (s : State) (d : DelayLine) : (s.setDl d).regs.fault = s.regs.fault := rfl
@[simp] theorem setDl_dl (s : State) (d : DelayLine) : (s.setDl d).regs.dl = some d := rfl
@[simp] theorem setDl_lfo (s : State) (d : DelayLine) : (s.setDl d).regs.lfo = s.regs.lfo := rfl
@[simp] theorem setDl_eng (s : State) (d : DelayLine) : (s.setDl d).regs.eng = s.regs.eng := rfl
@[simp] theorem setDl_rsp (s : State) (d : DelayLine) : (s.setDl d).rsp = s.rsp := rfl
@[simp] theorem setDl_capMax (s : State) (d : DelayLine) : (s.setDl d).capMax = s.capMax := rfl
@[simp] theorem setDl_inbox (s : State) (d : DelayLine) : (s.setDl d).inbox = s.inbox := rfl
@[simp] theorem setDl_freeIdx (s : State) (d : DelayLine) : (s.setDl d).freeIdx = s.freeIdx := rfl

@[simp] theorem setLfo_fault (s : State) (o : Oscillator) : (s.setLfo o).regs.fault = s.regs.fault := rfl
@[simp] theorem setLfo_dl (s : State) (o : Oscillator) : (s.setLfo o).regs.dl = s.regs.dl := rfl
@[simp] theorem setLfo_lfo (s : State) (o : Oscillator) : (s.setLfo o).regs.lfo = some o := rfl
@[simp] theorem setLfo_eng (s : State) (o : Oscillator) : (s.setLfo o).regs.eng = s.regs.eng := rfl
@[simp] theorem setLfo_rsp (s : State) (o : Oscillator) : (s.setLfo o).rsp = s.rsp := rfl
@[simp] theorem setLfo_capMax (s : State) (o : Oscillator) : (s.setLfo o).capMax = s.capMax := rfl
@[simp] theorem setLfo_inbox (s : State) (o : Oscillator) : (s.setLfo o).inbox = s.inbox := rfl
@[simp] theorem setLfo_freeIdx (s : State) (o : Oscillator) : (s.setLfo o).freeIdx = s.freeIdx := rfl

@[simp] theorem setEng_fault (s : State) (e : Engine) : (s.setEng e).regs.fault = s.regs.fault := rfl
@[simp] theorem setEng_dl (s : State) (e : Engine) : (s.setEng e).regs.dl = s.regs.dl := rfl
@[simp] theorem setEng_lfo (s : State) (e : Engine) : (s.setEng e).regs.lfo = s.regs.lfo := rfl
@[simp] theorem setEng_eng (s : State) (e : Engine) : (s.setEng e).regs.eng = some e := rfl
@[simp] theorem setEng_rsp (s : State) (e : Engine) : (s.setEng e).rsp = s.rsp := rfl
@[simp] theorem setEng_capMax (s : State) (e : Engine) : (s.setEng e).capMax = s.capMax := rfl
@[simp] theorem setEng_inbox (s : State) (e : Engine) : (s.setEng e).inbox = s.inbox := rfl
@[simp] theorem setEng_freeIdx (s : State) (e : Engine) : (s.setEng e).freeIdx = s.freeIdx := rfl

section
variable (s : State) (d : DelayLine) (o : Oscillator) (e : Engine)
@[simp] theorem setAll_fault : (s.setAll d o e).regs.fault = s.regs.fault := rfl
@[simp] theorem setAll_dl : (s.setAll d o e).regs.dl = some d := rfl
@[simp] theorem setAll_lfo : (s.setAll d o e).regs.lfo = some o := rfl
@[simp] theorem setAll_eng : (s.setAll d o e).regs.eng = some e := rfl
@[simp] theorem setAll_rsp : (s.setAll d o e).rsp = s.rsp := rfl
@[simp] theorem setAll_capMax : (s.setAll d o e).capMax = s.capMax := rfl
@[simp] theorem setAll_inbox : (s.setAll d o e).inbox = s.inbox := rfl
@[simp] theorem setAll_freeIdx : (s.setAll d o e).freeIdx = s.freeIdx := rfl
end

@[simp] theorem freed_fault (s : State) : s.freed.regs.fault = s.regs.fault := rfl
@[simp] theorem freed_dl (s : State) : s.freed.regs.dl = none := rfl
@[simp] theorem freed_lfo (s : State) : s.freed.regs.lfo = none := rfl
@[simp] theorem freed_eng (s : State) : s.freed.regs.eng = none := rfl
@[simp] theorem freed_rsp (s : State) : s.freed.rsp = s.rsp := rfl
@[simp] theorem freed_capMax (s : State) : s.freed.capMax = s.capMax := rfl
@[simp] theorem freed_inbox (s : State) : s.freed.inbox = s.inbox := rfl
@[simp] theorem freed_freeIdx (s : State) : s.freed.freeIdx = s.freeIdx := rfl

@[simp] theorem hardReset_regs (s : State) : s.hardReset.regs = Regs.reset := rfl
@[simp] theorem hardReset_rsp (s : State) : s.hardReset.rsp = [] := rfl
@[simp] theorem hardReset_capMax (s : State) : s.hardReset.capMax = s.capMax := rfl
@[simp] theorem hardReset_inbox (s : State) : s.hardReset.inbox = s.inbox := rfl
@[simp] theorem hardReset_freeIdx (s : State) : s.hardReset.freeIdx = s.freeIdx := rfl

@[simp] theorem hardResetDuring_regs (s : State) : s.hardResetDuring.regs = Regs.reset := rfl
@[simp] theorem hardResetDuring_rsp (s : State) : s.hardResetDuring.rsp = Config.partialResponse s.freeIdx := rfl
@[simp] theorem hardResetDuring_capMax (s : State) : s.hardResetDuring.capMax = s.capMax := rfl
@[simp] theorem hardResetDuring_inbox (s : State) : s.hardResetDuring.inbox = s.inbox := rfl
@[simp] theorem hardResetDuring_freeIdx (s : State) : s.hardResetDuring.freeIdx = s.freeIdx + 1 := rfl

@[simp] theorem withFrame_regs (s : State) (f : Frame) : (s.withFrame f).regs = s.regs := rfl
@[simp] theorem withFrame_rsp (s : State) (f : Frame) : (s.withFrame f).rsp = s.rsp := rfl
@[simp] theorem withFrame_capMax (s : State) (f : Frame) : (s.withFrame f).capMax = s.capMax := rfl
@[simp] theorem withFrame_inbox (s : State) (f : Frame) : (s.withFrame f).inbox = .command f :: s.inbox := rfl
@[simp] theorem withFrame_freeIdx (s : State) (f : Frame) : (s.withFrame f).freeIdx = s.freeIdx := rfl

/-! ### The reset state -/

@[simp] theorem reset_fault : Regs.reset.fault = false := rfl
@[simp] theorem reset_dl : Regs.reset.dl = none := rfl
@[simp] theorem reset_lfo : Regs.reset.lfo = none := rfl
@[simp] theorem reset_eng : Regs.reset.eng = none := rfl
@[simp] theorem state_reset_regs : State.reset.regs = Regs.reset := rfl
@[simp] theorem state_reset_rsp : State.reset.rsp = [] := rfl
@[simp] theorem state_reset_inbox : State.reset.inbox = [] := rfl

/-! ### A faulted register file (60_exceptions.md R217) -/

section
variable (g : Regs) (capMax k : Nat)
@[simp] theorem faulted_fault : (g.faulted capMax k).fault = true := rfl
@[simp] theorem faulted_dlValid : (g.faulted capMax k).dlValid = g.dlValid := by
  simp [Regs.faulted, Regs.dlValid]
@[simp] theorem faulted_lfoValid : (g.faulted capMax k).lfoValid = g.lfoValid := by
  simp [Regs.faulted, Regs.lfoValid]
@[simp] theorem faulted_engValid : (g.faulted capMax k).engValid = g.engValid := by
  simp [Regs.faulted, Regs.engValid]
theorem faulted_dl : (g.faulted capMax k).dl = g.dl.map (fun _ => faultedDelayLine capMax k) := rfl
theorem faulted_lfo : (g.faulted capMax k).lfo = g.lfo.map (fun _ => faultedOscillator k) := rfl
theorem faulted_eng : (g.faulted capMax k).eng = g.eng.map (fun _ => faultedEngine k) := rfl
end

/-! ### Updates of the Delay Line -/

@[simp] theorem advanceWrite_n (d : DelayLine) : d.advanceWrite.n = d.n := rfl
@[simp] theorem advanceWrite_w (d : DelayLine) : d.advanceWrite.w = (d.w + 1) % d.n := rfl
@[simp] theorem advanceWrite_r (d : DelayLine) : d.advanceWrite.r = d.r := rfl
@[simp] theorem advanceWrite_buf (d : DelayLine) : d.advanceWrite.buf = d.buf := rfl
@[simp] theorem advanceRead_n (d : DelayLine) : d.advanceRead.n = d.n := rfl
@[simp] theorem advanceRead_w (d : DelayLine) : d.advanceRead.w = d.w := rfl
@[simp] theorem advanceRead_r (d : DelayLine) : d.advanceRead.r = (d.r + 1) % d.n := rfl
@[simp] theorem advanceRead_buf (d : DelayLine) : d.advanceRead.buf = d.buf := rfl
@[simp] theorem cleared_n (d : DelayLine) (w r : Nat) : (d.cleared w r).n = d.n := rfl
@[simp] theorem cleared_w (d : DelayLine) (w r : Nat) : (d.cleared w r).w = w := rfl
@[simp] theorem cleared_r (d : DelayLine) (w r : Nat) : (d.cleared w r).r = r := rfl
@[simp] theorem cleared_buf (d : DelayLine) (w r : Nat) : (d.cleared w r).buf = Memory.zeroed := rfl
@[simp] theorem freshDelayLine_n (n : Nat) : (freshDelayLine n).n = n := rfl
@[simp] theorem freshDelayLine_w (n : Nat) : (freshDelayLine n).w = 0 := rfl
@[simp] theorem freshDelayLine_r (n : Nat) : (freshDelayLine n).r = 0 := rfl
@[simp] theorem freshDelayLine_buf (n : Nat) : (freshDelayLine n).buf = Memory.zeroed := rfl
@[simp] theorem ownedDelayLine_n (d n : Nat) : (ownedDelayLine d n).n = n := rfl
@[simp] theorem ownedDelayLine_w (d n : Nat) : (ownedDelayLine d n).w = (2 * d) % n := rfl
@[simp] theorem ownedDelayLine_r (d n : Nat) : (ownedDelayLine d n).r = 0 := rfl
@[simp] theorem ownedDelayLine_buf (d n : Nat) : (ownedDelayLine d n).buf = Memory.zeroed := rfl

/-! ### Updates of the Oscillator -/

@[simp] theorem advance_sr (o : Oscillator) : o.advance.sr = o.sr := rfl
@[simp] theorem advance_freq (o : Oscillator) : o.advance.freq = o.freq := rfl
@[simp] theorem advance_phase (o : Oscillator) :
    o.advance.phase = fmodx (fadd o.phase o.increment) Config.twoPi := rfl
@[simp] theorem advance_sr0 (o : Oscillator) : o.advance.sr0 = o.sr0 := rfl
@[simp] theorem advance_freq0 (o : Oscillator) : o.advance.freq0 = o.freq0 := rfl
@[simp] theorem advance_phase0 (o : Oscillator) : o.advance.phase0 = o.phase0 := rfl
@[simp] theorem restored_lfo_sr (o : Oscillator) : o.restored.sr = o.sr0 := rfl
@[simp] theorem restored_lfo_freq (o : Oscillator) : o.restored.freq = o.freq0 := rfl
@[simp] theorem restored_lfo_phase (o : Oscillator) : o.restored.phase = o.phase0 := rfl
@[simp] theorem restored_lfo_sr0 (o : Oscillator) : o.restored.sr0 = o.sr0 := rfl
@[simp] theorem restored_lfo_freq0 (o : Oscillator) : o.restored.freq0 = o.freq0 := rfl
@[simp] theorem restored_lfo_phase0 (o : Oscillator) : o.restored.phase0 = o.phase0 := rfl

/-- A selector's register reads what was written through the selector. -/
@[simp] theorem lfo_get_set (o : Oscillator) (p : LfoParam) (v : F32) : (o.set p v).get p = v := by cases p <;> rfl

/-- The other selectors' registers keep their values. -/
theorem lfo_get_set_other (o : Oscillator) (p q : LfoParam) (v : F32) (h : q ≠ p) : (o.set p v).get q = o.get q := by
  cases p <;> cases q <;> first | rfl | exact absurd rfl h

@[simp] theorem lfo_set_sr0 (o : Oscillator) (p : LfoParam) (v : F32) : (o.set p v).sr0 = o.sr0 := by cases p <;> rfl
@[simp] theorem lfo_set_freq0 (o : Oscillator) (p : LfoParam) (v : F32) : (o.set p v).freq0 = o.freq0 := by
  cases p <;> rfl
@[simp] theorem lfo_set_phase0 (o : Oscillator) (p : LfoParam) (v : F32) : (o.set p v).phase0 = o.phase0 := by
  cases p <;> rfl
@[simp] theorem follow_phase (o : Oscillator) (p : EngParam) (v : F32) : (o.follow p v).phase = o.phase := by
  cases p <;> rfl
@[simp] theorem follow_sr0 (o : Oscillator) (p : EngParam) (v : F32) : (o.follow p v).sr0 = o.sr0 := by cases p <;> rfl
@[simp] theorem follow_freq0 (o : Oscillator) (p : EngParam) (v : F32) : (o.follow p v).freq0 = o.freq0 := by
  cases p <;> rfl
@[simp] theorem follow_phase0 (o : Oscillator) (p : EngParam) (v : F32) : (o.follow p v).phase0 = o.phase0 := by
  cases p <;> rfl

/-! ### Updates of the Engine -/

/-- A selector's register reads what was written through the selector. -/
@[simp] theorem eng_get_set (e : Engine) (p : EngParam) (v : F32) : (e.set p v).get p = v := by cases p <;> rfl

/-- The other selectors' registers keep their values. -/
theorem eng_get_set_other (e : Engine) (p q : EngParam) (v : F32) (h : q ≠ p) : (e.set p v).get q = e.get q := by
  cases p <;> cases q <;> first | rfl | exact absurd rfl h

@[simp] theorem eng_set_time (e : Engine) (p : EngParam) (v : F32) : (e.set p v).time = e.time := by cases p <;> rfl
@[simp] theorem eng_set_sr0 (e : Engine) (p : EngParam) (v : F32) : (e.set p v).sr0 = e.sr0 := by cases p <;> rfl
@[simp] theorem eng_set_mf0 (e : Engine) (p : EngParam) (v : F32) : (e.set p v).mf0 = e.mf0 := by cases p <;> rfl
@[simp] theorem eng_set_depth0 (e : Engine) (p : EngParam) (v : F32) : (e.set p v).depth0 = e.depth0 := by
  cases p <;> rfl
@[simp] theorem eng_set_base0 (e : Engine) (p : EngParam) (v : F32) : (e.set p v).base0 = e.base0 := by cases p <;> rfl
@[simp] theorem tick_sr (e : Engine) : e.tick.sr = e.sr := rfl
@[simp] theorem tick_mf (e : Engine) : e.tick.mf = e.mf := rfl
@[simp] theorem tick_depth (e : Engine) : e.tick.depth = e.depth := rfl
@[simp] theorem tick_base (e : Engine) : e.tick.base = e.base := rfl
@[simp] theorem tick_time (e : Engine) : e.tick.time = fadd e.time (fdiv fone e.sr) := rfl
@[simp] theorem tick_sr0 (e : Engine) : e.tick.sr0 = e.sr0 := rfl
@[simp] theorem tick_mf0 (e : Engine) : e.tick.mf0 = e.mf0 := rfl
@[simp] theorem tick_depth0 (e : Engine) : e.tick.depth0 = e.depth0 := rfl
@[simp] theorem tick_base0 (e : Engine) : e.tick.base0 = e.base0 := rfl
@[simp] theorem tick_offset (e : Engine) (osc : F32) : e.tick.offset osc = e.offset osc := rfl
@[simp] theorem restored_eng_sr (e : Engine) : e.restored.sr = e.sr0 := rfl
@[simp] theorem restored_eng_mf (e : Engine) : e.restored.mf = e.mf0 := rfl
@[simp] theorem restored_eng_depth (e : Engine) : e.restored.depth = e.depth0 := rfl
@[simp] theorem restored_eng_base (e : Engine) : e.restored.base = e.base0 := rfl
@[simp] theorem restored_eng_time (e : Engine) : e.restored.time = fzero := rfl
@[simp] theorem restored_eng_sr0 (e : Engine) : e.restored.sr0 = e.sr0 := rfl
@[simp] theorem restored_eng_mf0 (e : Engine) : e.restored.mf0 = e.mf0 := rfl
@[simp] theorem restored_eng_depth0 (e : Engine) : e.restored.depth0 = e.depth0 := rfl
@[simp] theorem restored_eng_base0 (e : Engine) : e.restored.base0 = e.base0 := rfl

end Sys2Proof.Machine
end

