-- ==== Sys2Proof/Laws/Memory.lean ====
section
/-! SUPPORT. The sample store: a read after a write, the canonical form kept by every operation, and what the two store
primitives of 20_memory.md R41 can do. -/

namespace Sys2Proof.Machine

/-! ### The canonical list -/

/-- A word not listed reads `+0.0` (20_memory.md R53). -/
theorem cellRead_of_unlisted (cells : List (Nat × F32)) (i : Nat) (h : ∀ c ∈ cells, c.1 ≠ i) : cellRead cells i = 0#32 := by
  induction cells with
  | nil => rfl
  | cons c rest ih =>
    obtain ⟨a, v⟩ := c
    have ha : a ≠ i := h (a, v) (by simp)
    simp only [cellRead, ha, if_false]
    exact ih fun c hc => h c (by simp [hc])

/-- A cell listed after a write is the written one or was listed before. -/
theorem mem_cellWrite (cells : List (Nat × F32)) (i : Nat) (v : F32) (c : Nat × F32) (h : c ∈ cellWrite cells i v) :
    (c = (i, v) ∧ v ≠ 0#32) ∨ c ∈ cells := by
  induction cells with
  | nil => by_cases hv : v = 0#32 <;> simp_all [cellWrite]
  | cons x rest ih =>
    obtain ⟨a, u⟩ := x
    simp only [cellWrite] at h
    split_ifs at h <;> simp_all <;> tauto

/-- A write keeps the order of the indices. -/
theorem cellWrite_sorted (cells : List (Nat × F32)) (i : Nat) (v : F32) (h : cells.Pairwise (fun a b => a.1 < b.1)) :
    (cellWrite cells i v).Pairwise (fun a b => a.1 < b.1) := by
  induction cells with
  | nil => by_cases hv : v = 0#32 <;> simp [cellWrite, hv]
  | cons x rest ih =>
    obtain ⟨a, u⟩ := x
    rw [List.pairwise_cons] at h
    obtain ⟨hlt, hrest⟩ := h
    simp only [cellWrite]
    split_ifs with h1 h2 h3 h4
    · exact List.pairwise_cons.2 ⟨hlt, hrest⟩
    · refine List.pairwise_cons.2 ⟨fun c hc => ?_, List.pairwise_cons.2 ⟨hlt, hrest⟩⟩
      rcases List.mem_cons.1 hc with rfl | hc
      · exact h1
      · exact lt_trans h1 (hlt c hc)
    · exact hrest
    · exact List.pairwise_cons.2 ⟨fun c hc => by have := hlt c hc; omega, hrest⟩
    · refine List.pairwise_cons.2 ⟨fun c hc => ?_, ih hrest⟩
      rcases mem_cellWrite rest i v c hc with ⟨rfl, -⟩ | hc
      · show a < i; omega
      · exact hlt c hc

/-- A read after a write to the same index gives the value written. -/
theorem cellRead_cellWrite_same (cells : List (Nat × F32)) (i : Nat) (v : F32)
    (h : cells.Pairwise (fun a b => a.1 < b.1)) : cellRead (cellWrite cells i v) i = v := by
  induction cells with
  | nil => by_cases hv : v = 0#32 <;> simp [cellWrite, cellRead, hv]
  | cons x rest ih =>
    obtain ⟨a, u⟩ := x
    rw [List.pairwise_cons] at h
    obtain ⟨hlt, hrest⟩ := h
    simp only [cellWrite]
    split_ifs with h1 h2 h3 h4
    · subst h2
      refine cellRead_of_unlisted _ i fun c hc => ?_
      rcases List.mem_cons.1 hc with rfl | hc
      · show a ≠ i; omega
      · have := hlt c hc; show c.1 ≠ i; simp only at this; omega
    · simp [cellRead]
    · subst h4
      exact cellRead_of_unlisted _ i fun c hc => by have := hlt c hc; simp only at this; omega
    · simp [cellRead]
    · simp only [cellRead, h3, if_false]; exact ih hrest

/-- A write leaves every other index alone. -/
theorem cellRead_cellWrite_other (cells : List (Nat × F32)) (i j : Nat) (v : F32) (hij : j ≠ i) :
    cellRead (cellWrite cells i v) j = cellRead cells j := by
  induction cells with
  | nil => by_cases hv : v = 0#32 <;> simp [cellWrite, cellRead, hv]; try exact fun h => absurd h.symm hij
  | cons x rest ih =>
    obtain ⟨a, u⟩ := x
    simp only [cellWrite]
    split_ifs with h1 h2 h3 h4
    · rfl
    · simp [cellRead, hij.symm]
    · subst h3; simp [cellRead, hij.symm]
    · subst h3; simp [cellRead, hij.symm]
    · simp only [cellRead]; split_ifs <;> simp_all

/-! ### The store -/

@[simp] theorem read_zeroed (i : Nat) : Memory.zeroed.read i = 0#32 := rfl

theorem read_write_same (m : Memory) (i : Nat) (v : F32) (h : m.wf) : (m.write i v).read i = v :=
  cellRead_cellWrite_same m.cells i v h.1

theorem read_write_other (m : Memory) (i j : Nat) (v : F32) (h : j ≠ i) : (m.write i v).read j = m.read j :=
  cellRead_cellWrite_other m.cells i j v h

/-- The zeroed store is in canonical form. -/
theorem zeroed_wf : Memory.zeroed.wf := by simp [Memory.wf, Memory.zeroed]

/-- A write keeps the canonical form. -/
theorem write_wf (m : Memory) (i : Nat) (v : F32) (h : m.wf) : (m.write i v).wf := by
  refine ⟨cellWrite_sorted m.cells i v h.1, fun c hc => ?_⟩
  rcases mem_cellWrite m.cells i v c hc with ⟨rfl, hv⟩ | hc
  · exact hv
  · exact h.2 c hc

theorem zeroed_within (n : Nat) : Memory.zeroed.within n := by simp [Memory.within, Memory.zeroed]

theorem within_mono (m : Memory) (a b : Nat) (hab : a ≤ b) (h : m.within a) : m.within b :=
  fun c hc => lt_of_lt_of_le (h c hc) hab

/-- A write at an index below the capacity stays inside the store. -/
theorem write_within (m : Memory) (i n : Nat) (v : F32) (hi : i < n) (h : m.within n) : (m.write i v).within n := by
  intro c hc
  rcases mem_cellWrite m.cells i v c hc with ⟨rfl, -⟩ | hc
  · exact hi
  · exact h c hc

/-- `Memory.fill` is in canonical form. -/
theorem fill_wf (word : Nat → F32) (n : Nat) : (Memory.fill word n).wf := by
  induction n with
  | zero => exact zeroed_wf
  | succ n ih => exact write_wf _ _ _ ih

/-- `Memory.fill` lists no index outside the store. -/
theorem fill_within (word : Nat → F32) (n : Nat) : (Memory.fill word n).within n := by
  induction n with
  | zero => exact zeroed_within 0
  | succ n ih => exact write_within _ _ _ _ (Nat.lt_succ_self n) (within_mono _ _ _ (Nat.le_succ n) ih)

/-- `Memory.fill` reads as the words given. -/
theorem read_fill (word : Nat → F32) (n i : Nat) (h : i < n) : (Memory.fill word n).read i = word i := by
  induction n with
  | zero => omega
  | succ n ih =>
    by_cases hi : i = n
    · subst hi; exact read_write_same _ _ _ (fill_wf word i)
    · rw [Memory.fill, read_write_other _ _ _ _ hi]; exact ih (by omega)

/-- Two canonical stores that read alike everywhere are the same data. -/
theorem memory_ext (m m' : Memory) (h : m.wf) (h' : m'.wf) (heq : ∀ i, m.read i = m'.read i) : m = m' := by
  obtain ⟨xs⟩ := m
  obtain ⟨ys⟩ := m'
  congr 1
  simp only [Memory.wf, Memory.read] at h h' heq
  induction xs generalizing ys with
  | nil =>
    cases ys with
    | nil => rfl
    | cons y ys =>
      have := heq y.1
      have hy := h'.2 y (by simp)
      simp [cellRead] at this
      exact absurd this.symm hy
  | cons x xs ih =>
    cases ys with
    | nil =>
      have := heq x.1
      have hx := h.2 x (by simp)
      simp [cellRead] at this
      exact absurd this hx
    | cons y ys =>
      obtain ⟨a, u⟩ := x
      obtain ⟨b, v⟩ := y
      obtain ⟨hs, hx⟩ := List.pairwise_cons.1 h.1
      obtain ⟨hs', hy⟩ := List.pairwise_cons.1 h'.1
      have hu : u ≠ 0#32 := h.2 (a, u) (by simp)
      have hv : v ≠ 0#32 := h'.2 (b, v) (by simp)
      have hab : a = b := by
        rcases lt_trichotomy a b with hlt | he | hgt
        · have h1 := heq a
          rw [cellRead_of_unlisted ((b, v) :: ys) a] at h1
          · simp [cellRead] at h1; exact absurd h1 hu
          · intro c hc
            rcases List.mem_cons.1 hc with rfl | hc
            · show b ≠ a; omega
            · have := hs' c hc; simp only at this; omega
        · exact he
        · have h1 := heq b
          rw [cellRead_of_unlisted ((a, u) :: xs) b] at h1
          · simp [cellRead] at h1; exact absurd h1.symm hv
          · intro c hc
            rcases List.mem_cons.1 hc with rfl | hc
            · show a ≠ b; omega
            · have := hs c hc; simp only at this; omega
      subst hab
      have huv : u = v := by have := heq a; simpa [cellRead] using this
      subst huv
      congr 1
      refine ih ⟨hx, fun c hc => h.2 c (by simp [hc])⟩ ys ⟨hy, fun c hc => h'.2 c (by simp [hc])⟩ fun i => ?_
      by_cases hi : a = i
      · subst hi
        rw [cellRead_of_unlisted xs a, cellRead_of_unlisted ys a]
        · intro c hc; have := hs' c hc; simp only at this; omega
        · intro c hc; have := hs c hc; simp only at this; omega
      · have := heq i; simpa [cellRead, hi] using this

/-! ### The store primitives (20_memory.md R41) -/

/-- What `MemRead` can do. -/
theorem memRead_eq_some (d : DelayLine) (i : Nat) (v : F32) : d.memRead i = some v ↔ i < d.n ∧ d.buf.read i = v := by
  simp [DelayLine.memRead]

/-- What `MemWrite` can do. -/
theorem memWrite_eq_some (d d' : DelayLine) (i : Nat) (v : F32) :
    d.memWrite i v = some d' ↔ i < d.n ∧ { d with buf := d.buf.write i v } = d' := by
  simp [DelayLine.memWrite]

theorem memRead_of_lt (d : DelayLine) (i : Nat) (h : i < d.n) : d.memRead i = some (d.buf.read i) := by
  simp [DelayLine.memRead, h]

theorem memWrite_of_lt (d : DelayLine) (i : Nat) (v : F32) (h : i < d.n) :
    d.memWrite i v = some { d with buf := d.buf.write i v } := by
  simp [DelayLine.memWrite, h]

/-- Every offset's slot is inside a store that has a word (40_numerics.md R109). -/
theorem slot_lt (d : DelayLine) (k : Int) (h : 1 ≤ d.n) : d.slot k < d.n := by
  have hn : (0 : Int) < d.n := by exact_mod_cast h
  have h1 := Int.emod_nonneg ((d.r : Int) + k) (ne_of_gt hn)
  have h2 := Int.emod_lt_of_pos ((d.r : Int) + k) hn
  unfold DelayLine.slot wrapIndex
  omega

/-- A natural offset's slot (41_delay_line.md R126). -/
theorem slot_ofNat (d : DelayLine) (k : Nat) : d.slot k = (d.r + k) % d.n := by
  unfold DelayLine.slot wrapIndex
  exact_mod_cast Int.toNat_natCast _

/-- `getf` reads both taps wherever the store has a word (41_delay_line.md R127). -/
theorem getf_eq (d : DelayLine) (o : F32) (h : 1 ≤ d.n) :
    d.getf o =
      some (interp (d.buf.read (d.slot (floorInt o))) (d.buf.read (d.slot (ceilInt o))) (frac o)) := by
  simp [DelayLine.getf, memRead_of_lt, slot_lt, h]

/-- The number of queued samples is below the capacity (10_state.md R17). -/
theorem len_lt (d : DelayLine) (hw : d.w < d.n) : d.len < d.n := by
  unfold DelayLine.len wrapSub
  split_ifs <;> omega

end Sys2Proof.Machine
end

