-- ==== Sys2Proof/Laws/Ops.lean ====
section
/-! SUPPORT. For each shared operation, once, all it can do: how a command ends, the common checks of 60_exceptions.md R219
(one lemma for the passing case, one that lists every case of a next state), and the host's next event. -/

namespace Sys2Proof.Machine

/-! ### How a command ends -/

@[simp] theorem answer_eq_next (rs : List Word) (st : Status) (esel : BitVec 8) (s t : State) :
    answer rs st esel s = .next t ↔ { s with rsp := responseFrame rs st esel } = t := by
  simp [answer]

@[simp] theorem respond_eq_next (rs : List Word) (s t : State) :
    respond rs s = .next t ↔ { s with rsp := responseFrame rs .ok 0#8 } = t := by
  simp [respond]

@[simp] theorem refuse_eq_next (st : Status) (s t : State) :
    refuse st s = .next t ↔ { s with rsp := responseFrame [] st 0#8 } = t := by
  simp [refuse]

@[simp] theorem rejectValue_eq_next (esel : BitVec 8) (v : F32) (s t : State) :
    rejectValue esel v s = .next t ↔ { s with rsp := responseFrame [v] .invalidValue esel } = t := by
  simp [rejectValue]

@[simp] theorem takeFault_eq_next (ys : List F32) (s t : State) :
    takeFault ys s = .next t ↔
      { s with regs := s.regs.faulted s.capMax s.freeIdx, freeIdx := s.freeIdx + 1,
               rsp := responseFrame ys .fault 0#8 } = t := by
  simp [takeFault, answer]

@[simp] theorem answerIllegal_eq_next (s t : State) :
    answerIllegal s = .next t ↔ { s with rsp := responseFrame [] .illegalCmd 0#8 } = t := by
  simp [answerIllegal]

/-- `ENG_VALID = 0` is the absence of an engine. -/
theorem eng_none_of_not_valid (s : State) (h : ¬ s.regs.engValid = true) : s.regs.eng = none := by
  cases he : s.regs.eng with
  | none => rfl
  | some e => simp [Regs.engValid, he] at h

/-! ### The common checks, in the case that passes -/

theorem unlessFaulted_pass (s : State) (k : Result) (h : s.regs.fault = false) : unlessFaulted s k = k := by
  simp [unlessFaulted, h]

theorem unlessFaulted_refuses (s : State) (k : Result) (h : s.regs.fault = true) :
    unlessFaulted s k = refuse .faulted s := by
  simp [unlessFaulted, h]

theorem unlessOwned_pass (s : State) (k : Result) (h : s.regs.eng = none) : unlessOwned s k = k := by
  simp [unlessOwned, Regs.engValid, h]

theorem newLeaf_pass (s : State) (k : Result) (hf : s.regs.fault = false) (he : s.regs.eng = none) :
    newLeaf s k = k := by
  rw [newLeaf, unlessFaulted_pass s _ hf, unlessOwned_pass s _ he]

theorem readDl_pass (s : State) (k : DelayLine → Result) (d : DelayLine) (hf : s.regs.fault = false)
    (hd : s.regs.dl = some d) : readDl s k = k d := by
  simp [readDl, unlessFaulted, withDl, hf, hd]

theorem mutateDl_pass (s : State) (k : DelayLine → Result) (d : DelayLine) (hf : s.regs.fault = false)
    (hd : s.regs.dl = some d) (he : s.regs.eng = none) : mutateDl s k = k d := by
  simp [mutateDl, unlessFaulted, withDl, unlessOwned, Regs.engValid, hf, hd, he]

theorem readLfo_pass (s : State) (k : Oscillator → Result) (o : Oscillator) (hf : s.regs.fault = false)
    (ho : s.regs.lfo = some o) : readLfo s k = k o := by
  simp [readLfo, unlessFaulted, withLfo, hf, ho]

theorem mutateLfo_pass (s : State) (k : Oscillator → Result) (o : Oscillator) (hf : s.regs.fault = false)
    (ho : s.regs.lfo = some o) (he : s.regs.eng = none) : mutateLfo s k = k o := by
  simp [mutateLfo, unlessFaulted, withLfo, unlessOwned, Regs.engValid, hf, ho, he]

theorem onEng_pass (s : State) (k : Engine → Result) (e : Engine) (hf : s.regs.fault = false)
    (he : s.regs.eng = some e) : onEng s k = k e := by
  simp [onEng, unlessFaulted, withEng, hf, he]

theorem withOwned_pass (s : State) (k : DelayLine → Oscillator → Result) (d : DelayLine) (o : Oscillator)
    (hd : s.regs.dl = some d) (ho : s.regs.lfo = some o) : withOwned s k = k d o := by
  simp [withOwned, hd, ho]

/-! ### The common checks, every case of a next state -/

theorem unlessFaulted_next (s t : State) (k : Result) (h : unlessFaulted s k = .next t) :
    (s.regs.fault = true ∧ refuse .faulted s = .next t) ∨ (s.regs.fault = false ∧ k = .next t) := by
  unfold unlessFaulted at h
  split at h <;> simp_all

theorem newLeaf_next (s t : State) (k : Result) (h : newLeaf s k = .next t) :
    (∃ st, refuse st s = .next t) ∨ (s.regs.fault = false ∧ s.regs.eng = none ∧ k = .next t) := by
  rcases unlessFaulted_next s t _ h with ⟨-, h⟩ | ⟨hf, h⟩
  · exact .inl ⟨_, h⟩
  · unfold unlessOwned at h
    split at h
    · exact .inl ⟨_, h⟩
    · exact .inr ⟨hf, eng_none_of_not_valid s ‹_›, h⟩

theorem readDl_next (s t : State) (k : DelayLine → Result) (h : readDl s k = .next t) :
    (∃ st, refuse st s = .next t) ∨ ∃ d, s.regs.fault = false ∧ s.regs.dl = some d ∧ k d = .next t := by
  rcases unlessFaulted_next s t _ h with ⟨-, h⟩ | ⟨hf, h⟩
  · exact .inl ⟨_, h⟩
  · unfold withDl at h
    split at h
    · exact .inl ⟨_, h⟩
    · exact .inr ⟨_, hf, ‹_›, h⟩

theorem mutateDl_next (s t : State) (k : DelayLine → Result) (h : mutateDl s k = .next t) :
    (∃ st, refuse st s = .next t) ∨
      ∃ d, s.regs.fault = false ∧ s.regs.dl = some d ∧ s.regs.eng = none ∧ k d = .next t := by
  rcases readDl_next s t _ h with h | ⟨d, hf, hd, h⟩
  · exact .inl h
  · unfold unlessOwned at h
    split at h
    · exact .inl ⟨_, h⟩
    · exact .inr ⟨d, hf, hd, eng_none_of_not_valid s ‹_›, h⟩

theorem readLfo_next (s t : State) (k : Oscillator → Result) (h : readLfo s k = .next t) :
    (∃ st, refuse st s = .next t) ∨ ∃ o, s.regs.fault = false ∧ s.regs.lfo = some o ∧ k o = .next t := by
  rcases unlessFaulted_next s t _ h with ⟨-, h⟩ | ⟨hf, h⟩
  · exact .inl ⟨_, h⟩
  · unfold withLfo at h
    split at h
    · exact .inl ⟨_, h⟩
    · exact .inr ⟨_, hf, ‹_›, h⟩

theorem mutateLfo_next (s t : State) (k : Oscillator → Result) (h : mutateLfo s k = .next t) :
    (∃ st, refuse st s = .next t) ∨
      ∃ o, s.regs.fault = false ∧ s.regs.lfo = some o ∧ s.regs.eng = none ∧ k o = .next t := by
  rcases readLfo_next s t _ h with h | ⟨o, hf, ho, h⟩
  · exact .inl h
  · unfold unlessOwned at h
    split at h
    · exact .inl ⟨_, h⟩
    · exact .inr ⟨o, hf, ho, eng_none_of_not_valid s ‹_›, h⟩

theorem onEng_next (s t : State) (k : Engine → Result) (h : onEng s k = .next t) :
    (∃ st, refuse st s = .next t) ∨ ∃ e, s.regs.fault = false ∧ s.regs.eng = some e ∧ k e = .next t := by
  rcases unlessFaulted_next s t _ h with ⟨-, h⟩ | ⟨hf, h⟩
  · exact .inl ⟨_, h⟩
  · unfold withEng at h
    split at h
    · exact .inl ⟨_, h⟩
    · exact .inr ⟨_, hf, ‹_›, h⟩

theorem withOwned_next (s t : State) (k : DelayLine → Oscillator → Result) (h : withOwned s k = .next t) :
    ∃ d o, s.regs.dl = some d ∧ s.regs.lfo = some o ∧ k d o = .next t := by
  unfold withOwned at h
  split at h
  · exact ⟨_, _, ‹_›, ‹_›, h⟩
  · exact absurd h (by simp)

theorem withStore_next {α : Type} (access : Option α) (k : α → Result) (t : State) (h : withStore access k = .next t) :
    ∃ a, access = some a ∧ k a = .next t := by
  unfold withStore at h
  split at h
  · exact absurd h (by simp)
  · exact ⟨_, rfl, h⟩

theorem unlessInvalid_next (s t : State) (bad : Option (BitVec 8 × F32)) (k : Result)
    (h : unlessInvalid s bad k = .next t) :
    (∃ esel v, bad = some (esel, v) ∧ rejectValue esel v s = .next t) ∨ (bad = none ∧ k = .next t) := by
  unfold unlessInvalid at h
  split at h
  · exact .inl ⟨_, _, rfl, h⟩
  · exact .inr ⟨rfl, h⟩

/-! ### The host's next event -/

theorem nextEvent_cons (s : State) (e : HostEvent) (rest : List HostEvent) (h : s.inbox = e :: rest) :
    s.nextEvent = some (e, { s with inbox := rest }) := by
  simp [State.nextEvent, h]

theorem nextEvent_nil (s : State) (h : s.inbox = []) : s.nextEvent = none := by
  simp [State.nextEvent, h]

/-- All a step can do that gives a next state. -/
theorem step_next (s t : State) (h : step s = .next t) :
    (s.inbox = [] ∧ t = s) ∨
    (∃ f rest i, s.inbox = .command f :: rest ∧ decode f = .ok i ∧ exec i { s with inbox := rest } = .next t) ∨
    (∃ f rest e, s.inbox = .command f :: rest ∧ decode f = .error e ∧
      answerIllegal { s with inbox := rest } = .next t) ∨
    (∃ rest, s.inbox = .reset :: rest ∧ t = State.hardReset { s with inbox := rest }) ∨
    (∃ f rest, s.inbox = .resetDuring f :: rest ∧ t = State.hardResetDuring { s with inbox := rest }) := by
  cases hi : s.inbox with
  | nil => exact .inl ⟨rfl, by simpa [step, nextEvent_nil s hi] using h.symm⟩
  | cons e rest =>
    rw [step, nextEvent_cons s e rest hi] at h
    cases e with
    | command f =>
      cases hd : decode f with
      | ok i => exact .inr (.inl ⟨f, rest, i, rfl, hd, by simpa [hd] using h⟩)
      | error e => exact .inr (.inr (.inl ⟨f, rest, e, rfl, hd, by simpa [hd] using h⟩))
    | reset => exact .inr (.inr (.inr (.inl ⟨rest, rfl, by simpa using h.symm⟩)))
    | resetDuring f => exact .inr (.inr (.inr (.inr ⟨f, rest, rfl, by simpa using h.symm⟩)))

end Sys2Proof.Machine
end

