-- ==== Sys2Proof/Laws/Engine.lean ====
section
/-! SUPPORT. What a sample step, a block and the sizing can do (43_engine.md R171, R176, R177). -/

namespace Sys2Proof.Machine

/-- A sample step that gives an output: its offset was in range and the registers are as R177 says. -/
theorem sampleStep_output (x y : F32) (v v' : Voice) (h : sampleStep x v = .output y v') :
    offsetOutOfRange (v.eng.offset v.lfo.value) v.dl.n = false ∧ v.dl.getf (v.eng.offset v.lfo.value) = some y ∧
    v.dl.w < v.dl.n ∧
    v' = { dl := { n := v.dl.n, w := (v.dl.w + 1) % v.dl.n, r := (v.dl.r + 1) % v.dl.n,
                   buf := v.dl.buf.write v.dl.w x },
           lfo := v.lfo.advance, eng := v.eng.tick } := by
  simp only [sampleStep] at h
  split at h
  · exact absurd h (by simp)
  · rename_i hr
    split at h
    · rename_i y' d hy hd
      obtain ⟨hw, rfl⟩ := (memWrite_eq_some v.dl d v.dl.w x).1 hd
      injection h with h1 h2
      subst h1 h2
      exact ⟨by simpa using hr, hy, hw, rfl⟩
    · exact absurd h (by simp)

/-- A sample step with its offset in range, where the store is as 10_state.md R16 says. -/
theorem sampleStep_of_inRange (x : F32) (v : Voice)
    (hr : offsetOutOfRange (v.eng.offset v.lfo.value) v.dl.n = false) (hw : v.dl.w < v.dl.n) :
    sampleStep x v =
      .output (interp (v.dl.buf.read (v.dl.slot (floorInt (v.eng.offset v.lfo.value))))
          (v.dl.buf.read (v.dl.slot (ceilInt (v.eng.offset v.lfo.value)))) (frac (v.eng.offset v.lfo.value)))
        { dl := { n := v.dl.n, w := (v.dl.w + 1) % v.dl.n, r := (v.dl.r + 1) % v.dl.n,
                  buf := v.dl.buf.write v.dl.w x },
          lfo := v.lfo.advance, eng := v.eng.tick } := by
  have hn : 1 ≤ v.dl.n := by omega
  simp [sampleStep, hr, getf_eq _ _ hn, memWrite_of_lt _ _ _ hw, DelayLine.advanceWrite, DelayLine.advanceRead]

/-- A sample step faults exactly where its offset is out of range (R179). -/
theorem sampleStep_outOfRange (x : F32) (v : Voice) :
    sampleStep x v = .outOfRange ↔ offsetOutOfRange (v.eng.offset v.lfo.value) v.dl.n = true := by
  simp only [sampleStep]
  split
  · simp_all
  · split <;> simp_all

@[simp] theorem runBlock_nil (v : Voice) : runBlock [] v = .outputs [] v := rfl

theorem runBlock_cons_output (x y : F32) (xs : List F32) (v v' : Voice) (h : sampleStep x v = .output y v') :
    runBlock (x :: xs) v = (runBlock xs v').cons y := by
  simp [runBlock, h]

theorem runBlock_cons_outOfRange (x : F32) (xs : List F32) (v : Voice) (h : sampleStep x v = .outOfRange) :
    runBlock (x :: xs) v = .outOfRange [] := by
  simp [runBlock, h]

/-- A sizing that succeeds: every test of R171 passed. -/
theorem engineSize_eq_some (capMax : Nat) (sr depth base : F32) (d n : Nat)
    (h : engineSize capMax sr depth base = some (d, n)) :
    isFinite (baseSamples sr base) = true ∧ d = f2n (baseSamples sr base) ∧ 1 ≤ d ∧
    isFinite (fadd (baseSamples sr base) (fmul depth (baseSamples sr base))) = true ∧
    ceilInt (fmul depth (baseSamples sr base)) ≤ (d : Int) - 1 ∧
    n = (ceilInt (fadd (baseSamples sr base) (fmul depth (baseSamples sr base)))).toNat + Config.margin ∧
    n ≤ capMax := by
  simp only [engineSize] at h
  split_ifs at h with h1 h2 h3 h4 h5
  injection h with h
  injection h with hd hn
  subst hd hn
  refine ⟨by simpa using h1, rfl, by omega, by simpa using h3, by omega, rfl, by omega⟩

end Sys2Proof.Machine
end

