-- ==== Sys2Proof/Laws/Numerics.lean ====
section
/-! SUPPORT. The fields of a datum, the rounding of 40_numerics.md R91 where it is exact, and what the primitives do with NaN. -/

namespace Sys2Proof.Machine

/-! ### Fields -/

theorem ofSignMag_toNat (s : Bool) (bits : Nat) :
    (ofSignMag s bits).toNat = s.toNat * 2 ^ 31 + bits % 2 ^ 31 := by
  have h := BitVec.toNat_append (x := BitVec.ofBool s) (y := BitVec.ofNat 31 bits)
  rw [ofSignMag]
  refine h.trans ?_
  rw [Nat.shiftLeft_eq, ← Nat.shiftLeft_eq, ← Nat.shiftLeft_add_eq_or_of_lt (BitVec.isLt _)]
  simp [Nat.shiftLeft_eq]

theorem magBits_eq (a : F32) : magBits a = a.toNat % 2 ^ 31 := by simp [magBits]

theorem expField_eq (a : F32) : expField a = a.toNat / 2 ^ 23 % 2 ^ 8 := by
  simp [expField, Nat.shiftRight_eq_div_pow]

theorem fracField_eq (a : F32) : fracField a = a.toNat % 2 ^ 23 := by simp [fracField]

theorem signBit_eq (a : F32) : signBit a = decide (2 ^ 31 ≤ a.toNat) := by
  have h : signBit a = a.msb := by simp [signBit, BitVec.msb_eq_getLsbD_last]
  rw [h, BitVec.msb_eq_decide]

/-- A datum is its sign and its magnitude pattern (40_numerics.md R90). -/
theorem ofSignMag_eta (a : F32) : ofSignMag (signBit a) (magBits a) = a := by
  apply BitVec.eq_of_toNat_eq
  rw [ofSignMag_toNat, signBit_eq, magBits_eq]
  have := a.isLt
  rcases Nat.lt_or_ge a.toNat (2 ^ 31) with h | h
  · rw [decide_eq_false (by omega)]
    simp only [Bool.toNat_false]
    omega
  · rw [decide_eq_true h]
    simp only [Bool.toNat_true]
    omega

@[simp] theorem signBit_ofSignMag (s : Bool) (bits : Nat) : signBit (ofSignMag s bits) = s := by
  rw [signBit_eq, ofSignMag_toNat]
  have : bits % 2 ^ 31 < 2 ^ 31 := Nat.mod_lt _ (by norm_num)
  cases s <;> simp
  omega

@[simp] theorem magBits_ofSignMag (s : Bool) (bits : Nat) (h : bits < 2 ^ 31) : magBits (ofSignMag s bits) = bits := by
  rw [magBits_eq, ofSignMag_toNat]
  cases s <;> simp <;> omega

/-- The exponent and the fraction are parts of the magnitude pattern (R90). -/
theorem magBits_split (a : F32) : magBits a = expField a * 2 ^ 23 + fracField a := by
  rw [magBits_eq, expField_eq, fracField_eq]
  have := a.isLt
  omega

theorem fracField_lt (a : F32) : fracField a < 2 ^ 23 := by
  rw [fracField_eq]; exact Nat.mod_lt _ (by norm_num)

theorem expField_lt (a : F32) : expField a < 2 ^ 8 := by
  rw [expField_eq]; exact Nat.mod_lt _ (by norm_num)

/-- Finite data are those below infinity (R90, R96). -/
theorem isFinite_iff (a : F32) : isFinite a = true ↔ magBits a < infBits := by
  have h1 := magBits_split a
  have h2 := fracField_lt a
  have h3 := expField_lt a
  simp only [isFinite, infBits, bne_iff_ne, ne_eq]
  omega

theorem isNaN_iff (a : F32) : isNaN a = true ↔ infBits < magBits a := by
  have h1 := magBits_split a
  have h2 := fracField_lt a
  have h3 := expField_lt a
  simp only [isNaN, infBits, Bool.and_eq_true, beq_iff_eq, bne_iff_ne, ne_eq]
  omega

theorem isInf_iff (a : F32) : isInf a = true ↔ magBits a = infBits := by
  have h1 := magBits_split a
  have h2 := fracField_lt a
  have h3 := expField_lt a
  simp only [isInf, infBits, Bool.and_eq_true, beq_iff_eq]
  omega

/-! ### The sign flipped (R91) -/

@[simp] theorem signBit_fneg (a : F32) : signBit (fneg a) = !signBit a := by simp [signBit, fneg]

@[simp] theorem fneg_fneg (a : F32) : fneg (fneg a) = a := by simp [fneg]

@[simp] theorem magBits_fneg (a : F32) : magBits (fneg a) = magBits a := by
  unfold magBits
  congr 1
  ext j hj
  have h : (0x80000000#32).getLsbD j = false := (by decide : ∀ k < 31, (0x80000000#32).getLsbD k = false) j hj
  simp only [BitVec.getElem_extractLsb', fneg, BitVec.getLsbD_xor, Nat.zero_add, h, Bool.xor_false]

@[simp] theorem isFinite_fneg (a : F32) : isFinite (fneg a) = isFinite a := by
  rw [Bool.eq_iff_iff, isFinite_iff, isFinite_iff, magBits_fneg]

@[simp] theorem isNaN_fneg (a : F32) : isNaN (fneg a) = isNaN a := by
  rw [Bool.eq_iff_iff, isNaN_iff, isNaN_iff, magBits_fneg]

@[simp] theorem isInf_fneg (a : F32) : isInf (fneg a) = isInf a := by
  rw [Bool.eq_iff_iff, isInf_iff, isInf_iff, magBits_fneg]

/-- An appended pattern as a number. -/
theorem append_toNat {m n : Nat} (x : BitVec m) (y : BitVec n) : (x ++ y).toNat = x.toNat * 2 ^ n + y.toNat := by
  rw [BitVec.toNat_append, ← Nat.shiftLeft_add_eq_or_of_lt y.isLt, Nat.shiftLeft_eq]

/-- The pattern of any quiet NaN as a number (R94). -/
theorem quietNan_toNat (s : BitVec 1) (p : BitVec 22) :
    (s ++ 0x1FF#9 ++ p).toNat = s.toNat * 2 ^ 31 + 511 * 2 ^ 22 + p.toNat := by
  have h : (0x1FF#9).toNat = 511 := by decide
  rw [append_toNat, append_toNat, h]
  ring

/-- `CANON_NAN` is a NaN (R94). -/
@[simp] theorem isNaN_canonNan : isNaN Config.canonNan = true := by
  have h : Config.canonNan.toNat = Config.canonNanSign.toNat * 2 ^ 31 + 511 * 2 ^ 22 + Config.canonNanPayload.toNat :=
    quietNan_toNat _ _
  have hp := Config.canonNanPayload.isLt
  rw [isNaN_iff, magBits_eq, infBits]
  omega

/-! ### Rounding -/

theorem roundUnits_le_inf (num den : Nat) : roundUnits num den ≤ infBits := Nat.min_le_right _ _

@[simp] theorem roundHalfEven_one (n : Nat) : roundHalfEven n 1 = n := by
  simp [roundHalfEven, Nat.mod_one]

/-- A quotient without remainder is not rounded. -/
theorem roundHalfEven_mul (q den : Nat) (h : 0 < den) : roundHalfEven (q * den) den = q := by
  simp [roundHalfEven, Nat.mul_mod_left, h, Nat.mul_div_cancel _ h]

@[simp] theorem units_zero_of_isZero (a : F32) (h : isZero a = true) : units a = 0 := by
  have h1 := magBits_split a
  simp only [isZero, beq_iff_eq] at h
  have he : expField a = 0 := by omega
  have hf : fracField a = 0 := by omega
  simp [units, he, hf]

/-! ### NaN (R94) -/

theorem fadd_nan_left (a b : F32) (h : isNaN a = true) : fadd a b = Config.canonNan := by simp [fadd, h]
theorem fadd_nan_right (a b : F32) (h : isNaN b = true) : fadd a b = Config.canonNan := by simp [fadd, h]
theorem fmul_nan_left (a b : F32) (h : isNaN a = true) : fmul a b = Config.canonNan := by simp [fmul, h]
theorem fmul_nan_right (a b : F32) (h : isNaN b = true) : fmul a b = Config.canonNan := by simp [fmul, h]
theorem fdiv_nan_left (a b : F32) (h : isNaN a = true) : fdiv a b = Config.canonNan := by simp [fdiv, h]
theorem fdiv_nan_right (a b : F32) (h : isNaN b = true) : fdiv a b = Config.canonNan := by simp [fdiv, h]

/-- The bypass (R108). -/
theorem interp_bypass (l r fr : F32) (h : feq fr fzero = true) : interp l r fr = l := by simp [interp, h]

end Sys2Proof.Machine
end

