-- ==== Sys2Proof/Laws/PerInstr.lean ====
section
/-! SUPPORT. Statements about every command as syntax, one lemma per constructor (LAWS.json). -/

set_option Elab.async false

namespace Sys2Proof.Laws.HeaderRow

/-- The frame of a well-formed command is one of its opcode's row (30_encoding.md R61, R63, R64): the opcode in bits 31:24,
the reserved field 0, a selector only where the format has one and then a legal one, and the length the format asks for. -/
def Statement (i : Instr) : Prop :=
  i.wellFormed = true →
    headerOp (encode i).header = i.opcode.byte ∧ headerRsvd (encode i).header = 0#16 ∧
    (i.opcode.format.hasSelector = false → headerSel (encode i).header = 0#8) ∧
    selectorLegal i.opcode (headerSel (encode i).header) = true ∧
    lengthLegal i.opcode.format (encode i).operands = true

theorem sysStatus : Statement .sysStatus := fun _ => by simp; decide
theorem dlNew (capacity : Word) : Statement (.dlNew capacity) := fun _ => by
  simp [Instr.opcode, Instr.selector, Instr.operandWords, Opcode.format, selectorLegal, lengthLegal, Format.length]
theorem dlReset : Statement .dlReset := fun _ => by simp; decide
theorem dlPush (value : F32) : Statement (.dlPush value) := fun _ => by
  simp [Instr.opcode, Instr.selector, Instr.operandWords, Opcode.format, selectorLegal, lengthLegal, Format.length]
theorem dlPop : Statement .dlPop := fun _ => by simp; decide
theorem dlPut (value : F32) : Statement (.dlPut value) := fun _ => by
  simp [Instr.opcode, Instr.selector, Instr.operandWords, Opcode.format, selectorLegal, lengthLegal, Format.length]
theorem dlPeek : Statement .dlPeek := fun _ => by simp; decide
theorem dlGet (offset : Word) : Statement (.dlGet offset) := fun _ => by
  simp [Instr.opcode, Instr.selector, Instr.operandWords, Opcode.format, selectorLegal, lengthLegal, Format.length]
theorem dlGetf (offset : F32) : Statement (.dlGetf offset) := fun _ => by
  simp [Instr.opcode, Instr.selector, Instr.operandWords, Opcode.format, selectorLegal, lengthLegal, Format.length]
theorem dlGetwi : Statement .dlGetwi := fun _ => by simp; decide
theorem dlSetwi (index : Word) : Statement (.dlSetwi index) := fun _ => by
  simp [Instr.opcode, Instr.selector, Instr.operandWords, Opcode.format, selectorLegal, lengthLegal, Format.length]
theorem dlGetri : Statement .dlGetri := fun _ => by simp; decide
theorem dlSetri (index : Word) : Statement (.dlSetri index) := fun _ => by
  simp [Instr.opcode, Instr.selector, Instr.operandWords, Opcode.format, selectorLegal, lengthLegal, Format.length]
theorem dlLen : Statement .dlLen := fun _ => by simp; decide
theorem dlCap : Statement .dlCap := fun _ => by simp; decide
theorem lfoNew (sr freq phase : F32) : Statement (.lfoNew sr freq phase) := fun _ => by
  simp [Instr.opcode, Instr.selector, Instr.operandWords, Opcode.format, selectorLegal, lengthLegal, Format.length]
theorem lfoReset : Statement .lfoReset := fun _ => by simp; decide
theorem lfoSetp (sel : LfoParam) (value : F32) : Statement (.lfoSetp sel value) := fun _ => by
  simp [Instr.opcode, Instr.selector, Instr.operandWords, Opcode.format, selectorLegal, lengthLegal, Format.length,
    Format.hasSelector]
theorem lfoGetp (sel : LfoParam) : Statement (.lfoGetp sel) := fun _ => by
  simp [Instr.opcode, Instr.selector, Instr.operandWords, Opcode.format, selectorLegal, lengthLegal, Format.length,
    Format.hasSelector]
theorem lfoAdv : Statement .lfoAdv := fun _ => by simp; decide
theorem engNew (sr mf depth base : F32) : Statement (.engNew sr mf depth base) := fun _ => by
  simp [Instr.opcode, Instr.selector, Instr.operandWords, Opcode.format, selectorLegal, lengthLegal, Format.length]
theorem engReset : Statement .engReset := fun _ => by simp; decide
theorem engSetp (sel : EngParam) (value : F32) : Statement (.engSetp sel value) := fun _ => by
  simp [Instr.opcode, Instr.selector, Instr.operandWords, Opcode.format, selectorLegal, lengthLegal, Format.length,
    Format.hasSelector]
theorem engGetp (sel : EngParam) : Statement (.engGetp sel) := fun _ => by
  simp [Instr.opcode, Instr.selector, Instr.operandWords, Opcode.format, selectorLegal, lengthLegal, Format.length,
    Format.hasSelector]
theorem engProc (samples : List F32) : Statement (.engProc samples) := fun h => by
  have hlen : samples.length < 2 ^ 32 := by simpa [Instr.wellFormed, sampleCountFits] using h
  have hmod : samples.length % 4294967296 = samples.length := Nat.mod_eq_of_lt hlen
  simp [Instr.opcode, Instr.selector, Instr.operandWords, Opcode.format, selectorLegal, lengthLegal, Format.length,
    hmod]
theorem engFree : Statement .engFree := fun _ => by simp; decide
theorem engGett : Statement .engGett := fun _ => by simp; decide

end Sys2Proof.Laws.HeaderRow
end

