-- ==== Sys2Proof/Machine/Assembler.lean ====
section
/-! DEFINITION. The textual form of commands and responses (30_encoding.md R74) and the pseudo-instruction `ENG_STEP` (R75). -/

namespace Sys2Proof.Machine

/-! ### Pieces of a line -/

/-- The line up to a `;`, which starts a comment. -/
def uncommented (line : List Char) : List Char := line.takeWhile (· ≠ ';')

/-- A space or a tab. -/
def isBlank (c : Char) : Bool := c = ' ' || c = '\t'

/-- The characters without the blanks around them. -/
def trimmed (cs : List Char) : List Char := ((cs.dropWhile isBlank).reverse.dropWhile isBlank).reverse

/-- The pieces between commas: one more than there are commas. -/
def commaPieces : List Char → List (List Char)
  | [] => [[]]
  | c :: cs =>
    match commaPieces cs with
    | [] => [[c]]
    | piece :: pieces => if c = ',' then [] :: piece :: pieces else (c :: piece) :: pieces

/-- The operands of a line's text after its mnemonic: none at all, or the pieces between the commas. -/
def operandTexts (cs : List Char) : List (List Char) :=
  if trimmed cs = [] then [] else (commaPieces cs).map trimmed

/-! ### Numbers -/

/-- The value of a decimal digit. -/
def decDigit (c : Char) : Option Nat := if '0' ≤ c ∧ c ≤ '9' then some (c.toNat - 48) else none

/-- The value of a hexadecimal digit. -/
def hexDigit (c : Char) : Option Nat :=
  if 'A' ≤ c ∧ c ≤ 'F' then some (c.toNat - 55)
  else if 'a' ≤ c ∧ c ≤ 'f' then some (c.toNat - 87)
  else decDigit c

/-- A non-empty row of digits as a number. -/
def digitsValue (base : Nat) (digit : Char → Option Nat) (cs : List Char) : Option Nat :=
  if cs = [] then none
  else cs.foldl (fun acc c => acc.bind fun n => (digit c).map fun d => n * base + d) (some 0)

/-- The value below `2^32` as a word. -/
def wordBelow (n : Nat) : Option Word := if n < 2 ^ 32 then some (BitVec.ofNat 32 n) else none

/-- A `U32` operand: decimal or `0x` hexadecimal. DESIGN CHOICE (log 9): a small `x`, digits in either case. -/
def parseU32 : List Char → Option Word
  | '0' :: 'x' :: hex => (digitsValue 16 hexDigit hex).bind wordBelow
  | cs => (digitsValue 10 decDigit cs).bind wordBelow

/-- The datum nearest to `± mant · 10^exp`, ties to even (the sign is kept on a zero, log 9). -/
def decimalF32 (neg : Bool) (mant : Nat) (exp : Int) : F32 :=
  if 0 ≤ exp then ofSignMag neg (roundUnits (mant * 10 ^ exp.toNat * unitsPerOne) 1)
  else ofSignMag neg (roundUnits (mant * unitsPerOne) (10 ^ (-exp).toNat))

/-- The exponent of a decimal literal: nothing, or `e`, a sign and digits. DESIGN CHOICE (log 9): beside R74's `e-3` also `E`,
`e+3` and `e3`. -/
def parseExponent : List Char → Option Int
  | [] => some 0
  | e :: cs =>
    if e = 'e' ∨ e = 'E' then
      match cs with
      | '-' :: ds => (digitsValue 10 decDigit ds).map (fun n => -(n : Int))
      | '+' :: ds => (digitsValue 10 decDigit ds).map (fun n => (n : Int))
      | ds => (digitsValue 10 decDigit ds).map (fun n => (n : Int))
    else none

/-- An unsigned decimal literal with a `.` or an exponent (R74). DESIGN CHOICE (log 9): digits may be missing on one side of the
point (`.5`, `1.`). A value beyond the format is an infinity (DEDUCED, as R91 has overflow). -/
def parseDecimal (neg : Bool) (cs : List Char) : Option F32 :=
  let whole := cs.takeWhile (fun c => (decDigit c).isSome)
  match cs.dropWhile (fun c => (decDigit c).isSome) with
  | [] => none
  | '.' :: rest =>
    let part := rest.takeWhile (fun c => (decDigit c).isSome)
    match digitsValue 10 decDigit (whole ++ part),
      parseExponent (rest.dropWhile (fun c => (decDigit c).isSome)) with
    | some mant, some exp => some (decimalF32 neg mant (exp - part.length))
    | _, _ => none
  | rest =>
    match digitsValue 10 decDigit whole, parseExponent rest with
    | some mant, some exp => some (decimalF32 neg mant exp)
    | _, _ => none

/-- An `F32` operand: `0x` and exactly eight hexadecimal digits (a bit pattern), or a decimal literal. -/
def parseF32 : List Char → Option F32
  | '0' :: 'x' :: hex => if hex.length = 8 then (digitsValue 16 hexDigit hex).bind wordBelow else none
  | '-' :: cs => parseDecimal true cs
  | cs => parseDecimal false cs

/-- All operands as `F32`, none if one is not. -/
def parseF32s : List (List Char) → Option (List F32)
  | [] => some []
  | cs :: rest => (parseF32 cs).bind fun v => (parseF32s rest).map fun vs => v :: vs

/-! ### Selectors (R66, R67) -/

/-- A selector number: a `U32` that fits the header's field. -/
def parseSelNumber (cs : List Char) : Option (BitVec 8) :=
  (parseU32 cs).bind fun w => if w.toNat < 2 ^ 8 then some (BitVec.ofNat 8 w.toNat) else none

/-- An oscillator selector: its name or its number. DESIGN CHOICE (log 9): the name in lower case only. -/
def parseLfoParam (cs : List Char) : Option LfoParam :=
  if cs = "sr".toList then some .sr
  else if cs = "freq".toList then some .freq
  else if cs = "phase".toList then some .phase
  else (parseSelNumber cs).bind LfoParam.ofSel

/-- An engine selector: its name or its number. DESIGN CHOICE (log 9): the name in lower case only. -/
def parseEngParam (cs : List Char) : Option EngParam :=
  if cs = "sr".toList then some .sr
  else if cs = "mf".toList then some .mf
  else if cs = "depth".toList then some .depth
  else if cs = "base".toList then some .base
  else (parseSelNumber cs).bind EngParam.ofSel

/-! ### Commands -/

/-- A command's name and the texts of its operands, as R74 writes it. DESIGN CHOICE (log 9): the mnemonic in upper case only. -/
def assembleParts (mnemonic : String) (ops : List (List Char)) : Option Instr :=
  match mnemonic, ops with
  | "SYS_STATUS", [] => some .sysStatus
  | "DL_NEW", [a] => (parseU32 a).map .dlNew
  | "DL_RESET", [] => some .dlReset
  | "DL_PUSH", [v] => (parseF32 v).map .dlPush
  | "DL_POP", [] => some .dlPop
  | "DL_PUT", [v] => (parseF32 v).map .dlPut
  | "DL_PEEK", [] => some .dlPeek
  | "DL_GET", [a] => (parseU32 a).map .dlGet
  | "DL_GETF", [v] => (parseF32 v).map .dlGetf
  | "DL_GETWI", [] => some .dlGetwi
  | "DL_SETWI", [a] => (parseU32 a).map .dlSetwi
  | "DL_GETRI", [] => some .dlGetri
  | "DL_SETRI", [a] => (parseU32 a).map .dlSetri
  | "DL_LEN", [] => some .dlLen
  | "DL_CAP", [] => some .dlCap
  | "LFO_NEW", [sr, freq, phase] =>
    match parseF32 sr, parseF32 freq, parseF32 phase with
    | some sr, some freq, some phase => some (.lfoNew sr freq phase)
    | _, _, _ => none
  | "LFO_RESET", [] => some .lfoReset
  | "LFO_SETP", [p, v] =>
    match parseLfoParam p, parseF32 v with
    | some p, some v => some (.lfoSetp p v)
    | _, _ => none
  | "LFO_GETP", [p] => (parseLfoParam p).map .lfoGetp
  | "LFO_ADV", [] => some .lfoAdv
  | "ENG_NEW", [sr, mf, depth, base] =>
    match parseF32 sr, parseF32 mf, parseF32 depth, parseF32 base with
    | some sr, some mf, some depth, some base => some (.engNew sr mf depth base)
    | _, _, _, _ => none
  | "ENG_RESET", [] => some .engReset
  | "ENG_SETP", [p, v] =>
    match parseEngParam p, parseF32 v with
    | some p, some v => some (.engSetp p v)
    | _, _ => none
  | "ENG_GETP", [p] => (parseEngParam p).map .engGetp
  | "ENG_PROC", n :: xs =>
    match parseU32 n, parseF32s xs with
    | some n, some xs => if n.toNat = xs.length then some (.engProc xs) else none
    | _, _ => none
  | "ENG_STEP", [x] => (parseF32 x).map Instr.engStep
  | "ENG_FREE", [] => some .engFree
  | "ENG_GETT", [] => some .engGett
  | _, _ => none

/-- One line of assembler text as a command (R74), none if it is not one. -/
def assemble (line : String) : Option Instr :=
  let cs := trimmed (uncommented line.toList)
  assembleParts (String.ofList (cs.takeWhile (fun c => !isBlank c))) (operandTexts (cs.dropWhile (fun c => !isBlank c)))

/-! ### Responses -/

/-- The names of R71. -/
def Status.name : Status → String
  | .ok => "OK" | .invalidValue => "INVALID_VALUE" | .illegalCmd => "ILLEGAL_CMD" | .notConstructed => "NOT_CONSTRUCTED"
  | .owned => "OWNED" | .badSize => "BAD_SIZE" | .fault => "FAULT" | .faulted => "FAULTED"

/-- A hexadecimal digit. -/
def hexChar (n : Nat) : Char := if n < 10 then Char.ofNat (48 + n) else Char.ofNat (55 + n)

/-- The last `count` hexadecimal digits of a number. -/
def hexText : Nat → Nat → List Char
  | 0, _ => []
  | count + 1, n => hexText count (n / 16) ++ [hexChar (n % 16)]

/-- A word as `0x` and eight hexadecimal digits. -/
def wordText (w : Word) : List Char := '0' :: 'x' :: hexText 8 w.toNat

/-- Words separated by commas. -/
def wordsText : List Word → List Char
  | [] => []
  | [w] => wordText w
  | w :: ws => wordText w ++ (',' :: ' ' :: wordsText ws)

/-- `-> r0, r1, ... ; STATUS`, or `-> STATUS` where there is no result, or `-> STATUS(esel)` for `INVALID_VALUE` (R74); the
words in hexadecimal. DESIGN CHOICE (log 9): `esel` is written as its number, in decimal, as in 95_test_vectors.md V33; R74 does
not say how, and R76 writes the selector's name. -/
def responseText (results : List Word) (st : Status) (esel : BitVec 8) : String :=
  if st = .invalidValue then "-> " ++ st.name ++ "(" ++ toString esel.toNat ++ ")"
  else if results = [] then "-> " ++ st.name
  else "-> " ++ String.ofList (wordsText results) ++ " ; " ++ st.name

end Sys2Proof.Machine
end

