-- ==== Sys2Proof/Tests/Slice0.lean ====
section
/-! SUPPORT. Tests: every frame and every expected response is one of spec/ (30_encoding.md R65, R76; 95_test_vectors.md, by
number) or worked out by hand from a rule; then, for each statement with hypotheses, a state and operands that meet them. -/

set_option Elab.async false

namespace Sys2Proof.Tests

open Sys2Proof Sys2Proof.Machine

/-! ### Small states -/

/-- A Delay Line of capacity 4 after two pushes, 1.0 and 2.0 (V3). -/
def line : DelayLine := ⟨4, 2, 0, ⟨[(0, 0x3F800000#32), (1, 0x40000000#32)]⟩⟩

/-- A Delay Line of capacity 4 whose cursors stand at its end, empty. -/
def lineAtEnd : DelayLine := ⟨4, 3, 3, ⟨[]⟩⟩

/-- The oscillator of V20. -/
def osc : Oscillator := freshOscillator 0x40800000#32 0x3F800000#32 0x00000000#32

/-- The engine of V30: sample rate 4.0, frequency 1.0, depth 0.0, base delay 0.5. -/
def eng : Engine := freshEngine 0x40800000#32 0x3F800000#32 0x00000000#32 0x3F000000#32

/-- A standalone Delay Line. -/
def withLine (d : DelayLine) : State := State.reset.setDl d

/-- A standalone oscillator. -/
def withOsc (o : Oscillator) : State := State.reset.setLfo o

/-- The engine of V30 right after its construction. -/
def built : State := State.reset.setAll (ownedDelayLine 2 4) osc eng

/-- The engine of V30 after `ENG_SETP base, 1.0` (V36 b). -/
def outgrown : State := built.setEng { eng with base := 0x3F800000#32 }

/-- A faulted core with a Delay Line. -/
def faulted : State := { withLine line with regs := { (withLine line).regs with fault := true } }

/-- The response of a next state. -/
def response (r : Result) : Option (List Word) :=
  match r with
  | .next t => some t.rsp
  | .fault _ => none
  | .refused _ => none

/-- The registers of a next state. -/
def registers (r : Result) : Option Regs :=
  match r with
  | .next t => some t.regs
  | .fault _ => none
  | .refused _ => none

/-- A frame decodes to this command. -/
def decodesTo (ws : List Word) (i : Instr) : Bool :=
  match (Frame.ofWords ws).map decode with
  | some (.ok j) => j == i
  | _ => false

/-- A frame is rejected for this reason. -/
def rejects (ws : List Word) (e : DecodeError) : Bool :=
  match (Frame.ofWords ws).map decode with
  | some (.error e') => e' == e
  | _ => false

/-! ### WellFormed -/

theorem wellFormed_false_of_length (samples : List F32) (h : ¬ samples.length < 2 ^ 32) :
    (Instr.engProc samples).wellFormed = false := decide_eq_false h

/-- R73: the sample count is a `U32`; `2^32` samples have no frame. -/
theorem test_wellFormed_refuses_count : (Instr.engProc (List.replicate (2 ^ 32) 0#32)).wellFormed = false :=
  wellFormed_false_of_length _ (by rw [List.length_replicate]; exact Nat.lt_irrefl _)

theorem test_wellFormed_empty_block : (Instr.engProc []).wellFormed = true := by decide

/-! ### Decoding: every command's word, from R65 and R76 -/

theorem test_decode_sysStatus : decodesTo [0x01000000#32] .sysStatus = true := by decide
theorem test_decode_dlNew : decodesTo [0x10000000#32, 0x00000008#32] (.dlNew 8#32) = true := by decide
theorem test_decode_dlReset : decodesTo [0x11000000#32] .dlReset = true := by decide
theorem test_decode_dlPush : decodesTo [0x12000000#32, 0x3F800000#32] (.dlPush 0x3F800000#32) = true := by decide
theorem test_decode_dlPop : decodesTo [0x13000000#32] .dlPop = true := by decide
theorem test_decode_dlPut : decodesTo [0x14000000#32, 0x40E00000#32] (.dlPut 0x40E00000#32) = true := by decide
theorem test_decode_dlPeek : decodesTo [0x15000000#32] .dlPeek = true := by decide
theorem test_decode_dlGet : decodesTo [0x16000000#32, 0x00000002#32] (.dlGet 2#32) = true := by decide
theorem test_decode_dlGetf : decodesTo [0x17000000#32, 0x40066666#32] (.dlGetf 0x40066666#32) = true := by decide
theorem test_decode_dlGetwi : decodesTo [0x18000000#32] .dlGetwi = true := by decide
theorem test_decode_dlSetwi : decodesTo [0x19000000#32, 0x0000000A#32] (.dlSetwi 10#32) = true := by decide
theorem test_decode_dlGetri : decodesTo [0x1A000000#32] .dlGetri = true := by decide
theorem test_decode_dlSetri : decodesTo [0x1B000000#32, 0x0000000D#32] (.dlSetri 13#32) = true := by decide
theorem test_decode_dlLen : decodesTo [0x1C000000#32] .dlLen = true := by decide
theorem test_decode_dlCap : decodesTo [0x1D000000#32] .dlCap = true := by decide
theorem test_decode_lfoNew : decodesTo [0x20000000#32, 0x40800000#32, 0x3F800000#32, 0x00000000#32]
    (.lfoNew 0x40800000#32 0x3F800000#32 0x00000000#32) = true := by decide
theorem test_decode_lfoReset : decodesTo [0x21000000#32] .lfoReset = true := by decide
theorem test_decode_lfoSetp : decodesTo [0x22010000#32, 0x40000000#32] (.lfoSetp .freq 0x40000000#32) = true := by decide
theorem test_decode_lfoGetp : decodesTo [0x23020000#32] (.lfoGetp .phase) = true := by decide
theorem test_decode_lfoAdv : decodesTo [0x24000000#32] .lfoAdv = true := by decide
theorem test_decode_engNew : decodesTo [0x30000000#32, 0x40800000#32, 0x3F800000#32, 0x00000000#32, 0x3F000000#32]
    (.engNew 0x40800000#32 0x3F800000#32 0x00000000#32 0x3F000000#32) = true := by decide
theorem test_decode_engReset : decodesTo [0x31000000#32] .engReset = true := by decide
theorem test_decode_engSetp : decodesTo [0x32020000#32, 0x3E800000#32] (.engSetp .depth 0x3E800000#32) = true := by decide
theorem test_decode_engGetp : decodesTo [0x33030000#32] (.engGetp .base) = true := by decide
theorem test_decode_engProc : decodesTo [0x34000000#32, 0x00000002#32, 0x3F800000#32, 0x40000000#32]
    (.engProc [0x3F800000#32, 0x40000000#32]) = true := by decide
theorem test_decode_engFree : decodesTo [0x35000000#32] .engFree = true := by decide
theorem test_decode_engGett : decodesTo [0x36000000#32] .engGett = true := by decide

/-! ### Decoding: frames that are not commands (R64, R68, R69) -/

theorem test_reject_opcode_zero : rejects [0x00000000#32] .unassignedOpcode = true := by decide
theorem test_reject_opcode_gap : rejects [0x1E000000#32] .unassignedOpcode = true := by decide
theorem test_reject_reserved : rejects [0x01000001#32] .reservedBits = true := by decide
theorem test_reject_selector_present : rejects [0x12010000#32, 0x3F800000#32] .selectorNotZero = true := by decide
theorem test_reject_lfo_selector : rejects [0x23030000#32] .selectorOutOfRange = true := by decide
theorem test_reject_eng_selector : rejects [0x32040000#32, 0x3F800000#32] .selectorOutOfRange = true := by decide
theorem test_reject_short : rejects [0x12000000#32] .wrongLength = true := by decide
theorem test_reject_count : rejects [0x34000000#32, 0x00000002#32, 0x3F800000#32] .wrongLength = true := by decide
theorem test_reject_odd_bytes : (match decodeBytes [0x00#8, 0x00#8, 0x00#8] with | .error .notWords => true | _ => false) = true := by
  decide

/-! ### Frames as bytes and the opcode table's bits -/

/-- R76: the frame `12000000 3F800000` as bytes. -/
theorem test_bytes : encodeBytes (.dlPush 0x3F800000#32) = [0x00#8, 0x00#8, 0x00#8, 0x12#8, 0x00#8, 0x00#8, 0x80#8, 0x3F#8] := by
  decide
theorem test_tableWord_header_only : decodeTableWord 32 0x30000000 = some (.engNew 0#32 0#32 0#32 0#32) := by decide
theorem test_tableWord_two_words : decodeTableWord 64 0x3F80000012000000 = some (.dlPush 0x3F800000#32) := by decide
theorem test_fetch : response (step (State.reset.withFetchWord 32 0x01000000)) = some [0x00000000#32, 0x00000000#32] := by decide

/-! ### Assembler text (R74 to R76) -/

theorem test_assemble_decimal : assemble "DL_GETF 2.1" = some (.dlGetf 0x40066666#32) := by decide
theorem test_assemble_block : assemble "ENG_PROC 2, 1.0, 2.0 ; two samples" = some (.engProc [0x3F800000#32, 0x40000000#32]) := by
  decide
theorem test_assemble_selector : assemble "ENG_SETP depth, 0.25" = some (.engSetp .depth 0x3E800000#32) := by decide
theorem test_assemble_count_checked : assemble "ENG_PROC 3, 1.0" = none := by decide
theorem test_response_text : responseText [0x3FC00000#32] .ok 0#8 = "-> 0x3FC00000 ; OK" := by decide

/-! ### Numbers (V50 to V54, R100, R105) -/

theorem test_fround_half : fround 0x40200000#32 = 0x40400000#32 := by decide
theorem test_fmodx : fmodx 0x42CB243F#32 0x40C90FDB#32 = 0x3F851900#32 := by decide
theorem test_fadd_rounds : fadd 0x42B40001#32 0x3F7FFFF0#32 = 0x42B60001#32 := by decide
/-- R107: the value of `SIN_REF` near π; the substitute is the rounded series. -/
theorem test_sinSubstitute : sinSubstitute 0x40490FDB#32 = 0xB3BBBD2E#32 := by decide +kernel
/-- V50: the sign of a zero result. -/
theorem test_fround_negative_zero : fround 0xBE800000#32 = 0x80000000#32 := by decide

/-! ### One step of every command (95_test_vectors.md) -/

theorem test_sysStatus_engine : response (exec .sysStatus built) = some [0x00000007#32, 0x00000000#32] := by decide
theorem test_sysStatus_faulted : response (exec .sysStatus faulted) = some [0x00000009#32, 0x00000000#32] := by decide
/-- V3 -/
theorem test_dlNew_too_big : response (exec (.dlNew 65537#32) State.reset) = some [0x00000005#32] := by decide
theorem test_dlNew : registers (exec (.dlNew 4#32) State.reset) = some ⟨false, some ⟨4, 0, 0, ⟨[]⟩⟩, none, none⟩ := by decide
theorem test_dlReset : registers (exec .dlReset (withLine line)) = some ⟨false, some ⟨4, 0, 0, ⟨[]⟩⟩, none, none⟩ := by decide
/-- R122: from slot 3 the cursor wraps to 0. -/
theorem test_dlPush_wraps : registers (exec (.dlPush 0x7FC12345#32) (withLine lineAtEnd)) =
    some ⟨false, some ⟨4, 0, 3, ⟨[(3, 0x7FC12345#32)]⟩⟩, none, none⟩ := by decide
theorem test_dlPop : response (exec .dlPop (withLine line)) = some [0x3F800000#32, 0x00000000#32] := by decide
theorem test_dlPop_wraps : registers (exec .dlPop (withLine lineAtEnd)) = some ⟨false, some ⟨4, 3, 0, ⟨[]⟩⟩, none, none⟩ := by decide
/-- R124: the write cursor stays; storing `+0.0` unlists the word. -/
theorem test_dlPut : registers (exec (.dlPut 0x40E00000#32) (withLine lineAtEnd)) =
    some ⟨false, some ⟨4, 3, 3, ⟨[(3, 0x40E00000#32)]⟩⟩, none, none⟩ := by decide
theorem test_dlPeek : response (exec .dlPeek (withLine line)) = some [0x3F800000#32, 0x00000000#32] := by decide
/-- V8: no 32-bit wrap of the sum. -/
theorem test_dlGet_huge : response (exec (.dlGet 0xFFFFFFFF#32)
    (withLine ⟨4, 0, 3, ⟨[(2, 0x40400000#32)]⟩⟩)) = some [0x40400000#32, 0x00000000#32] := by decide
/-- V1 -/
theorem test_dlGetf_half : response (exec (.dlGetf 0x3F000000#32) (withLine line)) = some [0x3FC00000#32, 0x00000000#32] := by decide
/-- V10 -/
theorem test_dlGetf_faults : response (exec (.dlGetf 0x80000001#32) (withLine line)) = some [0x00000006#32] := by decide
theorem test_dlGetwi : response (exec .dlGetwi (withLine line)) = some [0x00000002#32, 0x00000000#32] := by decide
/-- V7 -/
theorem test_dlSetwi : registers (exec (.dlSetwi 10#32) (withLine ⟨8, 0, 0, ⟨[]⟩⟩)) =
    some ⟨false, some ⟨8, 2, 0, ⟨[]⟩⟩, none, none⟩ := by decide
theorem test_dlGetri : response (exec .dlGetri (withLine lineAtEnd)) = some [0x00000003#32, 0x00000000#32] := by decide
theorem test_dlSetri : registers (exec (.dlSetri 13#32) (withLine ⟨8, 2, 0, ⟨[]⟩⟩)) =
    some ⟨false, some ⟨8, 2, 5, ⟨[]⟩⟩, none, none⟩ := by decide
/-- R132 -/
theorem test_dlLen_wraps : response (exec .dlLen (withLine ⟨4, 1, 3, ⟨[]⟩⟩)) = some [0x00000002#32, 0x00000000#32] := by decide
theorem test_dlCap : response (exec .dlCap built) = some [0x00000004#32, 0x00000000#32] := by decide
/-- V21 -/
theorem test_lfoNew_first_bad : response (exec (.lfoNew 0x7FC00000#32 0x00000000#32 0x00000000#32) State.reset) =
    some [0x7FC00000#32, 0x00000001#32] := by decide
theorem test_lfoReset : registers (exec .lfoReset (withOsc { osc with freq := 0x40000000#32, phase := 0x3FC90FDB#32 })) =
    some ⟨false, none, some osc, none⟩ := by decide
theorem test_lfoSetp_rejects : response (exec (.lfoSetp .freq 0x80000000#32) (withOsc osc)) =
    some [0x80000000#32, 0x00000101#32] := by decide
theorem test_lfoSetp_phase : registers (exec (.lfoSetp .phase 0x7FC00001#32) (withOsc osc)) =
    some ⟨false, none, some { osc with phase := 0x7FC00001#32 }, none⟩ := by decide
theorem test_lfoGetp : response (exec (.lfoGetp .freq) built) = some [0x3F800000#32, 0x00000000#32] := by decide
/-- V20 -/
theorem test_lfoAdv : registers (exec .lfoAdv (withOsc osc)) = some ⟨false, none, some { osc with phase := 0x3FC90FDB#32 }, none⟩ := by
  decide
theorem test_lfoAdv_owned : response (exec .lfoAdv built) = some [0x00000004#32] := by decide
/-- V30 -/
theorem test_engNew : registers (exec (.engNew 0x40800000#32 0x3F800000#32 0x00000000#32 0x3F000000#32) (withLine line)) =
    some built.regs := by decide
/-- V35: a base delay below half a sample cannot be sized. -/
theorem test_engNew_bad_size : response (exec (.engNew 0x40800000#32 0x3F800000#32 0x00000000#32 0x3DCCCCCD#32) State.reset) =
    some [0x00000005#32] := by decide
theorem test_engReset : registers (exec .engReset { outgrown with regs := { outgrown.regs with dl := some ⟨4, 1, 1, ⟨[(0, 1#32)]⟩⟩ } }) =
    some built.regs := by decide
/-- V33 -/
theorem test_engSetp_mf : registers (exec (.engSetp .mf 0x40000000#32) built) =
    some { built.regs with lfo := some { osc with freq := 0x40000000#32 }, eng := some { eng with mf := 0x40000000#32 } } := by decide
theorem test_engSetp_rejects : response (exec (.engSetp .depth 0xBF800000#32) built) = some [0xBF800000#32, 0x00000201#32] := by decide
theorem test_engGetp : response (exec (.engGetp .base) built) = some [0x3F000000#32, 0x00000000#32] := by decide
/-- V30, the first sample: slot 2 is read, slot 0 written. -/
theorem test_engProc : registers (exec (.engProc [0x3F800000#32]) built) =
    some ⟨false, some ⟨4, 1, 1, ⟨[(0, 0x3F800000#32)]⟩⟩, some { osc with phase := 0x3FC90FDB#32 },
      some { eng with time := 0x3E800000#32 }⟩ := by decide
/-- V36 (b) -/
theorem test_engProc_faults : response (exec (.engProc [0x3F800000#32]) outgrown) = some [0x00000006#32] := by decide
theorem test_engFree : registers (exec .engFree built) = some ⟨false, none, none, none⟩ := by decide
theorem test_engGett : response (exec .engGett built) = some [0x00000000#32, 0x00000000#32] := by decide
/-- V40: an illegal frame is answered in the faulted state too. -/
theorem test_illegal_when_faulted : response (step (faulted.withFrame ⟨0x00000000#32, []⟩)) = some [0x00000002#32] := by decide
theorem test_reset_clears_fault : registers (step { faulted with inbox := [.reset] }) = some Regs.reset := by decide

/-! ### The statements' hypotheses can be met -/

theorem witness_encoded : (Instr.engProc [0x3F800000#32]).wellFormed = true := by decide

theorem witness_decoded : decode ⟨0x34000000#32, [0x00000001#32, 0x3F800000#32]⟩ = .ok (.engProc [0x3F800000#32]) := rfl

theorem witness_bytes : (Instr.dlPush 0x3F800000#32).wellFormed = true ∧
    decodeBytes [0x00#8, 0x00#8, 0x00#8, 0x12#8, 0x00#8, 0x00#8, 0x80#8, 0x3F#8] = .ok (.dlPush 0x3F800000#32) := ⟨rfl, rfl⟩

theorem witness_illegalFrame : (faulted.withFrame ⟨0x01000001#32, []⟩).inbox = .command ⟨0x01000001#32, []⟩ :: [] ∧
    ¬ LegalFrame ⟨0x01000001#32, []⟩ := ⟨rfl, fun h => absurd h.1 (by decide)⟩

theorem witness_stepRuns : (built.withFrame (encode .engGett)).inbox = .command (encode .engGett) :: [] ∧
    decode (encode .engGett) = .ok .engGett := ⟨rfl, rfl⟩

theorem witness_stepWithoutCommand : built.inbox = [] ∧ ({ built with inbox := [.reset] } : State).inbox = .reset :: [] ∧
    ({ built with inbox := [.resetDuring (encode .dlPop)] } : State).inbox = .resetDuring (encode .dlPop) :: [] := ⟨rfl, rfl, rfl⟩

theorem witness_afterReset : State.reset.regs = State.reset.regs ∧ (needsComponent .dlCap).isSome = true := by decide

theorem witness_commonChecks : Instr.dlPush 0#32 ≠ .sysStatus ∧ faulted.regs.fault = true ∧
    State.reset.regs.fault = false ∧ needsComponent (.dlPush 0#32) = some .delayLine ∧
    Component.delayLine.valid State.reset.regs = false ∧
    built.regs.fault = false ∧ Component.delayLine.valid built.regs = true ∧ mutatesLeaf (.dlPush 0#32) = true ∧
    built.regs.engValid = true := by decide

theorem witness_faulted : faulted.regs.fault = true := by decide

theorem witness_rejection :
    exec (.engSetp .depth 0xBF800000#32) built = .next { built with rsp := [0xBF800000#32, 0x00000201#32] } ∧
    lastWord [0xBF800000#32, 0x00000201#32] ≠ 0x00000000#32 ∧ lastWord [0xBF800000#32, 0x00000201#32] ≠ 0x00000006#32 ∧
    built.regs.fault = false ∧ built.regs.dl = some (ownedDelayLine 2 4) ∧ built.regs.lfo = some osc ∧ built.regs.eng = some eng ∧
    (withOsc osc).regs.fault = false ∧ (withOsc osc).regs.lfo = some osc ∧ (withOsc osc).regs.eng = none := by
  refine ⟨rfl, ?_⟩
  decide

theorem witness_dlNew : (withLine line).regs.fault = false ∧ (withLine line).regs.eng = none ∧
    1 ≤ (1#32).toNat ∧ (1#32).toNat ≤ (withLine line).capMax ∧
    1 ≤ (65536#32).toNat ∧ (65536#32).toNat ≤ (withLine line).capMax ∧
    (0#32).toNat = 0 ∧ (withLine line).capMax < (65537#32).toNat := by decide

/-- The hypotheses on a standalone Delay Line: read cursor 0 and the last index, write cursor the last index. -/
theorem witness_standaloneLine : (withLine line).regs.fault = false ∧ (withLine line).regs.dl = some line ∧
    (withLine line).regs.eng = none ∧ line.w < line.n ∧ line.r < line.n ∧ 1 ≤ line.n ∧ line.n ≤ 2 ^ 24 ∧ line.buf.wf ∧
    (withLine lineAtEnd).regs.fault = false ∧ (withLine lineAtEnd).regs.dl = some lineAtEnd ∧
    (withLine lineAtEnd).regs.eng = none ∧ lineAtEnd.w < lineAtEnd.n ∧ lineAtEnd.r < lineAtEnd.n ∧ 1 ≤ lineAtEnd.n ∧
    lineAtEnd.n ≤ 2 ^ 24 ∧ lineAtEnd.buf.wf := by decide

theorem witness_dlGetf : built.regs.fault = false ∧ built.regs.dl = some (ownedDelayLine 2 4) ∧
    1 ≤ (ownedDelayLine 2 4).n ∧ isFinite 0x80000000#32 = true ∧ 0 ≤ realOf 0x80000000#32 ∧
    isFinite 0x3F7FFFFF#32 = true ∧ 0 ≤ realOf 0x3F7FFFFF#32 ∧ isFinite 0x7F7FFFFF#32 = true ∧ 0 ≤ realOf 0x7F7FFFFF#32 := by
  decide +kernel

theorem witness_dlGetfFaults : built.regs.fault = false ∧ built.regs.dl = some (ownedDelayLine 2 4) ∧
    isFinite 0x7FC00000#32 = false ∧ isFinite 0x7F800000#32 = false ∧ realOf 0x80000001#32 < 0 := by decide +kernel

theorem witness_dlGetfOfIndex : (0x01000000#32).toNat ≤ 2 ^ 24 := by decide

theorem witness_dlPutThenSetwi : (withLine lineAtEnd).regs.fault = false ∧ (withLine lineAtEnd).regs.dl = some lineAtEnd ∧
    (withLine lineAtEnd).regs.eng = none ∧ lineAtEnd.w < lineAtEnd.n ∧ (4#32).toNat = lineAtEnd.w + 1 := by decide

/-- V4's discipline at its bounds: a push onto `N − 1` queued samples, a pop of the last. -/
theorem witness_dlRing : (withLine lineAtEnd).regs.fault = false ∧ (withLine lineAtEnd).regs.dl = some lineAtEnd ∧
    (withLine lineAtEnd).regs.eng = none ∧ lineAtEnd.w = lineAtEnd.r ∧ lineAtEnd.w < lineAtEnd.n ∧ lineAtEnd.buf.wf ∧
    disciplined lineAtEnd.n 0 [.push 1#32, .push 2#32, .push 3#32, .push 4#32, .pop, .pop, .pop, .pop] := by
  refine ⟨rfl, rfl, rfl, rfl, by decide, by decide, ?_⟩
  simp [disciplined, lineAtEnd]

theorem witness_arithmetic : isFinite 0x3F800000#32 = true ∧ isFinite 0x00000001#32 = true ∧ realOf 0x00000001#32 ≠ 0 ∧
    isFinite 0x7F7FFFFF#32 = true := by decide +kernel

theorem witness_special : isFinite 0x3F800000#32 = true ∧ isZero 0x3F800000#32 = false ∧ isZero 0x80000000#32 = true ∧
    isInf 0xFF800000#32 = true ∧ isInf 0x7F800000#32 = true ∧ signBit 0xFF800000#32 ≠ signBit 0x7F800000#32 ∧
    isNaN 0x7FC00000#32 = true ∧ isNaN (fmul 0x3F800000#32 0x80000000#32) = false ∧
    isNaN (fdiv 0x3F800000#32 0x80000000#32) = false ∧ isNaN 0x80000001#32 = false ∧ isZero 0x80000001#32 = false ∧
    isFinite 0x80000000#32 = true := by decide

theorem witness_numbers : isFinite 0xC0200000#32 = true ∧ isFinite 0x4B000001#32 = true ∧ 2 ^ 23 ≤ |realOf 0x4B000001#32| ∧
    0 ≤ realOf 0x3E800000#32 ∧ isFinite 0x3E800000#32 = true ∧ isInf 0x7F800000#32 = true ∧ isNaN 0x7FC00000#32 = true ∧
    isFinite 0x40400000#32 = true ∧ 0 ≤ realOf 0x40400000#32 := by decide +kernel

theorem witness_fmodx : isFinite 0x40C90FDB#32 = true ∧ 0 < realOf 0x40C90FDB#32 ∧ isFinite 0x40E00000#32 = true ∧
    realOf 0x40C90FDB#32 ≤ realOf 0x40E00000#32 ∧ realOf 0x40E00000#32 < 2 * realOf 0x40C90FDB#32 ∧
    0 ≤ realOf 0x80000000#32 ∧ realOf 0x80000000#32 < realOf 0x40C90FDB#32 ∧ isFinite 0x7F800000#32 = false := by decide +kernel

theorem witness_sine : isFinite 0x40C90FDB#32 = true ∧ |realOf 0x40C90FDB#32| < 8 ∧ isFinite 0x7F800000#32 = false := by decide +kernel

/-- The identity is a conforming sine at `+0.0`. -/
theorem witness_conformsAt : ConformsAt (fun a => a) 0x00000000#32 where
  value _ := by
    have h : realOf 0x00000000#32 = 0 := by decide +kernel
    exact ⟨by decide +kernel, fun _ => by simp [h]⟩
  origin _ := rfl
  nonFinite := by decide
  oddness _ := rfl

theorem witness_lfoNew : (withOsc osc).regs.fault = false ∧ (withOsc osc).regs.eng = none := by decide

theorem witness_lfo : (withOsc osc).regs.fault = false ∧ (withOsc osc).regs.lfo = some osc ∧ (withOsc osc).regs.eng = none ∧
    positive 0x00000001#32 = true ∧ positive 0x80000000#32 = false ∧ positive 0x7FC00000#32 = false := by decide

theorem witness_phaseBounded : isFinite (fadd osc.phase osc.increment) = true ∧ fge osc.phase 0x00000000#32 = true ∧
    flt osc.phase 0x40C90FDB#32 = true ∧ fge osc.increment 0x00000000#32 = true ∧ flt osc.increment 0x40C90FDB#32 = true ∧
    isFinite (fadd 0x7F800000#32 osc.increment) = false := by decide

theorem witness_phaseContinuous :
    exec (.engSetp .mf 0x40000000#32) built =
      .next { built.setAll (ownedDelayLine 2 4) { osc with freq := 0x40000000#32 } { eng with mf := 0x40000000#32 } with
        rsp := [0x00000000#32] } ∧
    response (exec (.engProc [0x3F800000#32]) built) = some [0x00000000#32, 0x00000000#32] ∧ built.regs.lfo = some osc ∧
    response (exec .lfoAdv (withOsc osc)) = some [0x00000000#32, 0x00000000#32] ∧ (withOsc osc).regs.lfo = some osc := by
  refine ⟨rfl, ?_⟩
  decide

theorem witness_sizing : nonNegative 0x00000000#32 = true ∧ nonNegative 0x80000000#32 = true ∧
    engineSize 65536 0x40800000#32 0x00000000#32 0x3F000000#32 = some (2, 4) := by decide

theorem witness_engNew : built.regs.fault = false := by decide

/-- The state right after the construction of V30 has the invariants. -/
theorem witness_built_inv : built.Inv := by
  refine ⟨⟨by decide, by decide, ?_, by decide⟩, fun _ => ⟨?_, ?_⟩, fun _ => ?_⟩
  · intro d hd
    obtain rfl : ownedDelayLine 2 4 = d := by simpa [built] using hd
    exact ⟨by decide, by decide, by decide, by decide, by decide, by decide⟩
  · intro o ho
    obtain rfl : osc = o := by simpa [built] using ho
    exact ⟨by decide, by decide, by decide, by decide⟩
  · intro e he
    obtain rfl : eng = e := by simpa [built] using he
    exact ⟨by decide, by decide, by decide, by decide, by decide, by decide, by decide, by decide⟩
  · intro e d o he hd ho
    obtain rfl : eng = e := by simpa [built] using he
    obtain rfl : ownedDelayLine 2 4 = d := by simpa [built] using hd
    obtain rfl : osc = o := by simpa [built] using ho
    exact ⟨rfl, rfl, rfl, rfl, rfl, 2, by decide, by decide⟩

/-- With a frame pending too: what `StepKeepsInvariant` and `StepNeverStops` ask for. -/
theorem witness_step : (built.withFrame (encode .engReset)).Inv ∧
    response (step (built.withFrame (encode .engReset))) = some [0x00000000#32] :=
  ⟨witness_built_inv, by decide⟩

theorem witness_engReset : built.regs.fault = false ∧ built.regs.dl = some (ownedDelayLine 2 4) ∧ built.regs.lfo = some osc ∧
    built.regs.eng = some eng ∧ engineSize built.capMax eng.sr0 eng.depth0 eng.base0 = some (2, 4) ∧ built.Inv :=
  ⟨rfl, rfl, rfl, rfl, by decide, witness_built_inv⟩

theorem witness_engSetp : built.regs.fault = false ∧ built.regs.dl = some (ownedDelayLine 2 4) ∧ built.regs.lfo = some osc ∧
    built.regs.eng = some eng ∧ positive 0x7F800000#32 = true ∧ positive 0x00000000#32 = false := by decide

/-- An engine command's hypotheses, the offset 2.0 in range for `N = 4`. -/
theorem witness_engProc : built.regs.fault = false ∧ built.regs.dl = some (ownedDelayLine 2 4) ∧ built.regs.lfo = some osc ∧
    built.regs.eng = some eng ∧ (ownedDelayLine 2 4).w < (ownedDelayLine 2 4).n ∧ (ownedDelayLine 2 4).buf.wf ∧
    (let off := fadd (fround (fmul eng.base eng.sr)) (fmul (fmul eng.depth (fround (fmul eng.base eng.sr))) (SIN osc.phase))
     isNaN off = false ∧ flt off 0x00000000#32 = false ∧ fge off (u2f ((ownedDelayLine 2 4).n - 1)) = false) := by decide

/-- V36 (b): the offset 4.0 is not below 3.0. -/
theorem witness_engProcFaults : outgrown.regs.fault = false ∧ outgrown.regs.dl = some (ownedDelayLine 2 4) ∧
    outgrown.regs.lfo = some osc ∧ outgrown.regs.eng = some { eng with base := 0x3F800000#32 } ∧
    (let e := { eng with base := 0x3F800000#32 }
     let off := fadd (fround (fmul e.base e.sr)) (fmul (fmul e.depth (fround (fmul e.base e.sr))) (SIN osc.phase))
     fge off (u2f ((ownedDelayLine 2 4).n - 1)) = true) := by decide

/-- A block that ends with `OK`, and one that ends with `FAULT`. -/
theorem witness_blocks : response (exec (.engProc [0x3F800000#32]) built) = some [0x00000000#32, 0x00000000#32] ∧
    lastWord [0x00000000#32, 0x00000000#32] = 0x00000000#32 ∧
    response (exec (.engProc [0x3F800000#32]) outgrown) = some [0x00000006#32] ∧
    lastWord [0x00000006#32] ≠ 0x00000000#32 := by decide

/-- V30's engine: what `ZeroDepthIdentity`, `FreshEngineNeverFaults` and `StoreHoldsHistory` ask for. -/
theorem witness_freshEngine : State.reset.regs.fault = false ∧ State.reset.capMax ≤ 2 ^ 24 ∧ positive 0x40800000#32 = true ∧
    positive 0x3F800000#32 = true ∧ isZero 0x00000000#32 = true ∧ positive 0x3F000000#32 = true ∧
    engineSize State.reset.capMax 0x40800000#32 0x00000000#32 0x3F000000#32 = some (2, 4) ∧
    isFinite (fdiv (fmul 0x40C90FDB#32 0x3F800000#32) 0x40800000#32) = true ∧
    response (exec (.engNew 0x40800000#32 0x3F800000#32 0x00000000#32 0x3F000000#32) State.reset) = some [0x00000000#32] ∧
    lastWord [0x00000000#32] = 0x00000000#32 ∧
    response (exec (.engProc [0x3F800000#32]) built) = some [0x00000000#32, 0x00000000#32] := by decide

theorem witness_silence : built.regs.fault = false ∧ built.regs.dl = some (ownedDelayLine 2 4) ∧
    (ownedDelayLine 2 4).buf.wf ∧ response (exec (.engProc [0x80000000#32]) built) = some [0x00000000#32, 0x00000000#32] ∧
    (∀ a, (ownedDelayLine 2 4).buf.read a = 0x00000000#32) ∧ (∀ x ∈ [0x80000000#32], isZero x = true) ∧
    (∀ x ∈ [0x00000000#32], x = 0x00000000#32) :=
  ⟨by decide, by decide, by decide, by decide, read_zeroed, by simp [isZero, magBits], by simp⟩

/-- V31's engine: depth 0.5, base 0.5, sample rate 8.0; the oscillator at both ends. -/
theorem witness_sizingInvariant : (65536 : Nat) ≤ 2 ^ 24 ∧ nonNegative 0x3F000000#32 = true ∧
    engineSize 65536 0x41000000#32 0x3F000000#32 0x3F000000#32 = some (4, 8) ∧ isFinite 0x3F800000#32 = true ∧
    -1 ≤ realOf 0x3F800000#32 ∧ realOf 0x3F800000#32 ≤ 1 ∧ -1 ≤ realOf 0xBF800000#32 ∧ realOf 0xBF800000#32 ≤ 1 := by decide +kernel

theorem witness_originalsKept : exec (.lfoGetp .sr) built = .next { built with rsp := [0x40800000#32, 0x00000000#32] } ∧
    lastWord [0x40800000#32, 0x00000000#32] ≠ 0x00000006#32 := ⟨rfl, by decide⟩

theorem witness_time : Instr.engGetp .sr ≠ .engGett ∧
    built.forgetTime = (built.setEng { eng with time := 0x3F800000#32 }).forgetTime ∧
    response (exec (.engGetp .sr) built) = some [0x40800000#32, 0x00000000#32] := by decide

end Sys2Proof.Tests
end

section
/-! The invariants of 10_state.md (R12, R13, R16, R18, R21, R23) as facts about the parts of a state: which updates of a
component keep its type, its domain and its originals. A later part lists what every command can do in these terms. -/

namespace Sys2Proof.Machine

/-! ### The Delay Line (10_state.md R13, R16) -/

/-- A change of a Delay Line that writes no capacity and stays inside the type of R16. -/
structure DelayLine.Update (capMax : Nat) (d d' : DelayLine) : Prop where
  capacity : d'.n = d.n
  ok : d.ok capMax → d'.ok capMax

namespace DelayLine.Update

variable {capMax : Nat} {d d' d'' : DelayLine}

theorem trans (h : DelayLine.Update capMax d d') (h' : DelayLine.Update capMax d' d'') :
    DelayLine.Update capMax d d'' :=
  ⟨h'.capacity.trans h.capacity, h'.ok ∘ h.ok⟩

/-- `MemWrite` stays inside the store (20_memory.md R41). -/
theorem of_memWrite {i : Nat} {v : F32} (h : d.memWrite i v = some d') : DelayLine.Update capMax d d' := by
  obtain ⟨hi, rfl⟩ := (memWrite_eq_some d d' i v).1 h
  exact ⟨rfl, fun ⟨h1, hn, hw, hr, hwf, hin⟩ =>
    ⟨h1, hn, hw, hr, write_wf _ _ _ hwf, write_within _ _ _ _ hi hin⟩⟩

theorem writeCursor (d : DelayLine) (k : Nat) : DelayLine.Update capMax d { d with w := k % d.n } :=
  ⟨rfl, fun ⟨h1, hn, _, hr, hwf, hin⟩ => ⟨h1, hn, Nat.mod_lt _ h1, hr, hwf, hin⟩⟩

theorem readCursor (d : DelayLine) (k : Nat) : DelayLine.Update capMax d { d with r := k % d.n } :=
  ⟨rfl, fun ⟨h1, hn, hw, _, hwf, hin⟩ => ⟨h1, hn, hw, Nat.mod_lt _ h1, hwf, hin⟩⟩

theorem advanceWrite (d : DelayLine) : DelayLine.Update capMax d d.advanceWrite := writeCursor d (d.w + 1)

theorem advanceRead (d : DelayLine) : DelayLine.Update capMax d d.advanceRead := readCursor d (d.r + 1)

/-- Clearing with the write cursor placed modulo the capacity; `DL_RESET` is the case 0. -/
theorem cleared (d : DelayLine) (k : Nat) : DelayLine.Update capMax d (d.cleared (k % d.n) 0) :=
  ⟨rfl, fun ⟨h1, hn, _⟩ => ⟨h1, hn, Nat.mod_lt _ h1, h1, zeroed_wf, zeroed_within _⟩⟩

end DelayLine.Update

theorem freshDelayLine_ok (capMax n : Nat) (h1 : 1 ≤ n) (hn : n ≤ capMax) : (freshDelayLine n).ok capMax :=
  ⟨h1, hn, h1, h1, zeroed_wf, zeroed_within _⟩

theorem ownedDelayLine_ok (capMax d n : Nat) (h1 : 1 ≤ n) (hn : n ≤ capMax) : (ownedDelayLine d n).ok capMax :=
  ⟨h1, hn, Nat.mod_lt _ h1, h1, zeroed_wf, zeroed_within _⟩

/-- The free values of a fault are brought into the registers' types (60_exceptions.md R217). -/
theorem faultedDelayLine_ok (capMax k : Nat) (h : 1 ≤ capMax) : (faultedDelayLine capMax k).ok capMax :=
  ⟨Nat.succ_pos _, Nat.mod_lt _ h, Nat.mod_lt _ (Nat.succ_pos _), Nat.mod_lt _ (Nat.succ_pos _), fill_wf _ _,
    fill_within _ _⟩

/-- The distance of the cursors is the write cursor where the read cursor is 0 (40_numerics.md R110). -/
theorem len_of_r_zero (d : DelayLine) (h : d.r = 0) : d.len = d.w := by
  simp [DelayLine.len, wrapSub, h]

/-- Both cursors advanced keep their distance (43_engine.md R177, 10_state.md R23). -/
theorem wrapSub_succ_succ (w r n : Nat) (hw : w < n) (hr : r < n) :
    wrapSub ((w + 1) % n) ((r + 1) % n) n = wrapSub w r n := by
  have succ_mod : ∀ k < n, (k + 1) % n = if k + 1 = n then 0 else k + 1 := fun k hk => by
    split_ifs with h
    · rw [h, Nat.mod_self]
    · exact Nat.mod_eq_of_lt (by omega)
  rw [succ_mod w hw, succ_mod r hr]
  unfold wrapSub
  split_ifs <;> omega

/-! ### The Oscillator (10_state.md R18, R20) -/

/-- A change of an oscillator that writes no original and stays inside the domain of R18. -/
structure Oscillator.Update (o o' : Oscillator) : Prop where
  originals : (o'.sr0, o'.freq0, o'.phase0) = (o.sr0, o.freq0, o.phase0)
  inDomain : o.InDomain → o'.InDomain

theorem Oscillator.Update.restored (o : Oscillator) : Oscillator.Update o o.restored :=
  ⟨rfl, fun ⟨_, _, hsr0, hfreq0⟩ => ⟨hsr0, hfreq0, hsr0, hfreq0⟩⟩

theorem Oscillator.Update.set (o : Oscillator) (p : LfoParam) (v : F32) (hv : lfoAccepts p v = true) :
    Oscillator.Update o (o.set p v) where
  originals := by simp
  inDomain := fun ⟨hsr, hfreq, horiginals⟩ => by
    cases p with
    | sr => exact ⟨hv, hfreq, horiginals⟩
    | freq => exact ⟨hsr, hv, horiginals⟩
    | phase => exact ⟨hsr, hfreq, horiginals⟩

theorem Oscillator.Update.advance (o : Oscillator) : Oscillator.Update o o.advance := ⟨rfl, id⟩

/-- No operand is refused exactly where every check accepts (60_exceptions.md R219 step 6). -/
@[simp] theorem firstInvalid_cons_eq_none (esel : BitVec 8) (v : F32) (accepted : Bool)
    (rest : List (BitVec 8 × F32 × Bool)) :
    firstInvalid ((esel, v, accepted) :: rest) = none ↔ accepted = true ∧ firstInvalid rest = none := by
  cases accepted <;> simp [firstInvalid]

@[simp] theorem firstInvalid_nil : firstInvalid [] = none := rfl

theorem lfoNewInvalid_eq_none (sr freq : F32) (h : lfoNewInvalid sr freq = none) :
    positive sr = true ∧ positive freq = true := by
  simpa [lfoNewInvalid] using h

theorem freshOscillator_inDomain (sr freq phase : F32) (hsr : positive sr = true) (hfreq : positive freq = true) :
    (freshOscillator sr freq phase).InDomain := ⟨hsr, hfreq, hsr, hfreq⟩

/-! ### The Engine with its leaves (10_state.md R21 to R23) -/

/-- What the invariants say of an engine and the leaves it owns. -/
structure Voice.Ok (capMax : Nat) (v : Voice) : Prop where
  dl : v.dl.ok capMax
  lfo : v.lfo.InDomain
  eng : v.eng.InDomain
  owns : Owns capMax v.eng v.dl v.lfo

/-- A change of an engine and its leaves that writes no capacity and no original and keeps the invariants. -/
structure Voice.Update (capMax : Nat) (v v' : Voice) : Prop where
  capacity : v'.dl.n = v.dl.n
  lfoOriginals : (v'.lfo.sr0, v'.lfo.freq0, v'.lfo.phase0) = (v.lfo.sr0, v.lfo.freq0, v.lfo.phase0)
  engOriginals : (v'.eng.sr0, v'.eng.mf0, v'.eng.depth0, v'.eng.base0) =
    (v.eng.sr0, v.eng.mf0, v.eng.depth0, v.eng.base0)
  ok : v.Ok capMax → v'.Ok capMax

theorem Voice.Update.refl {capMax : Nat} (v : Voice) : Voice.Update capMax v v := ⟨rfl, rfl, rfl, id⟩

theorem Voice.Update.trans {capMax : Nat} {v v' v'' : Voice} (h : Voice.Update capMax v v')
    (h' : Voice.Update capMax v' v'') : Voice.Update capMax v v'' :=
  ⟨h'.capacity.trans h.capacity, h'.lfoOriginals.trans h.lfoOriginals, h'.engOriginals.trans h.engOriginals,
    h'.ok ∘ h.ok⟩

theorem nonNegative_of_positive (v : F32) (h : positive v = true) : nonNegative v = true := by
  simp only [positive, flt, nonNegative, fge, Bool.and_eq_true, decide_eq_true_eq] at h ⊢
  obtain ⟨⟨hzero, hv⟩, hlt⟩ := h
  exact ⟨⟨hv, hzero⟩, hlt.le⟩

/-- `ENG_SETP` accepts values above 0 only, the depth included, and keeps the copies equal (43_engine.md R174). -/
theorem Voice.Update.set (capMax : Nat) (d : DelayLine) (o : Oscillator) (e : Engine) (p : EngParam) (value : F32)
    (hv : positive value = true) : Voice.Update capMax ⟨d, o, e⟩ ⟨d, o.follow p value, e.set p value⟩ where
  capacity := rfl
  lfoOriginals := by simp
  engOriginals := by simp
  ok := fun ⟨hd, ⟨hosr, hofreq, hooriginals⟩, ⟨hsr, hmf, hdepth, hbase, horiginals⟩, ⟨hcsr, hcmf, hsizing⟩⟩ => by
    cases p with
    | sr => exact ⟨hd, ⟨hv, hofreq, hooriginals⟩, ⟨hv, hmf, hdepth, hbase, horiginals⟩, ⟨rfl, hcmf, hsizing⟩⟩
    | mf => exact ⟨hd, ⟨hosr, hv, hooriginals⟩, ⟨hsr, hv, hdepth, hbase, horiginals⟩, ⟨hcsr, rfl, hsizing⟩⟩
    | depth =>
      exact ⟨hd, ⟨hosr, hofreq, hooriginals⟩, ⟨hsr, hmf, nonNegative_of_positive value hv, hbase, horiginals⟩,
        ⟨hcsr, hcmf, hsizing⟩⟩
    | base => exact ⟨hd, ⟨hosr, hofreq, hooriginals⟩, ⟨hsr, hmf, hdepth, hv, horiginals⟩, ⟨hcsr, hcmf, hsizing⟩⟩

/-- `ENG_RESET` places the cursors where the sizing of the originals wants them (43_engine.md R173). -/
theorem Voice.Update.restored (capMax d0 n0 : Nat) (d : DelayLine) (o : Oscillator) (e : Engine)
    (hsize : engineSize capMax e.sr0 e.depth0 e.base0 = some (d0, n0)) :
    Voice.Update capMax ⟨d, o, e⟩ ⟨d.cleared ((2 * d0) % d.n) 0, o.restored, e.restored⟩ where
  capacity := rfl
  lfoOriginals := rfl
  engOriginals := rfl
  ok := fun ⟨hd, ho, ⟨_, _, _, _, hsr0, hmf0, hdepth0, hbase0⟩, ⟨_, _, hcsr0, hcmf0, hphase0, d1, hsize', _⟩⟩ => by
    obtain ⟨rfl, hn⟩ : d0 = d1 ∧ n0 = d.n := by simpa [hsize] using hsize'
    exact ⟨(DelayLine.Update.cleared d _).ok hd, (Oscillator.Update.restored o).inDomain ho,
      ⟨hsr0, hmf0, hdepth0, hbase0, hsr0, hmf0, hdepth0, hbase0⟩,
      ⟨hcsr0, hcmf0, hcsr0, hcmf0, hphase0, d0, hsize', len_of_r_zero _ rfl⟩⟩

/-- A sample step advances both cursors and writes the phase and the time alone of the registers (43_engine.md R177). -/
theorem Voice.Update.of_sampleStep (capMax : Nat) (x y : F32) (v v' : Voice) (h : sampleStep x v = .output y v') :
    Voice.Update capMax v v' := by
  obtain ⟨-, -, hw, rfl⟩ := sampleStep_output x y v v' h
  refine ⟨rfl, rfl, rfl, fun ⟨hd, ho, he, hsr, hmf, hsr0, hmf0, hphase0, d0, hsize, hlen⟩ => ?_⟩
  obtain ⟨-, -, -, hr, -, -⟩ := id hd
  have hline : DelayLine.Update capMax v.dl
      ⟨v.dl.n, (v.dl.w + 1) % v.dl.n, (v.dl.r + 1) % v.dl.n, v.dl.buf.write v.dl.w x⟩ :=
    (DelayLine.Update.of_memWrite (memWrite_of_lt v.dl v.dl.w x hw)).trans
      ((DelayLine.Update.advanceWrite _).trans (DelayLine.Update.advanceRead _))
  exact ⟨hline.ok hd, ho, he, hsr, hmf, hsr0, hmf0, hphase0, d0, hsize,
    (wrapSub_succ_succ v.dl.w v.dl.r v.dl.n hw hr).trans hlen⟩

theorem BlockOutcome.cons_eq_outputs (y : F32) (b : BlockOutcome) (ys : List F32) (v : Voice)
    (h : b.cons y = .outputs ys v) : ∃ ys', b = .outputs ys' v := by
  cases b with
  | outputs ys' v' =>
    injection h with _ hv
    exact ⟨ys', by rw [hv]⟩
  | outOfRange ys' => exact absurd h (by simp [BlockOutcome.cons])
  | bounds => exact absurd h (by simp [BlockOutcome.cons])

theorem Voice.Update.of_runBlock (capMax : Nat) (xs ys : List F32) (v v' : Voice)
    (h : runBlock xs v = .outputs ys v') : Voice.Update capMax v v' := by
  induction xs generalizing v ys with
  | nil =>
    obtain ⟨-, rfl⟩ : [] = ys ∧ v = v' := by simpa using h
    exact refl v
  | cons x xs ih =>
    rw [runBlock] at h
    split at h
    · exact absurd h (by simp)
    · exact absurd h (by simp)
    next y w hw =>
      obtain ⟨ys', hrest⟩ := BlockOutcome.cons_eq_outputs y _ ys v' h
      exact (of_sampleStep capMax x y v w hw).trans (ih ys' w hrest)

theorem engNewInvalid_eq_none (sr mf depth base : F32) (h : engNewInvalid sr mf depth base = none) :
    positive sr = true ∧ positive mf = true ∧ nonNegative depth = true ∧ positive base = true := by
  simpa [engNewInvalid] using h

/-- What `ENG_NEW` builds meets the invariants: the sizing leaves at least `MARGIN` words (43_engine.md R170 to R172). -/
theorem freshVoice_ok (capMax d n : Nat) (sr mf depth base : F32)
    (hvalid : engNewInvalid sr mf depth base = none) (hsize : engineSize capMax sr depth base = some (d, n)) :
    Voice.Ok capMax ⟨ownedDelayLine d n, freshOscillator sr mf Config.phase0, freshEngine sr mf depth base⟩ := by
  obtain ⟨hsr, hmf, hdepth, hbase⟩ := engNewInvalid_eq_none sr mf depth base hvalid
  obtain ⟨-, -, -, -, -, hn, hle⟩ := engineSize_eq_some capMax sr depth base d n hsize
  have h1 : 1 ≤ n := by simp only [Config.margin] at hn; omega
  exact ⟨ownedDelayLine_ok capMax d n h1 hle, freshOscillator_inDomain sr mf _ hsr hmf,
    ⟨hsr, hmf, hdepth, hbase, hsr, hmf, hdepth, hbase⟩,
    ⟨rfl, rfl, rfl, rfl, rfl, d, hsize, len_of_r_zero _ rfl⟩⟩

end Sys2Proof.Machine
end

section
/-! All that a command can do to a state, said once (`exec_effect`); the invariants and the frame of the originals follow from
it without a second case analysis over the commands. -/

namespace Sys2Proof.Machine

/-- The ways a command `i` can leave a state: nothing but the response changed, the fault of 60_exceptions.md R217, a
constructor's result, an update of a standalone leaf or of an engine with its leaves, or `ENG_FREE`. The hypotheses of a
constructor are the checks that the command has passed. -/
inductive Effect (s : State) (i : Instr) : State → Prop
  | kept (rsp : List Word) : Effect s i { s with rsp := rsp }
  | faulted (ys : List F32) :
      Effect s i { s with regs := s.regs.faulted s.capMax s.freeIdx, freeIdx := s.freeIdx + 1,
                          rsp := responseFrame ys .fault 0#8 }
  | newLine (rsp : List Word) (capacity : Word) (command : i = .dlNew capacity) (alone : s.regs.eng = none)
      (valid : validCapacity s.capMax capacity = true) :
      Effect s i { s.setDl (freshDelayLine capacity.toNat) with rsp := rsp }
  | line (rsp : List Word) (d d' : DelayLine) (present : s.regs.dl = some d) (alone : s.regs.eng = none)
      (update : DelayLine.Update s.capMax d d') : Effect s i { s.setDl d' with rsp := rsp }
  | newOscillator (rsp : List Word) (sr freq phase : F32) (command : i = .lfoNew sr freq phase)
      (alone : s.regs.eng = none) (valid : lfoNewInvalid sr freq = none) :
      Effect s i { s.setLfo (freshOscillator sr freq phase) with rsp := rsp }
  | oscillator (rsp : List Word) (o o' : Oscillator) (running : s.regs.fault = false) (present : s.regs.lfo = some o)
      (alone : s.regs.eng = none) (update : Oscillator.Update o o') : Effect s i { s.setLfo o' with rsp := rsp }
  | newEngine (rsp : List Word) (sr mf depth base : F32) (d n : Nat) (command : i = .engNew sr mf depth base)
      (valid : engNewInvalid sr mf depth base = none) (size : engineSize s.capMax sr depth base = some (d, n)) :
      Effect s i
        { s.setAll (ownedDelayLine d n) (freshOscillator sr mf Config.phase0) (freshEngine sr mf depth base) with
          rsp := rsp }
  | engine (rsp : List Word) (d : DelayLine) (o : Oscillator) (e : Engine) (v : Voice) (running : s.regs.fault = false)
      (line : s.regs.dl = some d) (oscillator : s.regs.lfo = some o) (present : s.regs.eng = some e)
      (update : Voice.Update s.capMax ⟨d, o, e⟩ v) : Effect s i { s.setAll v.dl v.lfo v.eng with rsp := rsp }
  | freed (rsp : List Word) (command : i = .engFree) : Effect s i { s.freed with rsp := rsp }

section
variable {s t : State} {i : Instr}

/-! ### How a command ends -/

theorem respond_effect {rs : List Word} (h : respond rs s = .next t) : Effect s i t := by
  obtain rfl := (respond_eq_next rs s t).1 h
  exact .kept _

theorem refuse_effect {st : Status} (h : refuse st s = .next t) : Effect s i t := by
  obtain rfl := (refuse_eq_next st s t).1 h
  exact .kept _

theorem rejectValue_effect {esel : BitVec 8} {v : F32} (h : rejectValue esel v s = .next t) : Effect s i t := by
  obtain rfl := (rejectValue_eq_next esel v s t).1 h
  exact .kept _

theorem takeFault_effect {ys : List F32} (h : takeFault ys s = .next t) : Effect s i t := by
  obtain rfl := (takeFault_eq_next ys s t).1 h
  exact .faulted ys

/-! ### The common checks: a refusal changes the response alone -/

theorem newLeaf_effect {k : Result} (h : newLeaf s k = .next t)
    (hk : s.regs.eng = none → k = .next t → Effect s i t) : Effect s i t := by
  rcases newLeaf_next s t k h with ⟨st, h⟩ | ⟨-, he, h⟩
  · exact refuse_effect h
  · exact hk he h

theorem readDl_effect {k : DelayLine → Result} (h : readDl s k = .next t)
    (hk : ∀ d, k d = .next t → Effect s i t) : Effect s i t := by
  rcases readDl_next s t k h with ⟨st, h⟩ | ⟨d, -, -, h⟩
  · exact refuse_effect h
  · exact hk d h

theorem readLfo_effect {k : Oscillator → Result} (h : readLfo s k = .next t)
    (hk : ∀ o, k o = .next t → Effect s i t) : Effect s i t := by
  rcases readLfo_next s t k h with ⟨st, h⟩ | ⟨o, -, -, h⟩
  · exact refuse_effect h
  · exact hk o h

/-- A mutating Delay Line command that answers with an updated line. -/
theorem mutateDl_effect {k : DelayLine → Result} (h : mutateDl s k = .next t)
    (hk : ∀ d, k d = .next t → ∃ rs d', DelayLine.Update s.capMax d d' ∧ respond rs (s.setDl d') = .next t) :
    Effect s i t := by
  rcases mutateDl_next s t k h with ⟨st, h⟩ | ⟨d, -, hd, he, h⟩
  · exact refuse_effect h
  · obtain ⟨rs, d', hu, h⟩ := hk d h
    obtain rfl := (respond_eq_next rs _ t).1 h
    exact .line _ d d' hd he hu

/-- A mutating Oscillator command that answers with an updated oscillator, or rejects its value. -/
theorem mutateLfo_effect {k : Oscillator → Result} (h : mutateLfo s k = .next t)
    (hk : ∀ o, k o = .next t → (∃ rs o', Oscillator.Update o o' ∧ respond rs (s.setLfo o') = .next t) ∨
      ∃ esel v, rejectValue esel v s = .next t) : Effect s i t := by
  rcases mutateLfo_next s t k h with ⟨st, h⟩ | ⟨o, hf, ho, he, h⟩
  · exact refuse_effect h
  · rcases hk o h with ⟨rs, o', hu, h⟩ | ⟨esel, v, h⟩
    · obtain rfl := (respond_eq_next rs _ t).1 h
      exact .oscillator _ o o' hf ho he hu
    · exact rejectValue_effect h

theorem onEng_effect {k : Engine → Result} (h : onEng s k = .next t)
    (hk : ∀ e, s.regs.fault = false → s.regs.eng = some e → k e = .next t → Effect s i t) : Effect s i t := by
  rcases onEng_next s t k h with ⟨st, h⟩ | ⟨e, hf, he, h⟩
  · exact refuse_effect h
  · exact hk e hf he h

/-! ### The commands with branches of their own -/

theorem execDlNew_effect (capacity : Word) (h : execDlNew capacity s = .next t) : Effect s (.dlNew capacity) t :=
  newLeaf_effect h fun he hk => by
    split at hk
    next hvalid =>
      obtain rfl := (respond_eq_next _ _ t).1 hk
      exact .newLine _ capacity rfl he hvalid
    next => exact refuse_effect hk

theorem execDlPush_effect (value : F32) (h : execDlPush value s = .next t) : Effect s i t :=
  mutateDl_effect h fun _ hk => by
    obtain ⟨d', hw, hk⟩ := withStore_next _ _ _ hk
    exact ⟨_, _, (DelayLine.Update.of_memWrite hw).trans (.advanceWrite d'), hk⟩

theorem execDlPop_effect (h : execDlPop s = .next t) : Effect s i t :=
  mutateDl_effect h fun d hk => by
    obtain ⟨v, -, hk⟩ := withStore_next _ _ _ hk
    exact ⟨_, _, .advanceRead d, hk⟩

theorem execDlPut_effect (value : F32) (h : execDlPut value s = .next t) : Effect s i t :=
  mutateDl_effect h fun _ hk => by
    obtain ⟨d', hw, hk⟩ := withStore_next _ _ _ hk
    exact ⟨_, _, .of_memWrite hw, hk⟩

/-- A command that answers a word read from the store. -/
theorem withStore_respond_effect {access : Option F32} (h : withStore access (fun v => respond [v] s) = .next t) :
    Effect s i t := by
  obtain ⟨v, -, h⟩ := withStore_next _ _ _ h
  exact respond_effect h

theorem execDlGetf_effect (offset : F32) (h : execDlGetf offset s = .next t) : Effect s i t :=
  readDl_effect h fun d hk => by
    split at hk
    · exact takeFault_effect hk
    · exact withStore_respond_effect hk

theorem execLfoNew_effect (sr freq phase : F32) (h : execLfoNew sr freq phase s = .next t) :
    Effect s (.lfoNew sr freq phase) t :=
  newLeaf_effect h fun he hk => by
    rcases unlessInvalid_next s t _ _ hk with ⟨esel, v, -, hk⟩ | ⟨hvalid, hk⟩
    · exact rejectValue_effect hk
    · obtain rfl := (respond_eq_next _ _ t).1 hk
      exact .newOscillator _ sr freq phase rfl he hvalid

theorem execLfoSetp_effect (sel : LfoParam) (value : F32) (h : execLfoSetp sel value s = .next t) : Effect s i t :=
  mutateLfo_effect h fun o hk => by
    split at hk
    next hv => exact .inl ⟨_, _, .set o sel value hv, hk⟩
    next => exact .inr ⟨_, _, hk⟩

theorem execEngNew_effect (sr mf depth base : F32) (h : execEngNew sr mf depth base s = .next t) :
    Effect s (.engNew sr mf depth base) t := by
  rcases unlessFaulted_next s t _ h with ⟨-, h⟩ | ⟨-, h⟩
  · exact refuse_effect h
  rcases unlessInvalid_next s t _ _ h with ⟨esel, v, -, h⟩ | ⟨hvalid, h⟩
  · exact rejectValue_effect h
  split at h
  · exact refuse_effect h
  next d n hsize =>
    obtain rfl := (respond_eq_next _ _ t).1 h
    exact .newEngine _ sr mf depth base d n rfl hvalid hsize

theorem execEngReset_effect (h : execEngReset s = .next t) : Effect s i t :=
  onEng_effect h fun e hf he hk => by
    obtain ⟨d, o, hd, ho, hk⟩ := withOwned_next s t _ hk
    split at hk
    · exact absurd hk (by simp)
    next d0 n0 hsize =>
      obtain rfl := (respond_eq_next _ _ t).1 hk
      exact .engine _ d o e _ hf hd ho he (.restored s.capMax d0 n0 d o e hsize)

theorem execEngSetp_effect (sel : EngParam) (value : F32) (h : execEngSetp sel value s = .next t) : Effect s i t :=
  onEng_effect h fun e hf he hk => by
    split at hk
    next hv =>
      obtain ⟨d, o, hd, ho, hk⟩ := withOwned_next s t _ hk
      obtain rfl := (respond_eq_next _ _ t).1 hk
      exact .engine _ d o e _ hf hd ho he (.set s.capMax d o e sel value hv)
    next => exact rejectValue_effect hk

theorem execEngProc_effect (samples : List F32) (h : execEngProc samples s = .next t) : Effect s i t :=
  onEng_effect h fun e hf he hk => by
    obtain ⟨d, o, hd, ho, hk⟩ := withOwned_next s t _ hk
    split at hk
    next ys v hrun =>
      obtain rfl := (respond_eq_next _ _ t).1 hk
      exact .engine _ d o e v hf hd ho he (.of_runBlock s.capMax samples ys _ v hrun)
    next => exact takeFault_effect hk
    next => exact absurd hk (by simp)

theorem execEngFree_effect (h : execEngFree s = .next t) : Effect s .engFree t :=
  onEng_effect h fun _ _ _ hk => by
    obtain rfl := (respond_eq_next _ _ t).1 hk
    exact .freed _ rfl

end

/-- Every command that answers a next state does one of the things `Effect` lists. -/
theorem exec_effect (i : Instr) (s t : State) (h : exec i s = .next t) : Effect s i t := by
  cases i with
  | sysStatus => exact respond_effect h
  | dlNew capacity => exact execDlNew_effect capacity h
  | dlReset => exact mutateDl_effect h fun d hk => ⟨_, _, Nat.zero_mod d.n ▸ .cleared d 0, hk⟩
  | dlPush value => exact execDlPush_effect value h
  | dlPop => exact execDlPop_effect h
  | dlPut value => exact execDlPut_effect value h
  | dlPeek => exact readDl_effect h fun _ => withStore_respond_effect
  | dlGet offset => exact readDl_effect h fun _ => withStore_respond_effect
  | dlGetf offset => exact execDlGetf_effect offset h
  | dlGetwi => exact readDl_effect h fun _ => respond_effect
  | dlSetwi index => exact mutateDl_effect h fun d hk => ⟨_, _, .writeCursor d index.toNat, hk⟩
  | dlGetri => exact readDl_effect h fun _ => respond_effect
  | dlSetri index => exact mutateDl_effect h fun d hk => ⟨_, _, .readCursor d index.toNat, hk⟩
  | dlLen => exact readDl_effect h fun _ => respond_effect
  | dlCap => exact readDl_effect h fun _ => respond_effect
  | lfoNew sr freq phase => exact execLfoNew_effect sr freq phase h
  | lfoReset => exact mutateLfo_effect h fun o hk => .inl ⟨_, _, .restored o, hk⟩
  | lfoSetp sel value => exact execLfoSetp_effect sel value h
  | lfoGetp sel => exact readLfo_effect h fun _ => respond_effect
  | lfoAdv => exact mutateLfo_effect h fun o hk => .inl ⟨_, _, .advance o, hk⟩
  | engNew sr mf depth base => exact execEngNew_effect sr mf depth base h
  | engReset => exact execEngReset_effect h
  | engSetp sel value => exact execEngSetp_effect sel value h
  | engGetp sel => exact onEng_effect h fun _ _ _ => respond_effect
  | engProc samples => exact execEngProc_effect samples h
  | engFree => exact execEngFree_effect h
  | engGett => exact onEng_effect h fun _ _ _ => respond_effect

end Sys2Proof.Machine
end

section
/-! The invariants hold at reset and every step keeps them (10_state.md R12, R13, R16, R18, R21, R23); capacity and originals
are written by constructors only (R13, R20, R22). -/

namespace Sys2Proof.Machine

/-! ### `State.Inv` through each update of the state -/

/-- With nothing constructed the invariants ask for `CAP_MAX`'s range alone. -/
theorem inv_of_none (s : State) (h1 : 1 ≤ s.capMax) (hle : s.capMax ≤ Config.capMaxLimit) (hd : s.regs.dl = none)
    (ho : s.regs.lfo = none) (he : s.regs.eng = none) : s.Inv := by
  simp [State.Inv, State.Typed, State.InDomain, State.Owned, Regs.engValid, h1, hle, hd, ho, he]

theorem inv_setDl (s : State) (d : DelayLine) (h : s.Inv) (he : s.regs.eng = none) (hd : d.ok s.capMax) :
    (s.setDl d).Inv := by
  obtain ⟨⟨h1, hle, -, -⟩, hdomain, -⟩ := h
  refine ⟨⟨h1, hle, ?_, by simp [Regs.engValid, he]⟩, hdomain, by simp [State.Owned, he]⟩
  rintro _ ⟨⟩
  exact hd

theorem inv_setLfo (s : State) (o : Oscillator) (h : s.Inv) (he : s.regs.eng = none) (ho : o.InDomain) :
    (s.setLfo o).Inv := by
  obtain ⟨⟨h1, hle, hline, -⟩, -, -⟩ := h
  refine ⟨⟨h1, hle, hline, by simp [Regs.engValid, he]⟩, fun _ => ⟨?_, by simp [he]⟩, by simp [State.Owned, he]⟩
  rintro _ ⟨⟩
  exact ho

theorem inv_setAll (s : State) (v : Voice) (h : s.Inv) (hv : v.Ok s.capMax) : (s.setAll v.dl v.lfo v.eng).Inv := by
  obtain ⟨⟨h1, hle, -, -⟩, -, -⟩ := h
  refine ⟨⟨h1, hle, ?_, fun _ => ⟨rfl, rfl⟩⟩, fun _ => ⟨?_, ?_⟩, fun _ => ?_⟩
  · rintro _ ⟨⟩
    exact hv.dl
  · rintro _ ⟨⟩
    exact hv.lfo
  · rintro _ ⟨⟩
    exact hv.eng
  · rintro _ _ _ ⟨⟩ ⟨⟩ ⟨⟩
    exact hv.owns

/-- After a fault the types and the VALID flags are all the invariants ask for (60_exceptions.md R217). -/
theorem inv_faulted (s : State) (freeIdx k : Nat) (h : s.Inv) :
    State.Inv { s with regs := s.regs.faulted s.capMax k, freeIdx := freeIdx } := by
  obtain ⟨⟨h1, hle, -, hvalid⟩, -, -⟩ := h
  refine ⟨⟨h1, hle, fun d hd => ?_, by simpa using hvalid⟩, by simp [State.InDomain], by simp [State.Owned]⟩
  obtain ⟨_, -, rfl⟩ := Option.map_eq_some_iff.1 hd
  exact faultedDelayLine_ok s.capMax k h1

/-- The invariants give an engine and its leaves everything `Voice.Ok` asks for. -/
theorem voice_ok_of_inv (s : State) (d : DelayLine) (o : Oscillator) (e : Engine) (h : s.Inv)
    (hf : s.regs.fault = false) (hd : s.regs.dl = some d) (ho : s.regs.lfo = some o) (he : s.regs.eng = some e) :
    Voice.Ok s.capMax ⟨d, o, e⟩ := by
  obtain ⟨⟨-, -, hline, -⟩, hdomain, howned⟩ := h
  obtain ⟨hosc, heng⟩ := hdomain hf
  exact ⟨hline d hd, hosc o ho, heng e he, howned hf e d o he hd ho⟩

/-! ### Every step -/

theorem validCapacity_iff (capMax : Nat) (capacity : Word) :
    validCapacity capMax capacity = true ↔ 1 ≤ capacity.toNat ∧ capacity.toNat ≤ capMax := by
  simp [validCapacity]

/-- No command writes `CAP_MAX` (00_scope.md R9). -/
theorem Effect.capMax_eq {s t : State} {i : Instr} (h : Effect s i t) : t.capMax = s.capMax := by
  cases h <;> rfl

/-- Whatever a command does keeps the invariants; the response is not part of them. -/
theorem Effect.inv {s t : State} {i : Instr} (h : Effect s i t) (hs : s.Inv) : t.Inv := by
  cases h with
  | kept rsp => exact hs
  | faulted ys => exact inv_faulted s (s.freeIdx + 1) s.freeIdx hs
  | newLine rsp capacity _ alone valid =>
    obtain ⟨h1, hle⟩ := (validCapacity_iff s.capMax capacity).1 valid
    exact inv_setDl s _ hs alone (freshDelayLine_ok s.capMax _ h1 hle)
  | line rsp d d' present alone update =>
    obtain ⟨⟨-, -, hline, -⟩, -, -⟩ := id hs
    exact inv_setDl s d' hs alone (update.ok (hline d present))
  | newOscillator rsp sr freq phase _ alone valid =>
    obtain ⟨hsr, hfreq⟩ := lfoNewInvalid_eq_none sr freq valid
    exact inv_setLfo s _ hs alone (freshOscillator_inDomain sr freq phase hsr hfreq)
  | oscillator rsp o o' running present alone update =>
    obtain ⟨-, hdomain, -⟩ := id hs
    exact inv_setLfo s o' hs alone (update.inDomain ((hdomain running).1 o present))
  | newEngine rsp sr mf depth base d n _ valid size =>
    exact inv_setAll s ⟨_, _, _⟩ hs (freshVoice_ok s.capMax d n sr mf depth base valid size)
  | engine rsp d o e v running line oscillator present update =>
    exact inv_setAll s v hs (update.ok (voice_ok_of_inv s d o e hs running line oscillator present))
  | freed rsp _ =>
    obtain ⟨⟨h1, hle, -, -⟩, -, -⟩ := hs
    exact inv_of_none _ h1 hle rfl rfl rfl

/-- Settles O11: a command through what it can do, the other events through their one result each. -/
theorem stepKeepsInvariant : Obligations.StepKeepsInvariant := by
  intro s t hs h
  obtain ⟨⟨h1, hle, -, -⟩, -, -⟩ := id hs
  rcases step_next s t h with
    ⟨-, rfl⟩ | ⟨f, rest, i, -, -, h⟩ | ⟨f, rest, err, -, -, h⟩ | ⟨rest, -, rfl⟩ | ⟨f, rest, -, rfl⟩
  case inl => exact ⟨hs, rfl⟩
  case inr.inl =>
    have effect := exec_effect i _ t h
    exact ⟨effect.inv hs, effect.capMax_eq⟩
  case inr.inr.inl =>
    obtain rfl := (answerIllegal_eq_next _ t).1 h
    exact ⟨hs, rfl⟩
  case inr.inr.inr.inl => exact ⟨inv_of_none _ h1 hle rfl rfl rfl, rfl⟩
  case inr.inr.inr.inr => exact ⟨inv_of_none _ h1 hle rfl rfl rfl, rfl⟩

/-- Settles O10: nothing is constructed, and 65536 is in `CAP_MAX`'s range. -/
theorem resetMeetsInvariant : Obligations.ResetMeetsInvariant :=
  inv_of_none State.reset (by decide) (by decide) rfl rfl rfl

/-! ### Capacity and originals -/

/-- The status word is always last (30_encoding.md R70). -/
theorem lastWord_responseFrame (rs : List Word) (st : Status) (esel : BitVec 8) :
    lastWord (responseFrame rs st esel) = statusWord st esel := by
  simp [lastWord, responseFrame]

/-- Settles O59: of what a command can do, only the constructors, `ENG_FREE` and the fault write these registers. -/
theorem originalsAndCapacityKept : Obligations.OriginalsAndCapacityKept := by
  intro i s t h hstatus hfree hnew
  cases exec_effect i s t h with
  | kept rsp => exact ⟨fun _ => rfl, fun _ => rfl, rfl⟩
  | faulted ys => exact absurd (lastWord_responseFrame ys .fault 0#8) hstatus
  | newLine rsp capacity command => exact ⟨fun hi => absurd command (hi capacity), fun _ => rfl, rfl⟩
  | line rsp d d' present _ update => exact ⟨fun _ => by simp [present, update.capacity], fun _ => rfl, rfl⟩
  | newOscillator rsp sr freq phase command =>
    exact ⟨fun _ => rfl, fun hi => absurd command (hi sr freq phase), rfl⟩
  | oscillator rsp o o' _ present _ update => exact ⟨fun _ => rfl, fun _ => by simpa [present] using update.originals, rfl⟩
  | newEngine rsp sr mf depth base _ _ command => exact absurd command (hnew sr mf depth base)
  | engine rsp d o e v _ line oscillator present update =>
    exact ⟨fun _ => by simp [line, update.capacity], fun _ => by simpa [oscillator] using update.lfoOriginals,
      by simpa [present] using update.engOriginals⟩
  | freed rsp command => exact absurd command hfree

end Sys2Proof.Machine
end

section
/-! No command but `ENG_GETT` reads the time accumulator (10_state.md R22, 60_exceptions.md R226): each command, run once more
from the state with another time, gives the same outcome with another time (`exec_timeApart`). -/

namespace Sys2Proof.Machine

/-! ### The time replaced -/

/-- The engine with its time replaced. -/
def Engine.withTime (e : Engine) (time : F32) : Engine := { e with time := time }

/-- The state with its engine's time replaced. -/
def State.withTime (s : State) (time : F32) : State :=
  { s with regs := { s.regs with eng := s.regs.eng.map (fun e => e.withTime time) } }

/-- The engine and its leaves with the engine's time replaced. -/
def Voice.withTime (v : Voice) (time : F32) : Voice := { v with eng := v.eng.withTime time }

/-- The outcome of a sample step with the time after it replaced. -/
def SampleOutcome.withTime (time : F32) : SampleOutcome → SampleOutcome
  | .output y v => .output y (v.withTime time)
  | .outOfRange => .outOfRange
  | .bounds => .bounds

/-- The outcome of a block with the time after it replaced. -/
def BlockOutcome.withTime (time : F32) : BlockOutcome → BlockOutcome
  | .outputs ys v => .outputs ys (v.withTime time)
  | .outOfRange ys => .outOfRange ys
  | .bounds => .bounds

/-- Two results that differ at most in the time of their next states. -/
inductive TimeApart : Result → Result → Prop
  | next (t : State) (time : F32) : TimeApart (.next t) (.next (t.withTime time))
  | fault (r : Fault) : TimeApart (.fault r) (.fault r)
  | refused (r : Refusal) : TimeApart (.refused r) (.refused r)

theorem forgetTime_withTime (s : State) (time : F32) : (s.withTime time).forgetTime = s.forgetTime := by
  simp [State.forgetTime, State.withTime, Engine.withTime, Function.comp_def]

theorem withTime_forgetTime (s : State) (time : F32) : s.forgetTime.withTime time = s.withTime time := by
  simp [State.forgetTime, State.withTime, Engine.withTime, Function.comp_def]

/-- Every state is itself with some time put in place of its own. -/
theorem exists_withTime_eq_self (s : State) : ∃ time, s.withTime time = s := by
  obtain ⟨⟨fault, dl, lfo, eng⟩, rsp, capMax, inbox, freeIdx⟩ := s
  cases eng with
  | none => exact ⟨fzero, rfl⟩
  | some e => exact ⟨e.time, rfl⟩

/-- States that agree once their times are forgotten: one is the other with its time replaced. -/
theorem eq_withTime_of_forgetTime_eq (s s' : State) (h : s.forgetTime = s'.forgetTime) :
    ∃ time, s' = s.withTime time := by
  obtain ⟨time, hs'⟩ := exists_withTime_eq_self s'
  exact ⟨time, by rw [← withTime_forgetTime, h, withTime_forgetTime, hs']⟩

@[simp] theorem withTime_engValid (s : State) (time : F32) : (s.withTime time).regs.engValid = s.regs.engValid := by
  simp [State.withTime, Regs.engValid]

theorem withTime_flagsWord (s : State) (time : F32) : (s.withTime time).regs.flagsWord = s.regs.flagsWord := by
  simp only [Regs.flagsWord, withTime_engValid]
  rfl

/-- A fault leaves no trace of the time: every register is unspecified (60_exceptions.md R217). -/
theorem faulted_withTime (s : State) (time : F32) (capMax k : Nat) :
    (s.withTime time).regs.faulted capMax k = s.regs.faulted capMax k := by
  simp [Regs.faulted, State.withTime, Function.comp_def]

namespace TimeApart

variable (s : State) (time : F32)

/-! ### How a command ends -/

theorem refl (r : Result) : TimeApart r r := by
  cases r with
  | next t =>
    obtain ⟨time, ht⟩ := exists_withTime_eq_self t
    simpa only [ht] using TimeApart.next t time
  | fault r => exact .fault r
  | refused r => exact .refused r

theorem respond (rs : List Word) : TimeApart (Machine.respond rs s) (Machine.respond rs (s.withTime time)) :=
  .next _ time

theorem refuse (st : Status) : TimeApart (Machine.refuse st s) (Machine.refuse st (s.withTime time)) := .next _ time

theorem rejectValue (esel : BitVec 8) (v : F32) :
    TimeApart (Machine.rejectValue esel v s) (Machine.rejectValue esel v (s.withTime time)) := .next _ time

theorem takeFault (ys : List F32) : TimeApart (Machine.takeFault ys s) (Machine.takeFault ys (s.withTime time)) := by
  have h : Machine.takeFault ys (s.withTime time) = Machine.takeFault ys s := by
    simp only [Machine.takeFault, faulted_withTime]
    rfl
  exact h ▸ refl _

/-! ### The checks -/

theorem ite {c : Prop} [Decidable c] {k k' j j' : Result} (hk : TimeApart k k') (hj : TimeApart j j') :
    TimeApart (if c then k else j) (if c then k' else j') := by
  split
  · exact hk
  · exact hj

theorem withStore {α : Type} (access : Option α) {k k' : α → Result} (hk : ∀ a, TimeApart (k a) (k' a)) :
    TimeApart (Machine.withStore access k) (Machine.withStore access k') := by
  cases access with
  | none => exact .fault _
  | some a => exact hk a

theorem unlessInvalid (bad : Option (BitVec 8 × F32)) {k k' : Result} (hk : TimeApart k k') :
    TimeApart (Machine.unlessInvalid s bad k) (Machine.unlessInvalid (s.withTime time) bad k') := by
  cases bad with
  | none => exact hk
  | some bad => exact rejectValue s time bad.1 bad.2

theorem unlessFaulted {k k' : Result} (hk : TimeApart k k') :
    TimeApart (Machine.unlessFaulted s k) (Machine.unlessFaulted (s.withTime time) k') :=
  ite (refuse s time _) hk

theorem unlessOwned {k k' : Result} (hk : TimeApart k k') :
    TimeApart (Machine.unlessOwned s k) (Machine.unlessOwned (s.withTime time) k') := by
  simp only [Machine.unlessOwned, withTime_engValid]
  exact ite (refuse s time _) hk

theorem withDl {k k' : DelayLine → Result} (hk : ∀ d, TimeApart (k d) (k' d)) :
    TimeApart (Machine.withDl s k) (Machine.withDl (s.withTime time) k') := by
  have hdl : (s.withTime time).regs.dl = s.regs.dl := rfl
  simp only [Machine.withDl, hdl]
  split
  · exact refuse s time _
  · exact hk _

theorem withLfo {k k' : Oscillator → Result} (hk : ∀ o, TimeApart (k o) (k' o)) :
    TimeApart (Machine.withLfo s k) (Machine.withLfo (s.withTime time) k') := by
  have hlfo : (s.withTime time).regs.lfo = s.regs.lfo := rfl
  simp only [Machine.withLfo, hlfo]
  split
  · exact refuse s time _
  · exact hk _

theorem withOwned {k k' : DelayLine → Oscillator → Result} (hk : ∀ d o, TimeApart (k d o) (k' d o)) :
    TimeApart (Machine.withOwned s k) (Machine.withOwned (s.withTime time) k') := by
  have hdl : (s.withTime time).regs.dl = s.regs.dl := rfl
  have hlfo : (s.withTime time).regs.lfo = s.regs.lfo := rfl
  simp only [Machine.withOwned, hdl, hlfo]
  split
  · exact hk _ _
  · exact .fault _

theorem newLeaf {k k' : Result} (hk : TimeApart k k') :
    TimeApart (Machine.newLeaf s k) (Machine.newLeaf (s.withTime time) k') :=
  unlessFaulted s time (unlessOwned s time hk)

theorem readDl {k k' : DelayLine → Result} (hk : ∀ d, TimeApart (k d) (k' d)) :
    TimeApart (Machine.readDl s k) (Machine.readDl (s.withTime time) k') :=
  unlessFaulted s time (withDl s time hk)

theorem mutateDl {k k' : DelayLine → Result} (hk : ∀ d, TimeApart (k d) (k' d)) :
    TimeApart (Machine.mutateDl s k) (Machine.mutateDl (s.withTime time) k') :=
  unlessFaulted s time (withDl s time fun d => unlessOwned s time (hk d))

theorem readLfo {k k' : Oscillator → Result} (hk : ∀ o, TimeApart (k o) (k' o)) :
    TimeApart (Machine.readLfo s k) (Machine.readLfo (s.withTime time) k') :=
  unlessFaulted s time (withLfo s time hk)

theorem mutateLfo {k k' : Oscillator → Result} (hk : ∀ o, TimeApart (k o) (k' o)) :
    TimeApart (Machine.mutateLfo s k) (Machine.mutateLfo (s.withTime time) k') :=
  unlessFaulted s time (withLfo s time fun o => unlessOwned s time (hk o))

/-- An engine command continues with the engine's registers, the time replaced. -/
theorem onEng {k k' : Engine → Result} (hk : ∀ e : Engine, TimeApart (k e) (k' (e.withTime time))) :
    TimeApart (Machine.onEng s k) (Machine.onEng (s.withTime time) k') := by
  refine unlessFaulted s time ?_
  have heng : (s.withTime time).regs.eng = s.regs.eng.map (fun e => e.withTime time) := rfl
  cases he : s.regs.eng with
  | none =>
    simp only [withEng, heng, he, Option.map_none]
    exact refuse s time _
  | some e =>
    simp only [withEng, heng, he, Option.map_some]
    exact hk e

end TimeApart

/-! ### The sample loop: the time is written and not read (43_engine.md R177) -/

theorem sampleStep_withTime (x : F32) (v : Voice) (time : F32) :
    sampleStep x (v.withTime time) = (sampleStep x v).withTime (fadd time (fdiv fone v.eng.sr)) := by
  have hoffset : (v.withTime time).eng.offset = v.eng.offset := rfl
  have hdl : (v.withTime time).dl = v.dl := rfl
  have hlfo : (v.withTime time).lfo = v.lfo := rfl
  simp only [sampleStep, hoffset, hdl, hlfo]
  split
  · rfl
  · split <;> rfl

theorem BlockOutcome.withTime_cons (time y : F32) (b : BlockOutcome) :
    (b.cons y).withTime time = (b.withTime time).cons y := by
  cases b <;> rfl

theorem exists_runBlock_withTime (xs : List F32) (v : Voice) (time : F32) :
    ∃ time', runBlock xs (v.withTime time) = (runBlock xs v).withTime time' := by
  induction xs generalizing v time with
  | nil => exact ⟨time, rfl⟩
  | cons x xs ih =>
    simp only [runBlock, sampleStep_withTime]
    cases sampleStep x v with
    | output y w =>
      obtain ⟨time', h⟩ := ih w (fadd time (fdiv fone v.eng.sr))
      refine ⟨time', ?_⟩
      simp only [SampleOutcome.withTime, BlockOutcome.withTime_cons, h]
    | outOfRange => exact ⟨time, rfl⟩
    | bounds => exact ⟨time, rfl⟩

/-! ### Every command -/

theorem engGet_withTime (e : Engine) (p : EngParam) (time : F32) : (e.withTime time).get p = e.get p := by
  cases p <;> rfl

theorem engSet_withTime (e : Engine) (p : EngParam) (v time : F32) :
    (e.withTime time).set p v = (e.set p v).withTime time := by
  cases p <;> rfl

/-- Writing all three components forgets the old time; the new one is the written engine's. -/
theorem respond_setAll_timeApart (s : State) (time time' : F32) (rs : List Word) (d : DelayLine) (o : Oscillator)
    (e : Engine) :
    TimeApart (respond rs (s.setAll d o e)) (respond rs ((s.withTime time).setAll d o (e.withTime time'))) :=
  .next _ time'

theorem execSysStatus_timeApart (s : State) (time : F32) :
    TimeApart (execSysStatus s) (execSysStatus (s.withTime time)) := by
  rw [execSysStatus, execSysStatus, withTime_flagsWord]
  exact .respond s time _

theorem execEngNew_timeApart (sr mf depth base : F32) (s : State) (time : F32) :
    TimeApart (execEngNew sr mf depth base s) (execEngNew sr mf depth base (s.withTime time)) := by
  refine .unlessFaulted s time (.unlessInvalid s time _ ?_)
  have hcap : (s.withTime time).capMax = s.capMax := rfl
  simp only [hcap]
  split
  · exact .refuse s time _
  · exact respond_setAll_timeApart s time fzero _ _ _ _

theorem execEngReset_timeApart (s : State) (time : F32) :
    TimeApart (execEngReset s) (execEngReset (s.withTime time)) := by
  refine .onEng s time fun e => .withOwned s time fun d o => ?_
  have hsize : engineSize (s.withTime time).capMax (e.withTime time).sr0 (e.withTime time).depth0
      (e.withTime time).base0 = engineSize s.capMax e.sr0 e.depth0 e.base0 := rfl
  simp only [hsize]
  split
  · exact .fault _
  · exact respond_setAll_timeApart s time fzero _ _ _ _

theorem execEngSetp_timeApart (sel : EngParam) (value : F32) (s : State) (time : F32) :
    TimeApart (execEngSetp sel value s) (execEngSetp sel value (s.withTime time)) := by
  refine .onEng s time fun e => .ite (.withOwned s time fun d o => ?_) (.rejectValue s time _ _)
  rw [engSet_withTime]
  exact respond_setAll_timeApart s time time _ _ _ _

theorem execEngProc_timeApart (samples : List F32) (s : State) (time : F32) :
    TimeApart (execEngProc samples s) (execEngProc samples (s.withTime time)) := by
  refine .onEng s time fun e => .withOwned s time fun d o => ?_
  obtain ⟨time', hrun⟩ := exists_runBlock_withTime samples ⟨d, o, e⟩ time
  have hvoice : (⟨d, o, e.withTime time⟩ : Voice) = Voice.withTime ⟨d, o, e⟩ time := rfl
  rw [hvoice, hrun]
  cases runBlock samples ⟨d, o, e⟩ with
  | outputs ys v => exact respond_setAll_timeApart s time time' _ _ _ _
  | outOfRange ys => exact .takeFault s time ys
  | bounds => exact .fault _

/-- Two runs of one command from states that differ in the time: no check, no result and no other register reads it. -/
theorem exec_timeApart (i : Instr) (hi : i ≠ .engGett) (s : State) (time : F32) :
    TimeApart (exec i s) (exec i (s.withTime time)) := by
  cases i with
  | sysStatus => exact execSysStatus_timeApart s time
  | dlNew capacity => exact .newLeaf s time (.ite (.next _ time) (.refuse s time _))
  | dlReset => exact .mutateDl s time fun _ => .next _ time
  | dlPush value => exact .mutateDl s time fun _ => .withStore _ fun _ => .next _ time
  | dlPop => exact .mutateDl s time fun _ => .withStore _ fun _ => .next _ time
  | dlPut value => exact .mutateDl s time fun _ => .withStore _ fun _ => .next _ time
  | dlPeek => exact .readDl s time fun _ => .withStore _ fun _ => .respond s time _
  | dlGet offset => exact .readDl s time fun _ => .withStore _ fun _ => .respond s time _
  | dlGetf offset =>
    exact .readDl s time fun _ => .ite (.takeFault s time _) (.withStore _ fun _ => .respond s time _)
  | dlGetwi => exact .readDl s time fun _ => .respond s time _
  | dlSetwi index => exact .mutateDl s time fun _ => .next _ time
  | dlGetri => exact .readDl s time fun _ => .respond s time _
  | dlSetri index => exact .mutateDl s time fun _ => .next _ time
  | dlLen => exact .readDl s time fun _ => .respond s time _
  | dlCap => exact .readDl s time fun _ => .respond s time _
  | lfoNew sr freq phase => exact .newLeaf s time (.unlessInvalid s time _ (.next _ time))
  | lfoReset => exact .mutateLfo s time fun _ => .next _ time
  | lfoSetp sel value => exact .mutateLfo s time fun _ => .ite (.next _ time) (.rejectValue s time _ _)
  | lfoGetp sel => exact .readLfo s time fun _ => .respond s time _
  | lfoAdv => exact .mutateLfo s time fun _ => .next _ time
  | engNew sr mf depth base => exact execEngNew_timeApart sr mf depth base s time
  | engReset => exact execEngReset_timeApart s time
  | engSetp sel value => exact execEngSetp_timeApart sel value s time
  | engGetp sel =>
    refine .onEng s time fun e => ?_
    rw [engGet_withTime]
    exact .respond s time _
  | engProc samples => exact execEngProc_timeApart samples s time
  | engFree => exact .onEng s time fun _ => .next _ time
  | engGett => exact absurd rfl hi

/-- Settles O60: the second state is the first with another time, and so is what the command makes of it. -/
theorem timeIsReadByGettOnly : Obligations.TimeIsReadByGettOnly := by
  intro i s s' t hi hs h
  obtain ⟨time, rfl⟩ := eq_withTime_of_forgetTime_eq s s' hs
  have apart := exec_timeApart i hi s time
  rw [h] at apart
  generalize exec i (s.withTime time) = r at apart ⊢
  cases apart with
  | next _ time' => exact ⟨_, rfl, (forgetTime_withTime t time').symm⟩

end Sys2Proof.Machine
end

section
/-! The command frames and the decoder undo each other (30_encoding.md R61 to R65, R73), and so do words and bytes
(20_memory.md R43). -/

namespace Sys2Proof

/-! ### A command's frame decodes to the command -/

/-- Every command's frame is one of its opcode's row: the lemmas of `Laws.HeaderRow`, collected. -/
theorem headerRow_statement (i : Instr) : Laws.HeaderRow.Statement i := by
  cases i with
  | sysStatus => exact Laws.HeaderRow.sysStatus
  | dlNew capacity => exact Laws.HeaderRow.dlNew capacity
  | dlReset => exact Laws.HeaderRow.dlReset
  | dlPush value => exact Laws.HeaderRow.dlPush value
  | dlPop => exact Laws.HeaderRow.dlPop
  | dlPut value => exact Laws.HeaderRow.dlPut value
  | dlPeek => exact Laws.HeaderRow.dlPeek
  | dlGet offset => exact Laws.HeaderRow.dlGet offset
  | dlGetf offset => exact Laws.HeaderRow.dlGetf offset
  | dlGetwi => exact Laws.HeaderRow.dlGetwi
  | dlSetwi index => exact Laws.HeaderRow.dlSetwi index
  | dlGetri => exact Laws.HeaderRow.dlGetri
  | dlSetri index => exact Laws.HeaderRow.dlSetri index
  | dlLen => exact Laws.HeaderRow.dlLen
  | dlCap => exact Laws.HeaderRow.dlCap
  | lfoNew sr freq phase => exact Laws.HeaderRow.lfoNew sr freq phase
  | lfoReset => exact Laws.HeaderRow.lfoReset
  | lfoSetp sel value => exact Laws.HeaderRow.lfoSetp sel value
  | lfoGetp sel => exact Laws.HeaderRow.lfoGetp sel
  | lfoAdv => exact Laws.HeaderRow.lfoAdv
  | engNew sr mf depth base => exact Laws.HeaderRow.engNew sr mf depth base
  | engReset => exact Laws.HeaderRow.engReset
  | engSetp sel value => exact Laws.HeaderRow.engSetp sel value
  | engGetp sel => exact Laws.HeaderRow.engGetp sel
  | engProc samples => exact Laws.HeaderRow.engProc samples
  | engFree => exact Laws.HeaderRow.engFree
  | engGett => exact Laws.HeaderRow.engGett

/-- R64 step 6 reads a command back from its opcode, selector and operand words. -/
theorem commandOf_instr (i : Instr) : commandOf i.opcode i.selector i.operandWords = some i := by
  cases i
  case lfoSetp p v => cases p <;> rfl
  case lfoGetp p => cases p <;> rfl
  case engSetp p v => cases p <;> rfl
  case engGetp p => cases p <;> rfl
  all_goals rfl

/-- A well-formed command's frame decodes to it (30_encoding.md R61 to R65, R73). -/
theorem decode_encode (i : Instr) (h : i.wellFormed = true) : decode (encode i) = .ok i := by
  obtain ⟨-, -, hsel, hlegal, hlength⟩ := headerRow_statement i h
  rw [encode_header, headerSel_headerOf] at hsel hlegal
  exact decode_headerOf i.opcode i.selector i.operandWords i hsel hlegal hlength (commandOf_instr i)

/-! ### A frame that decodes is its command's frame -/

/-- A frame that decodes passed every step of R64. -/
theorem decode_eq_ok (f : Frame) (i : Instr) (h : decode f = .ok i) :
    ∃ op, headerOp f.header = op.byte ∧ headerRsvd f.header = 0#16 ∧
      (op.format.hasSelector = false → headerSel f.header = 0#8) ∧ lengthLegal op.format f.operands = true ∧
      commandOf op (headerSel f.header) f.operands = some i := by
  unfold decode at h
  split at h
  · exact absurd h (by simp)
  next op hop =>
    split_ifs at h with hrsvd hsel _ hlength
    split at h
    next j hj =>
      obtain rfl : j = i := by simpa using h
      exact ⟨op, (byte_of_ofByte _ op hop).symm, by simpa using hrsvd, by simpa using hsel, by simpa using hlength, hj⟩
    next => exact absurd h (by simp)

/-! The operand words of each length of R63. -/

theorem eq_nil_of_lengthLegal {fmt : Format} {ws : List Word} (hfmt : fmt.length = some 1)
    (h : lengthLegal fmt ws = true) : ws = [] := by
  simpa [lengthLegal, hfmt] using h

theorem eq_singleton_of_lengthLegal {fmt : Format} {ws : List Word} (hfmt : fmt.length = some 2)
    (h : lengthLegal fmt ws = true) : ∃ a, ws = [a] := by
  simpa [lengthLegal, hfmt, List.length_eq_one_iff] using h

theorem eq_triple_of_lengthLegal {fmt : Format} {ws : List Word} (hfmt : fmt.length = some 4)
    (h : lengthLegal fmt ws = true) : ∃ a b c, ws = [a, b, c] := by
  simpa [lengthLegal, hfmt, List.length_eq_three] using h

theorem eq_quadruple_of_lengthLegal {fmt : Format} {ws : List Word} (hfmt : fmt.length = some 5)
    (h : lengthLegal fmt ws = true) : ∃ a b c d, ws = [a, b, c, d] := by
  obtain _ | ⟨a, ws⟩ := ws
  · simp [lengthLegal, hfmt] at h
  · obtain ⟨b, c, d, rfl⟩ : ∃ b c d, ws = [b, c, d] := by
      simpa [lengthLegal, hfmt, List.length_eq_three] using h
    exact ⟨a, b, c, d, rfl⟩

/-- A block frame's first operand counts the samples after it (30_encoding.md R73). -/
theorem eq_counted_of_lengthLegal {fmt : Format} {ws : List Word} (hfmt : fmt.length = none)
    (h : lengthLegal fmt ws = true) :
    ∃ samples, samples.length < 2 ^ 32 ∧ ws = BitVec.ofNat 32 samples.length :: samples := by
  obtain _ | ⟨count, samples⟩ := ws
  · simp [lengthLegal, hfmt] at h
  · have hcount : samples.length = count.toNat := by simpa [lengthLegal, hfmt] using h
    exact ⟨samples, hcount ▸ count.isLt, by simp [hcount]⟩

/-- R64 step 6 inverted: with the selector and the length legal, the command read is one of this opcode, selector and operand
words. The cases are the formats of R63; the formats with a selector are P and S. -/
theorem instr_of_commandOf (op : Opcode) (sel : BitVec 8) (ws : List Word) (i : Instr)
    (hsel : op.format.hasSelector = false → sel = 0#8) (hlength : lengthLegal op.format ws = true)
    (h : commandOf op sel ws = some i) :
    i.wellFormed = true ∧ i.opcode = op ∧ i.selector = sel ∧ i.operandWords = ws := by
  cases op
  case sysStatus | dlReset | dlPop | dlPeek | dlGetwi | dlGetri | dlLen | dlCap | lfoReset | lfoAdv | engReset | engFree |
      engGett =>
    obtain rfl := eq_nil_of_lengthLegal rfl hlength
    obtain rfl := Option.some.inj h
    exact ⟨rfl, rfl, (hsel rfl).symm, rfl⟩
  case dlNew | dlPush | dlPut | dlGet | dlGetf | dlSetwi | dlSetri =>
    obtain ⟨a, rfl⟩ := eq_singleton_of_lengthLegal rfl hlength
    obtain rfl := Option.some.inj h
    exact ⟨rfl, rfl, (hsel rfl).symm, rfl⟩
  case lfoNew =>
    obtain ⟨a, b, c, rfl⟩ := eq_triple_of_lengthLegal rfl hlength
    obtain rfl := Option.some.inj h
    exact ⟨rfl, rfl, (hsel rfl).symm, rfl⟩
  case engNew =>
    obtain ⟨a, b, c, d, rfl⟩ := eq_quadruple_of_lengthLegal rfl hlength
    obtain rfl := Option.some.inj h
    exact ⟨rfl, rfl, (hsel rfl).symm, rfl⟩
  case engProc =>
    obtain ⟨samples, hfits, rfl⟩ := eq_counted_of_lengthLegal rfl hlength
    obtain rfl := Option.some.inj h
    exact ⟨by simpa [Instr.wellFormed, sampleCountFits] using hfits, rfl, (hsel rfl).symm, rfl⟩
  case lfoSetp =>
    obtain ⟨v, rfl⟩ := eq_singleton_of_lengthLegal rfl hlength
    obtain ⟨p, hp, rfl⟩ := Option.map_eq_some_iff.1 h
    exact ⟨rfl, rfl, lfo_sel_of_ofSel sel p hp, rfl⟩
  case lfoGetp =>
    obtain rfl := eq_nil_of_lengthLegal rfl hlength
    obtain ⟨p, hp, rfl⟩ := Option.map_eq_some_iff.1 h
    exact ⟨rfl, rfl, lfo_sel_of_ofSel sel p hp, rfl⟩
  case engSetp =>
    obtain ⟨v, rfl⟩ := eq_singleton_of_lengthLegal rfl hlength
    obtain ⟨p, hp, rfl⟩ := Option.map_eq_some_iff.1 h
    exact ⟨rfl, rfl, eng_sel_of_ofSel sel p hp, rfl⟩
  case engGetp =>
    obtain rfl := eq_nil_of_lengthLegal rfl hlength
    obtain ⟨p, hp, rfl⟩ := Option.map_eq_some_iff.1 h
    exact ⟨rfl, rfl, eng_sel_of_ofSel sel p hp, rfl⟩

/-- The decoder answers a command exactly for the frame of that command: no bit is dropped (30_encoding.md R61 to R65, R73). -/
theorem decode_eq_ok_iff (f : Frame) (i : Instr) : decode f = .ok i ↔ i.wellFormed = true ∧ encode i = f := by
  constructor
  · intro h
    obtain ⟨op, hop, hrsvd, hsel, hlength, hcommand⟩ := decode_eq_ok f i h
    obtain ⟨hwf, rfl, hisel, hiwords⟩ := instr_of_commandOf op _ _ i hsel hlength hcommand
    refine ⟨hwf, ?_⟩
    rw [encode, hisel, hiwords, headerOf_fields f.header i.opcode hop hrsvd]
  · rintro ⟨hwf, rfl⟩
    exact decode_encode i hwf

/-! ### Words and bytes (20_memory.md R43) -/

/-- Above its lowest byte a word has the bits of the bytes put before that one. -/
theorem extractLsb'_append_byte {v : Nat} (hi : BitVec v) (lo : Byte) (k : Nat) :
    (hi ++ lo).extractLsb' (k + 8) 8 = hi.extractLsb' k 8 := by
  rw [BitVec.extractLsb'_append_eq_of_le (Nat.le_add_left 8 k), Nat.add_sub_cancel]

/-- The bytes of a word put together, the first one least significant. -/
theorem wordBytes_append (b0 b1 b2 b3 : Byte) : wordBytes (b3 ++ b2 ++ b1 ++ b0) = [b0, b1, b2, b3] := by
  simp only [wordBytes, List.cons.injEq, and_true]
  exact ⟨BitVec.extractLsb'_append_eq_right,
    (extractLsb'_append_byte _ b0 0).trans BitVec.extractLsb'_append_eq_right,
    (extractLsb'_append_byte _ b0 8).trans ((extractLsb'_append_byte _ b1 0).trans BitVec.extractLsb'_append_eq_right),
    (extractLsb'_append_byte _ b0 16).trans ((extractLsb'_append_byte _ b1 8).trans BitVec.extractLsb'_append_eq_left)⟩

/-- A word is its four bytes. -/
theorem append_wordBytes (w : Word) :
    w.extractLsb' 24 8 ++ w.extractLsb' 16 8 ++ w.extractLsb' 8 8 ++ w.extractLsb' 0 8 = w := by
  rw [BitVec.extractLsb'_append_extractLsb'_eq_extractLsb' (by rfl),
    BitVec.extractLsb'_append_extractLsb'_eq_extractLsb' (by rfl),
    BitVec.extractLsb'_append_extractLsb'_eq_extractLsb' (by rfl)]
  exact BitVec.extractLsb'_eq_self

theorem wordsOfBytes_eq_some (bs : List Byte) (ws : List Word) : wordsOfBytes bs = some ws ↔ bytesOfWords ws = bs := by
  constructor
  · intro h
    fun_induction wordsOfBytes bs generalizing ws with
    | case1 => simp_all [bytesOfWords]
    | case2 b0 b1 b2 b3 rest ih =>
      obtain ⟨ws', hrest, rfl⟩ := Option.map_eq_some_iff.1 h
      rw [bytesOfWords, wordBytes_append, ih ws' hrest]
      rfl
    | case3 => exact absurd h (by simp)
  · rintro rfl
    induction ws with
    | nil => rfl
    | cons w ws ih => simp [bytesOfWords, wordBytes, wordsOfBytes, ih, append_wordBytes]

theorem frame_ofWords_eq_some (ws : List Word) (f : Frame) : Frame.ofWords ws = some f ↔ f.words = ws := by
  obtain ⟨header, operands⟩ := f
  cases ws <;> simp [Frame.ofWords, Frame.words, eq_comm]

/-- Bytes decode to a command exactly if they are the bytes of its frame. -/
theorem decodeBytes_eq_ok_iff (bs : List Byte) (i : Instr) :
    decodeBytes bs = .ok i ↔ i.wellFormed = true ∧ encodeBytes i = bs := by
  constructor
  · intro h
    unfold decodeBytes at h
    split at h
    · exact absurd h (by simp)
    next f hf =>
      obtain ⟨ws, hws, hframe⟩ := Option.bind_eq_some_iff.1 hf
      obtain rfl := (frame_ofWords_eq_some ws f).1 hframe
      obtain ⟨hwf, rfl⟩ := (decode_eq_ok_iff f i).1 h
      exact ⟨hwf, (wordsOfBytes_eq_some bs _).1 hws⟩
  · rintro ⟨hwf, rfl⟩
    have hws : wordsOfBytes (encodeBytes i) = some (encode i).words := (wordsOfBytes_eq_some _ _).2 rfl
    have hframe : Frame.ofWords (encode i).words = some (encode i) := (frame_ofWords_eq_some _ _).2 rfl
    simp [decodeBytes, hws, hframe, decode_encode i hwf]

theorem bytesOfWords_eq_flatMap (ws : List Word) : bytesOfWords ws = ws.flatMap wordBytes := by
  induction ws with
  | nil => rfl
  | cons w ws ih => rw [bytesOfWords, ih, List.flatMap_cons]

theorem length_bytesOfWords (ws : List Word) : (bytesOfWords ws).length = 4 * ws.length := by
  induction ws with
  | nil => rfl
  | cons w ws ih =>
    rw [bytesOfWords, List.length_append, ih, List.length_cons]
    simp only [wordBytes, List.length_cons, List.length_nil]
    omega

/-- Byte `j` of a word is its bits `8j+7:8j` (R43). -/
theorem wordBytes_getElem? (w : Word) (j : Nat) (hj : j < 4) : (wordBytes w)[j]? = some (w.extractLsb' (8 * j) 8) := by
  interval_cases j <;> rfl

/-- Settles O3: both round trips are `decodeBytes_eq_ok_iff`; the byte order is read off `wordBytes`, byte by byte. -/
theorem bytesRoundTrip : Obligations.BytesRoundTrip :=
  ⟨fun i hwf => (decodeBytes_eq_ok_iff _ i).2 ⟨hwf, rfl⟩,
    fun bs i h => ((decodeBytes_eq_ok_iff bs i).1 h).2,
    wordBytes_getElem?,
    fun _ => rfl,
    fun i => bytesOfWords_eq_flatMap (encode i).words,
    fun f => length_bytesOfWords f.words,
    rfl⟩

end Sys2Proof
end

section
/-! One command is one step (20_memory.md R48), and what the engine's store holds after a block (R47). -/

namespace Sys2Proof.Machine

/-! ### The command of a step -/

/-- Settles O7: `step` takes the frame, and of its answers the decoder's picks `exec i`. -/
theorem stepRunsDecodedCommand : Obligations.StepRunsDecodedCommand := by
  intro s f rest i hinbox hdecode
  rw [step, nextEvent_cons s (.command f) rest hinbox]
  simp only [hdecode]

/-! ### The commands that are answered by `OK` -/

/-- The status word is 0 for `OK` alone (30_encoding.md R71). -/
theorem status_of_statusWord_eq_zero (st : Status) (esel : BitVec 8) (h : statusWord st esel = 0x00000000#32) :
    st = .ok := by
  have hcode : st.code = 0#8 :=
    BitVec.extractLsb'_append_eq_right.symm.trans (congrArg (fun w : Word => w.extractLsb' 0 8) h)
  revert hcode
  cases st <;> decide

/-- Whatever ends a command, a response whose last word is 0 is an `OK`. -/
theorem status_of_answer_ok {rs : List Word} {st : Status} {esel : BitVec 8} {s t : State}
    (h : answer rs st esel s = .next t) (hok : lastWord t.rsp = 0x00000000#32) : st = .ok := by
  obtain rfl := (answer_eq_next rs st esel s t).1 h
  exact status_of_statusWord_eq_zero st esel ((lastWord_responseFrame rs st esel).symm.trans hok)

/-- `ENG_NEW` answered by `OK`: it was not refused and built the engine of its sizing (43_engine.md R170). -/
theorem execEngNew_ok (sr mf depth base : F32) (s t : State) (h : execEngNew sr mf depth base s = .next t)
    (hok : lastWord t.rsp = 0x00000000#32) :
    s.regs.fault = false ∧ ∃ d n, engineSize s.capMax sr depth base = some (d, n) ∧
      t = { s.setAll (ownedDelayLine d n) (freshOscillator sr mf Config.phase0) (freshEngine sr mf depth base) with
            rsp := responseFrame [] .ok 0#8 } := by
  rcases unlessFaulted_next s t _ h with ⟨-, h⟩ | ⟨hf, h⟩
  · exact absurd (status_of_answer_ok h hok) (by decide)
  rcases unlessInvalid_next s t _ _ h with ⟨esel, v, -, h⟩ | ⟨-, h⟩
  · exact absurd (status_of_answer_ok h hok) (by decide)
  split at h
  · exact absurd (status_of_answer_ok h hok) (by decide)
  next d n hsize => exact ⟨hf, d, n, hsize, ((respond_eq_next _ _ t).1 h).symm⟩

/-- `ENG_PROC` on a running engine, answered by `OK`: the whole block was processed (43_engine.md R176). -/
theorem execEngProc_ok (xs : List F32) (s t : State) (v : Voice) (h : execEngProc xs s = .next t)
    (hok : lastWord t.rsp = 0x00000000#32) (hf : s.regs.fault = false) (hd : s.regs.dl = some v.dl)
    (ho : s.regs.lfo = some v.lfo) (he : s.regs.eng = some v.eng) :
    ∃ ys v', runBlock xs v = .outputs ys v' ∧
      t = { s.setAll v'.dl v'.lfo v'.eng with rsp := responseFrame ys .ok 0#8 } := by
  rw [execEngProc, onEng_pass s _ v.eng hf he, withOwned_pass s _ v.dl v.lfo hd ho] at h
  split at h
  next ys v' hrun => exact ⟨ys, v', hrun, ((respond_eq_next _ _ t).1 h).symm⟩
  next ys _ => exact absurd (status_of_answer_ok h hok) (by decide)
  next => exact absurd h (by simp)

/-! ### The history in the store -/

/-- What a Delay Line of capacity `n` holds after the samples `xs`, its write cursor having started at `w0` and its read
cursor at 0, its words at `+0.0`: the word `delay` places behind the write cursor is the input of `delay` samples ago. -/
structure HoldsHistory (w0 n : Nat) (xs : List F32) (dl : DelayLine) : Prop where
  capacity : dl.n = n
  readCursor : dl.r = xs.length % n
  writeCursor : dl.w = (w0 + xs.length) % n
  canonical : dl.buf.wf
  words : ∀ i delay, i < n → 1 ≤ delay → delay ≤ n → (i + delay) % n = dl.w → dl.buf.read i = inputAt xs delay

theorem inputAt_nil (delay : Nat) : inputAt [] delay = fzero := by
  simp [inputAt]

theorem inputAt_append_one (xs : List F32) (x : F32) : inputAt (xs ++ [x]) 1 = x := by
  simp [inputAt]

/-- One sample later every earlier input is one sample further back. -/
theorem inputAt_append_succ (xs : List F32) (x : F32) (delay : Nat) (h : 1 ≤ delay) :
    inputAt (xs ++ [x]) (delay + 1) = inputAt xs delay := by
  by_cases hle : delay ≤ xs.length
  · have hindex : (xs ++ [x]).length - (delay + 1) = xs.length - delay := by simp
    rw [inputAt, inputAt, if_pos (by simpa using hle), if_pos hle, hindex, List.getD_append _ _ _ _ (by omega)]
  · rw [inputAt, inputAt, if_neg (by simpa using hle), if_neg hle]

/-- `ENG_NEW` zeroes the store and places the cursors (43_engine.md R172). -/
theorem ownedDelayLine_holdsHistory (d n : Nat) : HoldsHistory (2 * d) n [] (ownedDelayLine d n) where
  capacity := rfl
  readCursor := (Nat.zero_mod n).symm
  writeCursor := rfl
  canonical := zeroed_wf
  words := fun _ delay _ _ _ _ => (inputAt_nil delay).symm

/-- A sample step writes its input one place behind the new write cursor and no other word (43_engine.md R177). -/
theorem HoldsHistory.sampleStep {w0 n : Nat} {xs : List F32} {x y : F32} {v v' : Voice}
    (h : HoldsHistory w0 n xs v.dl) (hstep : sampleStep x v = .output y v') :
    HoldsHistory w0 n (xs ++ [x]) v'.dl := by
  obtain ⟨rfl, hr, hw, hwf, hwords⟩ := h
  obtain ⟨-, -, hlt, rfl⟩ := sampleStep_output x y v v' hstep
  refine ⟨rfl, by simp [hr], by simp [hw, Nat.add_assoc], write_wf _ _ _ hwf, fun i delay hi h1 hle hdelay => ?_⟩
  obtain ⟨delay, rfl⟩ := Nat.exists_eq_add_of_le' h1
  have hbehind : (i + delay) % v.dl.n = v.dl.w :=
    Eq.trans (Nat.ModEq.add_right_cancel' 1 hdelay) (Nat.mod_eq_of_lt hlt)
  by_cases hzero : delay = 0
  · subst hzero
    obtain rfl : i = v.dl.w := (Nat.mod_eq_of_lt hi).symm.trans hbehind
    exact (read_write_same _ _ _ hwf).trans (inputAt_append_one xs x).symm
  · have hne : i ≠ v.dl.w := by
      rintro rfl
      have hmod : delay % v.dl.n = 0 % v.dl.n :=
        Nat.ModEq.add_left_cancel' v.dl.w (hbehind.trans (Nat.mod_eq_of_lt hlt).symm)
      rw [Nat.mod_eq_of_lt (by omega), Nat.zero_mod] at hmod
      exact hzero hmod
    calc (v.dl.buf.write v.dl.w x).read i
        = v.dl.buf.read i := read_write_other _ _ _ _ hne
      _ = inputAt xs delay := hwords i delay hi (by omega) (by omega) hbehind
      _ = inputAt (xs ++ [x]) (delay + 1) := (inputAt_append_succ xs x delay (by omega)).symm

/-- A block keeps the history, sample by sample. -/
theorem HoldsHistory.runBlock {w0 n : Nat} {past xs ys : List F32} {v v' : Voice} (h : HoldsHistory w0 n past v.dl)
    (hrun : runBlock xs v = .outputs ys v') : HoldsHistory w0 n (past ++ xs) v'.dl := by
  induction xs generalizing past v ys with
  | nil =>
    obtain ⟨-, rfl⟩ : [] = ys ∧ v = v' := by simpa using hrun
    simpa using h
  | cons x xs ih =>
    rw [Machine.runBlock] at hrun
    split at hrun
    · exact absurd hrun (by simp)
    · exact absurd hrun (by simp)
    next y w hstep =>
      obtain ⟨ys', hrest⟩ := BlockOutcome.cons_eq_outputs y _ ys v' hrun
      simpa using ih (h.sampleStep hstep) hrest

/-- R47's delay of slot `k` is a number in `[1, N]`, and the slot is that many places behind the write cursor. -/
theorem slotDelay_spec (d n k m : Nat) (h : k < n) :
    1 ≤ slotDelay d n k ∧ slotDelay d n k ≤ n ∧ ((m % n + k) % n + slotDelay d n k) % n = (2 * d + m) % n := by
  have hn : (0 : Int) < n := by omega
  have h0 := Int.emod_nonneg (2 * (d : Int) - k - 1) hn.ne'
  have hlt := Int.emod_lt_of_pos (2 * (d : Int) - k - 1) hn
  have hdelay : (slotDelay d n k : Int) = (2 * (d : Int) - k - 1) % n + 1 := by
    simp [slotDelay, Int.toNat_of_nonneg h0]
  refine ⟨by omega, by omega, ?_⟩
  zify
  rw [hdelay]
  have hmod : ((m : Int) % n + k) % n + ((2 * (d : Int) - k - 1) % n + 1) ≡ (m + k) + (2 * d - k - 1 + 1) [ZMOD n] :=
    ((Int.mod_modEq _ _).trans ((Int.mod_modEq _ _).add_right _)).add ((Int.mod_modEq _ _).add_right 1)
  exact hmod.trans (congrArg (· % (n : Int)) (by ring))

/-- Settles O58: the block starts from the zeroed store that `ENG_NEW` built, and every sample keeps `HoldsHistory`. -/
theorem storeHoldsHistory : Obligations.StoreHoldsHistory := by
  intro s t u sr mf depth base d n xs hsize hnew hnewOk hproc hprocOk
  obtain ⟨hf, d', n', hsize', rfl⟩ := execEngNew_ok sr mf depth base s t hnew hnewOk
  obtain ⟨rfl, rfl⟩ : d = d' ∧ n = n' := by simpa [hsize] using hsize'
  obtain ⟨ys, v, hrun, rfl⟩ := execEngProc_ok xs _ u
    ⟨ownedDelayLine d n, freshOscillator sr mf Config.phase0, freshEngine sr mf depth base⟩ hproc hprocOk hf rfl rfl rfl
  obtain ⟨hn, hr, hw, -, hwords⟩ := (ownedDelayLine_holdsHistory d n).runBlock hrun
  refine ⟨v.dl, rfl, hn, hr, hw, fun k hk => ?_⟩
  obtain ⟨h1, hle, hbehind⟩ := slotDelay_spec d n k xs.length hk
  rw [hr]
  exact hwords _ _ (Nat.mod_lt _ (by omega)) h1 hle (hbehind.trans hw.symm)

end Sys2Proof.Machine
end

section
/-! The frames the decoder accepts (30_encoding.md R61 to R69), against the table of legal frames that claims use. -/

namespace Sys2Proof

open Sys2Proof.Machine

/-! ### Both round trips of a frame -/

/-- Settles O1. -/
theorem encodedCommandDecodes : Obligations.EncodedCommandDecodes := decode_encode

/-- Settles O2: the direction of `decode_eq_ok_iff` from the frame to its command. -/
theorem decodedFrameEncodes : Obligations.DecodedFrameEncodes := fun f i => (decode_eq_ok_iff f i).1

/-! ### The table of legal frames, row by row the opcode map -/

/-- How many values the selector field of an opcode may have, from 0 up (R66, R67, R68). -/
def Opcode.selectorCount : Opcode → Nat
  | .lfoSetp | .lfoGetp => 3
  | .engSetp | .engGetp => 4
  | _ => 1

/-- The row of `frameTable` that an opcode should have. -/
def Opcode.frameRow (op : Opcode) : BitVec 8 × Nat × Option Nat := (op.byte, op.selectorCount, op.format.length)

theorem mem_opcode_all (op : Opcode) : op ∈ Opcode.all := by cases op <;> decide

theorem frameTable_eq_map_frameRow : frameTable = Opcode.all.map Opcode.frameRow := rfl

theorem mem_frameTable_iff (row : BitVec 8 × Nat × Option Nat) :
    row ∈ frameTable ↔ ∃ op : Opcode, op.frameRow = row := by
  simp [frameTable_eq_map_frameRow, mem_opcode_all]

/-! ### Selectors -/

theorem lfo_ofSel_isSome_iff (b : BitVec 8) : (LfoParam.ofSel b).isSome = true ↔ b.toNat < 3 := by
  simp only [LfoParam.ofSel, List.find?_isSome, List.mem_cons, List.not_mem_nil, or_false, exists_eq_or_imp,
    exists_eq_left, beq_iff_eq, LfoParam.sel]
  bv_omega

theorem eng_ofSel_isSome_iff (b : BitVec 8) : (EngParam.ofSel b).isSome = true ↔ b.toNat < 4 := by
  simp only [EngParam.ofSel, List.find?_isSome, List.mem_cons, List.not_mem_nil, or_false, exists_eq_or_imp,
    exists_eq_left, beq_iff_eq, EngParam.sel]
  bv_omega

theorem toNat_lt_one_iff (b : BitVec 8) : b.toNat < 1 ↔ b = 0#8 := by bv_omega

/-- Steps 3 and 4 of R64 together bound the selector field. -/
theorem toNat_lt_selectorCount_iff (op : Opcode) (sel : BitVec 8) :
    sel.toNat < op.selectorCount ↔ (op.format.hasSelector = false → sel = 0#8) ∧ selectorLegal op sel = true := by
  cases op
  case lfoSetp | lfoGetp =>
    simp [Opcode.selectorCount, Opcode.format, Format.hasSelector, selectorLegal, lfo_ofSel_isSome_iff]
  case engSetp | engGetp =>
    simp [Opcode.selectorCount, Opcode.format, Format.hasSelector, selectorLegal, eng_ofSel_isSome_iff]
  all_goals exact (toNat_lt_one_iff sel).trans (by simp [Opcode.format, Format.hasSelector, selectorLegal])

/-! ### Both sides as the steps of R64 -/

/-- A frame that passes steps 1 to 5 of R64 with this opcode. -/
def PassesAs (op : Opcode) (f : Frame) : Prop :=
  headerOp f.header = op.byte ∧ headerRsvd f.header = 0#16 ∧ (headerSel f.header).toNat < op.selectorCount ∧
    lengthLegal op.format f.operands = true

/-- R64 step 6 names a command wherever the selector and the length are legal. The cases are those of
`instr_of_commandOf`. -/
theorem exists_commandOf (op : Opcode) (sel : BitVec 8) (ws : List Word) (hlegal : selectorLegal op sel = true)
    (hlength : lengthLegal op.format ws = true) : ∃ i, commandOf op sel ws = some i := by
  cases op
  case sysStatus | dlReset | dlPop | dlPeek | dlGetwi | dlGetri | dlLen | dlCap | lfoReset | lfoAdv | engReset | engFree |
      engGett =>
    obtain rfl := eq_nil_of_lengthLegal rfl hlength
    exact ⟨_, rfl⟩
  case dlNew | dlPush | dlPut | dlGet | dlGetf | dlSetwi | dlSetri =>
    obtain ⟨a, rfl⟩ := eq_singleton_of_lengthLegal rfl hlength
    exact ⟨_, rfl⟩
  case lfoNew =>
    obtain ⟨a, b, c, rfl⟩ := eq_triple_of_lengthLegal rfl hlength
    exact ⟨_, rfl⟩
  case engNew =>
    obtain ⟨a, b, c, d, rfl⟩ := eq_quadruple_of_lengthLegal rfl hlength
    exact ⟨_, rfl⟩
  case engProc =>
    obtain ⟨samples, -, rfl⟩ := eq_counted_of_lengthLegal rfl hlength
    exact ⟨_, rfl⟩
  case lfoSetp | engSetp =>
    obtain ⟨v, rfl⟩ := eq_singleton_of_lengthLegal rfl hlength
    obtain ⟨p, hp⟩ := Option.isSome_iff_exists.1 hlegal
    exact ⟨_, Option.map_eq_some_iff.2 ⟨p, hp, rfl⟩⟩
  case lfoGetp | engGetp =>
    obtain rfl := eq_nil_of_lengthLegal rfl hlength
    obtain ⟨p, hp⟩ := Option.isSome_iff_exists.1 hlegal
    exact ⟨_, Option.map_eq_some_iff.2 ⟨p, hp, rfl⟩⟩

/-- A command's selector is one its opcode has (30_encoding.md R66, R67). -/
theorem instr_selector_lt (i : Instr) (h : i.wellFormed = true) : i.selector.toNat < i.opcode.selectorCount := by
  obtain ⟨-, -, hsel, hlegal, -⟩ := headerRow_statement i h
  rw [encode_header, headerSel_headerOf] at hsel hlegal
  exact (toNat_lt_selectorCount_iff i.opcode i.selector).2 ⟨hsel, hlegal⟩

theorem decodes_iff_passes (f : Frame) : (∃ i, decode f = .ok i) ↔ ∃ op, PassesAs op f := by
  constructor
  · rintro ⟨i, h⟩
    obtain ⟨op, hop, hrsvd, hsel, hlength, hcommand⟩ := decode_eq_ok f i h
    obtain ⟨hwf, rfl, hisel, -⟩ := instr_of_commandOf op _ _ i hsel hlength hcommand
    exact ⟨i.opcode, hop, hrsvd, hisel ▸ instr_selector_lt i hwf, hlength⟩
  · rintro ⟨op, hop, hrsvd, hcount, hlength⟩
    obtain ⟨hsel, hlegal⟩ := (toNat_lt_selectorCount_iff op _).1 hcount
    obtain ⟨i, hcommand⟩ := exists_commandOf op _ _ hlegal hlength
    have hdecode := decode_headerOf op _ _ i hsel hlegal hlength hcommand
    rw [headerOf_fields f.header op hop hrsvd] at hdecode
    exact ⟨i, hdecode⟩

/-- Step 5 of R64 as the table of legal frames words it. -/
theorem lengthLegal_iff (fmt : Format) (f : Frame) :
    lengthLegal fmt f.operands = true ↔
      match fmt.length with
      | some k => f.words.length = k
      | none => ∃ count samples, f.operands = count :: samples ∧ f.words.length = 2 + count.toNat := by
  obtain ⟨header, operands⟩ := f
  unfold lengthLegal
  cases fmt.length with
  | some k => simp [Frame.words]
  | none =>
    cases operands with
    | nil => simp
    | cons count samples =>
      have hcount : samples.length = count.toNat ↔ samples.length + 1 + 1 = 2 + count.toNat := by omega
      simpa [Frame.words] using hcount

theorem legalFrame_iff_passes (f : Frame) : LegalFrame f ↔ ∃ op, PassesAs op f := by
  have hrsvd : (f.header.extractLsb' 0 16).toNat = 0 ↔ headerRsvd f.header = 0#16 :=
    BitVec.toNat_inj (y := 0#16)
  constructor
  · rintro ⟨h0, byte, sels, len, hrow, hop, hsel, hlen⟩
    obtain ⟨op, hrow⟩ := (mem_frameTable_iff _).1 hrow
    obtain ⟨rfl, rfl, rfl⟩ : op.byte = byte ∧ op.selectorCount = sels ∧ op.format.length = len := by
      simpa [Opcode.frameRow] using hrow
    exact ⟨op, hop, hrsvd.1 h0, hsel, (lengthLegal_iff op.format f).2 hlen⟩
  · rintro ⟨op, hop, h0, hsel, hlen⟩
    exact ⟨hrsvd.2 h0, op.byte, op.selectorCount, op.format.length, (mem_frameTable_iff _).2 ⟨op, rfl⟩, hop, hsel,
      (lengthLegal_iff op.format f).1 hlen⟩

/-- Settles O4: decoding and the table of legal frames both say that the frame passes R64 with some opcode. -/
theorem decodesExactlyLegalFrames : Obligations.DecodesExactlyLegalFrames := fun f =>
  (decodes_iff_passes f).trans (legalFrame_iff_passes f).symm

/-! ### The opcode map word for word -/

/-- A frame written out word by word decodes to the command `i` of the row `op` with selector `sel`. The premises are
evaluated at each use; the header's has no operand in it, so it is a closed computation. -/
theorem decode_row {header : Word} {ws : List Word} (i : Instr) (op : Opcode) (sel : BitVec 8)
    (hheader : headerOf op sel = header := by rfl) (hop : i.opcode = op := by rfl) (hsel : i.selector = sel := by rfl)
    (hwords : i.operandWords = ws := by rfl) (hwf : i.wellFormed = true := by rfl) : decode ⟨header, ws⟩ = .ok i :=
  (decode_eq_ok_iff _ i).2 ⟨hwf, by rw [encode, hop, hsel, hheader, hwords]⟩

/-- Settles O5: for each frame its command, opcode and selector. -/
theorem workedEncodings : Obligations.WorkedEncodings := by
  refine ⟨decode_row .sysStatus .sysStatus 0#8, fun a => ?delayLine, fun a b c => ?oscillator,
    fun a b c d => ?engine, ?worked⟩
  case delayLine =>
    exact ⟨decode_row (.dlNew a) .dlNew 0#8, decode_row .dlReset .dlReset 0#8, decode_row (.dlPush a) .dlPush 0#8,
      decode_row .dlPop .dlPop 0#8, decode_row (.dlPut a) .dlPut 0#8, decode_row .dlPeek .dlPeek 0#8,
      decode_row (.dlGet a) .dlGet 0#8, decode_row (.dlGetf a) .dlGetf 0#8, decode_row .dlGetwi .dlGetwi 0#8,
      decode_row (.dlSetwi a) .dlSetwi 0#8, decode_row .dlGetri .dlGetri 0#8, decode_row (.dlSetri a) .dlSetri 0#8,
      decode_row .dlLen .dlLen 0#8, decode_row .dlCap .dlCap 0#8⟩
  case oscillator =>
    exact ⟨decode_row (.lfoNew a b c) .lfoNew 0#8, decode_row .lfoReset .lfoReset 0#8,
      decode_row (.lfoSetp .sr a) .lfoSetp 0#8, decode_row (.lfoSetp .freq a) .lfoSetp 1#8,
      decode_row (.lfoSetp .phase a) .lfoSetp 2#8, decode_row (.lfoGetp .sr) .lfoGetp 0#8,
      decode_row (.lfoGetp .freq) .lfoGetp 1#8, decode_row (.lfoGetp .phase) .lfoGetp 2#8,
      decode_row .lfoAdv .lfoAdv 0#8⟩
  case engine =>
    exact ⟨decode_row (.engNew a b c d) .engNew 0#8, decode_row .engReset .engReset 0#8,
      decode_row (.engSetp .sr a) .engSetp 0#8, decode_row (.engSetp .mf a) .engSetp 1#8,
      decode_row (.engSetp .depth a) .engSetp 2#8, decode_row (.engSetp .base a) .engSetp 3#8,
      decode_row (.engGetp .sr) .engGetp 0#8, decode_row (.engGetp .mf) .engGetp 1#8,
      decode_row (.engGetp .depth) .engGetp 2#8, decode_row (.engGetp .base) .engGetp 3#8,
      decode_row (.engProc []) .engProc 0#8, decode_row (.engProc [a, b]) .engProc 0#8,
      decode_row .engFree .engFree 0#8, decode_row .engGett .engGett 0#8⟩
  case worked =>
    exact ⟨decode_row (.dlNew 8#32) .dlNew 0#8, decode_row (.dlPush 0x3F800000#32) .dlPush 0#8,
      decode_row (.dlGetf 0x3F000000#32) .dlGetf 0#8, decode_row (.dlGetf 0x40066666#32) .dlGetf 0#8,
      decode_row (.dlSetwi 10#32) .dlSetwi 0#8,
      decode_row (.lfoNew 0x40800000#32 0x3F800000#32 0x00000000#32) .lfoNew 0#8,
      decode_row (.lfoSetp .freq 0x40000000#32) .lfoSetp 1#8,
      decode_row (.engNew 0x40800000#32 0x3F800000#32 0x00000000#32 0x3F000000#32) .engNew 0#8,
      decode_row (.engSetp .depth 0x3E800000#32) .engSetp 2#8,
      decode_row (.engProc [0x3F800000#32, 0x40000000#32]) .engProc 0#8⟩

end Sys2Proof
end

section
/-! Progress: in a state with the invariants every command is answered (30_encoding.md R70, 20_memory.md R51,
70_reset_and_hazards.md R252), so the model's own stops are never met. -/

namespace Sys2Proof.Machine

/-- What ends a command run in `s`: one `answer`, on a state with the events of `s` still pending, its `esel` 0 unless the
status is `INVALID_VALUE`. -/
def Answered (s : State) (r : Result) : Prop :=
  ∃ u results st esel, r = answer results st esel u ∧ u.inbox = s.inbox ∧ (st ≠ .invalidValue → esel = 0#8)

section
variable {s : State}

/-! ### How a command ends -/

theorem respond_answered {u : State} (rs : List Word) (h : u.inbox = s.inbox) : Answered s (respond rs u) :=
  ⟨u, rs, .ok, 0#8, rfl, h, fun _ => rfl⟩

theorem refuse_answered (st : Status) : Answered s (refuse st s) := ⟨s, [], st, 0#8, rfl, rfl, fun _ => rfl⟩

theorem rejectValue_answered (esel : BitVec 8) (v : F32) : Answered s (rejectValue esel v s) :=
  ⟨s, [v], .invalidValue, esel, rfl, rfl, fun h => absurd rfl h⟩

theorem takeFault_answered (ys : List F32) : Answered s (takeFault ys s) :=
  ⟨_, ys, .fault, 0#8, rfl, rfl, fun _ => rfl⟩

/-! ### The checks: what they let pass is answered -/

theorem ite_answered {c : Prop} [Decidable c] {k j : Result} (hk : Answered s k) (hj : Answered s j) :
    Answered s (if c then k else j) := by
  split
  · exact hk
  · exact hj

theorem unlessFaulted_answered {k : Result} (hk : s.regs.fault = false → Answered s k) :
    Answered s (unlessFaulted s k) := by
  cases hf : s.regs.fault with
  | true => exact unlessFaulted_refuses s k hf ▸ refuse_answered .faulted
  | false => exact (unlessFaulted_pass s k hf).symm ▸ hk hf

theorem unlessOwned_answered {k : Result} (hk : Answered s k) : Answered s (unlessOwned s k) :=
  ite_answered (refuse_answered .owned) hk

theorem newLeaf_answered {k : Result} (hk : Answered s k) : Answered s (newLeaf s k) :=
  unlessFaulted_answered fun _ => unlessOwned_answered hk

theorem unlessInvalid_answered (bad : Option (BitVec 8 × F32)) {k : Result} (hk : Answered s k) :
    Answered s (unlessInvalid s bad k) := by
  cases bad with
  | none => exact hk
  | some rejected => exact rejectValue_answered rejected.1 rejected.2

/-- The invariants bound the indices into a Delay Line's store (10_state.md R16). -/
theorem readDl_answered (hs : s.Inv) {k : DelayLine → Result}
    (hk : ∀ d, 1 ≤ d.n → d.w < d.n → d.r < d.n → Answered s (k d)) : Answered s (readDl s k) :=
  unlessFaulted_answered fun _ => by
    obtain ⟨⟨-, -, hline, -⟩, -, -⟩ := hs
    unfold withDl
    split
    next => exact refuse_answered .notConstructed
    next d hd =>
      obtain ⟨h1, -, hw, hr, -, -⟩ := hline d hd
      exact hk d h1 hw hr

theorem mutateDl_answered (hs : s.Inv) {k : DelayLine → Result}
    (hk : ∀ d, 1 ≤ d.n → d.w < d.n → d.r < d.n → Answered s (k d)) : Answered s (mutateDl s k) :=
  readDl_answered hs fun d h1 hw hr => unlessOwned_answered (hk d h1 hw hr)

theorem readLfo_answered {k : Oscillator → Result} (hk : ∀ o, Answered s (k o)) : Answered s (readLfo s k) :=
  unlessFaulted_answered fun _ => by
    unfold withLfo
    split
    next => exact refuse_answered .notConstructed
    next o _ => exact hk o

theorem mutateLfo_answered {k : Oscillator → Result} (hk : ∀ o, Answered s (k o)) : Answered s (mutateLfo s k) :=
  readLfo_answered fun o => unlessOwned_answered (hk o)

theorem onEng_answered {k : Engine → Result}
    (hk : ∀ e, s.regs.fault = false → s.regs.eng = some e → Answered s (k e)) : Answered s (onEng s k) :=
  unlessFaulted_answered fun hf => by
    unfold withEng
    split
    next => exact refuse_answered .notConstructed
    next e he => exact hk e hf he

/-- The invariants give an engine its leaves (10_state.md R12, R23), so `leafMissing` is not met. -/
theorem withOwned_answered (hs : s.Inv) {e : Engine} (hf : s.regs.fault = false) (he : s.regs.eng = some e)
    {k : DelayLine → Oscillator → Result} (hk : ∀ d o, Voice.Ok s.capMax ⟨d, o, e⟩ → Answered s (k d o)) :
    Answered s (withOwned s k) := by
  obtain ⟨⟨-, -, -, hleaves⟩, -, -⟩ := id hs
  obtain ⟨hdl, hlfo⟩ := hleaves (Option.isSome_iff_exists.2 ⟨e, he⟩)
  obtain ⟨d, hd⟩ := Option.isSome_iff_exists.1 hdl
  obtain ⟨o, ho⟩ := Option.isSome_iff_exists.1 hlfo
  rw [withOwned_pass s k d o hd ho]
  exact hk d o (voice_ok_of_inv s d o e hs hf hd ho he)

/-! ### Store accesses: the indices are below `DL.N` (20_memory.md R41), so `storeBounds` is not met -/

theorem withStore_memRead_answered {d : DelayLine} {i : Nat} {k : F32 → Result} (h : i < d.n)
    (hk : ∀ v, Answered s (k v)) : Answered s (withStore (d.memRead i) k) := by
  rw [memRead_of_lt d i h]
  exact hk _

theorem withStore_memWrite_answered {d : DelayLine} {i : Nat} {v : F32} {k : DelayLine → Result} (h : i < d.n)
    (hk : ∀ d', Answered s (k d')) : Answered s (withStore (d.memWrite i v) k) := by
  rw [memWrite_of_lt d i v h]
  exact hk _

theorem withStore_getf_answered {d : DelayLine} {o : F32} {k : F32 → Result} (h : 1 ≤ d.n)
    (hk : ∀ y, Answered s (k y)) : Answered s (withStore (d.getf o) k) := by
  rw [getf_eq d o h]
  exact hk _

/-! ### The sample loop stays inside the store -/

theorem sampleStep_ne_bounds (x : F32) (v : Voice) (hw : v.dl.w < v.dl.n) : sampleStep x v ≠ .bounds := by
  cases hr : offsetOutOfRange (v.eng.offset v.lfo.value) v.dl.n with
  | true => simp [(sampleStep_outOfRange x v).2 hr]
  | false => simp [sampleStep_of_inRange x v hr hw]

theorem BlockOutcome.cons_ne_bounds (y : F32) {b : BlockOutcome} (h : b ≠ .bounds) : b.cons y ≠ .bounds := by
  cases b with
  | bounds => exact absurd rfl h
  | outputs ys v => exact nofun
  | outOfRange ys => exact nofun

theorem runBlock_ne_bounds (xs : List F32) (v : Voice) (hw : v.dl.w < v.dl.n) : runBlock xs v ≠ .bounds := by
  induction xs generalizing v with
  | nil => exact nofun
  | cons x xs ih =>
    cases hstep : sampleStep x v with
    | outOfRange => simp [runBlock_cons_outOfRange x xs v hstep]
    | bounds => exact absurd hstep (sampleStep_ne_bounds x v hw)
    | output y v' =>
      obtain ⟨-, -, -, rfl⟩ := sampleStep_output x y v v' hstep
      rw [runBlock_cons_output x y xs v _ hstep]
      exact BlockOutcome.cons_ne_bounds y (ih _ (Nat.mod_lt _ (by omega)))

/-! ### The engine commands with stops of their own -/

/-- The originals of an engine can be sized (43_engine.md R173), so `sizeLost` is not met. -/
theorem execEngReset_answered (hs : s.Inv) : Answered s (execEngReset s) :=
  onEng_answered fun e hf he => withOwned_answered hs hf he fun d o hvoice => by
    obtain ⟨-, -, -, -, -, d0, hsize, -⟩ := hvoice.owns
    simp only [hsize]
    exact respond_answered [] rfl

theorem execEngSetp_answered (hs : s.Inv) (sel : EngParam) (value : F32) : Answered s (execEngSetp sel value s) :=
  onEng_answered fun _ hf he =>
    ite_answered (withOwned_answered hs hf he fun _ _ _ => respond_answered [] rfl) (rejectValue_answered sel.sel value)

theorem execEngProc_answered (hs : s.Inv) (samples : List F32) : Answered s (execEngProc samples s) :=
  onEng_answered fun e hf he => withOwned_answered hs hf he fun d o hvoice => by
    obtain ⟨-, -, hw, -, -, -⟩ := hvoice.dl
    split
    next ys v _ => exact respond_answered ys rfl
    next ys _ => exact takeFault_answered ys
    next hrun => exact absurd hrun (runBlock_ne_bounds samples _ hw)

theorem execEngNew_answered (sr mf depth base : F32) : Answered s (execEngNew sr mf depth base s) :=
  unlessFaulted_answered fun _ => unlessInvalid_answered _ <| by
    split
    next => exact refuse_answered .badSize
    next => exact respond_answered [] rfl

/-! ### Every command, every step -/

/-- In a state with the invariants every command is answered. -/
theorem exec_answered (i : Instr) (hs : s.Inv) : Answered s (exec i s) := by
  cases i with
  | sysStatus => exact respond_answered _ rfl
  | dlNew capacity => exact newLeaf_answered (ite_answered (respond_answered _ rfl) (refuse_answered _))
  | dlReset => exact mutateDl_answered hs fun _ _ _ _ => respond_answered _ rfl
  | dlPush value =>
    exact mutateDl_answered hs fun _ _ hw _ => withStore_memWrite_answered hw fun _ => respond_answered _ rfl
  | dlPop =>
    exact mutateDl_answered hs fun _ _ _ hr => withStore_memRead_answered hr fun _ => respond_answered _ rfl
  | dlPut value =>
    exact mutateDl_answered hs fun _ _ hw _ => withStore_memWrite_answered hw fun _ => respond_answered _ rfl
  | dlPeek =>
    exact readDl_answered hs fun _ _ _ hr => withStore_memRead_answered hr fun _ => respond_answered _ rfl
  | dlGet offset =>
    exact readDl_answered hs fun d h1 _ _ => withStore_memRead_answered (slot_lt d _ h1) fun _ => respond_answered _ rfl
  | dlGetf offset =>
    exact readDl_answered hs fun _ h1 _ _ =>
      ite_answered (takeFault_answered _) (withStore_getf_answered h1 fun _ => respond_answered _ rfl)
  | dlGetwi | dlGetri | dlLen | dlCap => exact readDl_answered hs fun _ _ _ _ => respond_answered _ rfl
  | dlSetwi index | dlSetri index => exact mutateDl_answered hs fun _ _ _ _ => respond_answered _ rfl
  | lfoNew sr freq phase => exact newLeaf_answered (unlessInvalid_answered _ (respond_answered _ rfl))
  | lfoReset | lfoAdv => exact mutateLfo_answered fun _ => respond_answered _ rfl
  | lfoSetp sel value =>
    exact mutateLfo_answered fun _ => ite_answered (respond_answered _ rfl) (rejectValue_answered _ _)
  | lfoGetp sel => exact readLfo_answered fun _ => respond_answered _ rfl
  | engNew sr mf depth base => exact execEngNew_answered sr mf depth base
  | engReset => exact execEngReset_answered hs
  | engSetp sel value => exact execEngSetp_answered hs sel value
  | engGetp sel => exact onEng_answered fun _ _ _ => respond_answered _ rfl
  | engProc samples => exact execEngProc_answered hs samples
  | engFree | engGett => exact onEng_answered fun _ _ _ => respond_answered _ rfl

end

/-- A step on a pending frame that is no command (60_exceptions.md R213). -/
theorem step_of_decode_error (s : State) (f : Frame) (rest : List HostEvent) (e : DecodeError)
    (h : s.inbox = .command f :: rest) (hdecode : decode f = .error e) :
    step s = answerIllegal { s with inbox := rest } := by
  rw [step, nextEvent_cons s (.command f) rest h]
  simp only [hdecode]

/-- A step on a pending frame is answered, whether or not the frame decodes; the frame is consumed. -/
theorem step_answered (s : State) (f : Frame) (rest : List HostEvent) (hs : s.Inv) (h : s.inbox = .command f :: rest) :
    Answered { s with inbox := rest } (step s) := by
  cases hdecode : decode f with
  | ok i =>
    rw [stepRunsDecodedCommand s f rest i h hdecode]
    exact exec_answered i hs
  | error e =>
    rw [step_of_decode_error s f rest e h hdecode]
    exact refuse_answered .illegalCmd

/-! ### The status word (30_encoding.md R70, R71) -/

theorem status_code_le (st : Status) : st.code.toNat ≤ 7 := by cases st <;> decide

theorem status_code_invalidValue : Status.invalidValue.code = 0x01#8 := rfl

/-- Settles O12: a frame is answered by `step_answered`, the other events have their one next state. -/
theorem stepNeverStops : Obligations.StepNeverStops := by
  intro s hs
  cases hinbox : s.inbox with
  | nil => exact ⟨s, by rw [step, nextEvent_nil s hinbox], nofun⟩
  | cons event rest =>
    cases event with
    | command f =>
      obtain ⟨u, results, st, esel, hstep, hu, hesel⟩ := step_answered s f rest hs hinbox
      refine ⟨{ u with rsp := responseFrame results st esel }, hstep, ?_⟩
      rintro _ _ ⟨⟩
      exact ⟨hu, results, esel, st.code, rfl, status_code_le st, fun hcode =>
        hesel fun hst => hcode (hst ▸ status_code_invalidValue)⟩
    | reset => exact ⟨_, by rw [step, nextEvent_cons s .reset rest hinbox], nofun⟩
    | resetDuring f => exact ⟨_, by rw [step, nextEvent_cons s (.resetDuring f) rest hinbox], nofun⟩

end Sys2Proof.Machine
end

section
/-! A finite datum as a number: the value of a magnitude pattern, its order and what patterns there are (40_numerics.md R90,
R92), and `real(a)` of R97 in these terms. -/

namespace Sys2Proof.Machine

/-! ### The value of a magnitude pattern -/

/-- The value of a magnitude pattern in units of 2^-149 (R90), the exponent unbounded. -/
def unitsOfMag (m : Nat) : Nat := if m < 2 ^ 23 then m else (2 ^ 23 + m % 2 ^ 23) * 2 ^ (m / 2 ^ 23 - 1)

theorem units_eq_unitsOfMag (a : F32) : units a = unitsOfMag (magBits a) := by
  have hsplit := magBits_split a
  have hfrac := fracField_lt a
  have hexp : magBits a / 2 ^ 23 = expField a := by omega
  have hmod : magBits a % 2 ^ 23 = fracField a := by omega
  rw [units, unitsOfMag, hexp, hmod]
  rcases Nat.eq_zero_or_pos (expField a) with h | h
  · rw [if_pos h, if_pos (by omega)]
    omega
  · rw [if_neg (by omega), if_neg (by omega)]

/-- `q` quanta of `2^k` units have the pattern `k · 2^23 + q`: `q` is normalised, or the quantum is one unit (R92). -/
theorem unitsOfMag_quanta (k q : Nat) (hq : q ≤ 2 ^ 24) (h : k = 0 ∨ 2 ^ 23 ≤ q) :
    unitsOfMag (k * 2 ^ 23 + q) = q * 2 ^ k := by
  rw [unitsOfMag]
  rcases Nat.lt_or_ge q (2 ^ 23) with hlt | hge
  · obtain rfl : k = 0 := by omega
    rw [if_pos (by omega)]
    omega
  · rw [if_neg (by omega)]
    rcases Nat.lt_or_ge q (2 ^ 24) with hlt | hge
    · have hdiv : (k * 2 ^ 23 + q) / 2 ^ 23 - 1 = k := by omega
      have hmod : 2 ^ 23 + (k * 2 ^ 23 + q) % 2 ^ 23 = q := by omega
      rw [hdiv, hmod]
    · obtain rfl : q = 2 ^ 24 := by omega
      have hdiv : (k * 2 ^ 23 + 2 ^ 24) / 2 ^ 23 - 1 = k + 1 := by omega
      have hmod : (k * 2 ^ 23 + 2 ^ 24) % 2 ^ 23 = 0 := by omega
      rw [hdiv, hmod]
      ring

/-- Every pattern is a number of quanta below 2^24. -/
theorem exists_quanta (m : Nat) : ∃ k q, q < 2 ^ 24 ∧ (k = 0 ∨ 2 ^ 23 ≤ q) ∧ m = k * 2 ^ 23 + q :=
  ⟨m / 2 ^ 23 - 1, m - (m / 2 ^ 23 - 1) * 2 ^ 23, by omega, by omega, by omega⟩

/-- Patterns are in the order of their values. -/
theorem unitsOfMag_strictMono : StrictMono unitsOfMag := by
  refine strictMono_nat_of_lt_succ fun m => ?_
  obtain ⟨k, q, hq, hk, rfl⟩ := exists_quanta m
  rw [unitsOfMag_quanta k q hq.le hk, Nat.add_assoc, unitsOfMag_quanta k (q + 1) hq (by omega)]
  exact Nat.mul_lt_mul_of_pos_right (Nat.lt_succ_self q) (Nat.two_pow_pos k)

@[simp] theorem unitsOfMag_zero : unitsOfMag 0 = 0 := rfl

@[simp] theorem unitsOfMag_one : unitsOfMag (magBits fone) = unitsPerOne := by decide +kernel

theorem unitsOfMag_infBits : unitsOfMag infBits = 2 ^ 24 * 2 ^ 253 := by
  have h : infBits = 253 * 2 ^ 23 + 2 ^ 24 := by norm_num [infBits]
  rw [h, unitsOfMag_quanta 253 (2 ^ 24) le_rfl (by norm_num)]

theorem unitsOfMag_lastFinite : unitsOfMag (infBits - 1) = (2 ^ 24 - 1) * 2 ^ 253 :=
  unitsOfMag_quanta 253 (2 ^ 24 - 1) (by norm_num) (by norm_num)

theorem unitsPerOne_pos : 0 < unitsPerOne := Nat.two_pow_pos 149

/-! ### The numbers of units with 24 significant bits -/

/-- A number of units with 24 significant bits: the magnitudes of the data, the exponent unbounded. -/
def Representable (n : Nat) : Prop := ∃ q k, q < 2 ^ 24 ∧ n = q * 2 ^ k

theorem representable_unitsOfMag (m : Nat) : Representable (unitsOfMag m) := by
  obtain ⟨k, q, hq, hk, rfl⟩ := exists_quanta m
  exact ⟨q, k, hq, unitsOfMag_quanta k q hq.le hk⟩

theorem representable_units (a : F32) : Representable (units a) := units_eq_unitsOfMag a ▸ representable_unitsOfMag _

/-- A whole number up to 2^24, in units (40_numerics.md R98). -/
theorem representable_mul_unitsPerOne (n : Nat) (h : n ≤ 2 ^ 24) : Representable (n * unitsPerOne) := by
  rcases h.lt_or_eq with hlt | rfl
  · exact ⟨n, 149, hlt, rfl⟩
  · exact ⟨1, 173, by norm_num, by norm_num [unitsPerOne]⟩

theorem exists_unitsOfMag {n : Nat} (h : Representable n) : ∃ m, unitsOfMag m = n := by
  obtain ⟨q, k, hq, rfl⟩ := h
  induction k generalizing q with
  | zero => exact ⟨q, by simpa using unitsOfMag_quanta 0 q hq.le (.inl rfl)⟩
  | succ k ih =>
    rcases Nat.lt_or_ge q (2 ^ 23) with hlt | hge
    · obtain ⟨m, hm⟩ := ih (2 * q) (by omega)
      exact ⟨m, by rw [hm, Nat.pow_succ]; ring⟩
    · exact ⟨(k + 1) * 2 ^ 23 + q, unitsOfMag_quanta (k + 1) q hq.le (.inr hge)⟩

/-- A remainder keeps to the coarser of the two quanta or stays below the dividend, so it needs no more bits (R105). -/
theorem Representable.mod {x y : Nat} (hx : Representable x) (hy : Representable y) (hpos : 0 < y) : Representable (x % y) := by
  obtain ⟨q, k, hq, rfl⟩ := hx
  obtain ⟨p, l, hp, rfl⟩ := hy
  rcases Nat.le_total l k with h | h
  · obtain ⟨d, rfl⟩ := Nat.exists_eq_add_of_le h
    have hp0 : 0 < p := Nat.pos_of_mul_pos_right hpos
    refine ⟨q * 2 ^ d % p, l, (Nat.mod_lt _ hp0).trans hp, ?_⟩
    rw [← Nat.mul_mod_mul_right, Nat.pow_add]
    ring_nf
  · obtain ⟨d, rfl⟩ := Nat.exists_eq_add_of_le h
    refine ⟨q % (p * 2 ^ d), k, (Nat.mod_le _ _).trans_lt hq, ?_⟩
    rw [← Nat.mul_mod_mul_right, Nat.pow_add]
    ring_nf

/-- A magnitude of at least 2^23 is a whole number (40_numerics.md R97). -/
theorem Representable.dvd_of_le {n : Nat} (h : Representable n) (hn : 2 ^ 23 * unitsPerOne ≤ n) : unitsPerOne ∣ n := by
  obtain ⟨q, k, hq, rfl⟩ := h
  have hk : 2 ^ (23 + 149) < 2 ^ (24 + k) := by
    calc 2 ^ (23 + 149) = 2 ^ 23 * unitsPerOne := Nat.pow_add 2 23 149
      _ ≤ q * 2 ^ k := hn
      _ < 2 ^ 24 * 2 ^ k := Nat.mul_lt_mul_of_pos_right hq (Nat.two_pow_pos k)
      _ = 2 ^ (24 + k) := (Nat.pow_add 2 24 k).symm
  have hexp := (Nat.pow_lt_pow_iff_right (by norm_num)).1 hk
  exact (Nat.pow_dvd_pow 2 (by omega)).mul_left q

/-! ### The value of a datum (R97) -/

theorem isZero_iff (a : F32) : isZero a = true ↔ units a = 0 := by
  rw [isZero, beq_iff_eq, units_eq_unitsOfMag, ← unitsOfMag_strictMono.injective.eq_iff, unitsOfMag_zero]

@[simp] theorem isZero_fneg (a : F32) : isZero (fneg a) = isZero a := by simp [isZero]

@[simp] theorem units_fneg (a : F32) : units (fneg a) = units a := by simp [units_eq_unitsOfMag]

@[simp] theorem signedUnits_fneg (a : F32) : signedUnits (fneg a) = -signedUnits a := by
  cases h : signBit a <;> simp [signedUnits, h]

theorem natAbs_signedUnits (a : F32) : (signedUnits a).natAbs = units a := by
  cases h : signBit a <;> simp [signedUnits, h]

@[simp] theorem realOf_fneg (a : F32) : realOf (fneg a) = -realOf a := by simp [realOf, neg_div]

theorem unitsPerOne_cast_pos : (0 : Rat) < unitsPerOne := by exact_mod_cast unitsPerOne_pos

theorem realOf_mul_unitsPerOne (a : F32) : realOf a * unitsPerOne = signedUnits a :=
  div_mul_cancel₀ _ unitsPerOne_cast_pos.ne'

theorem abs_realOf (a : F32) : |realOf a| = (units a : Rat) / unitsPerOne := by
  rw [realOf, abs_div, abs_of_pos unitsPerOne_cast_pos, ← Int.cast_abs, Int.abs_eq_natAbs, natAbs_signedUnits]
  rfl

theorem realOf_of_pos {a : F32} (h : signBit a = false) : realOf a = |realOf a| := by
  rw [abs_realOf, realOf, signedUnits, h]
  rfl

theorem realOf_of_neg {a : F32} (h : signBit a = true) : realOf a = -|realOf a| := by
  rw [abs_realOf, realOf, signedUnits, h]
  simp [neg_div]

theorem realOf_eq_zero_iff (a : F32) : realOf a = 0 ↔ units a = 0 := by
  rw [← abs_eq_zero, abs_realOf, div_eq_zero_iff]
  simp [unitsPerOne_pos.ne']

theorem signedUnits_of_neg {a : F32} (h : signBit a = true) : signedUnits a = -units a := by rw [signedUnits, if_pos h]

theorem signedUnits_of_pos {a : F32} (h : signBit a = false) : signedUnits a = units a := by
  rw [signedUnits, if_neg (by rw [h]; exact Bool.false_ne_true)]

theorem realOf_neg_iff (a : F32) : realOf a < 0 ↔ signedUnits a < 0 := by
  rw [realOf, div_lt_iff₀ unitsPerOne_cast_pos, zero_mul, Int.cast_lt_zero]

theorem realOf_nonneg_iff (a : F32) : 0 ≤ realOf a ↔ 0 ≤ signedUnits a := by
  rw [← not_lt, realOf_neg_iff, not_lt]

theorem realOf_pos_iff (a : F32) : 0 < realOf a ↔ signBit a = false ∧ 0 < units a := by
  rw [realOf, div_pos_iff_of_pos_right unitsPerOne_cast_pos, Int.cast_pos, signedUnits]
  cases signBit a <;> simp

/-- The sign bit of a datum that is not zero is the sign of its value. -/
theorem signBit_eq_decide (a : F32) (h : realOf a ≠ 0) : signBit a = decide (realOf a < 0) := by
  cases hs : signBit a with
  | false =>
    rw [realOf_of_pos hs]
    exact (decide_eq_false (abs_nonneg _).not_gt).symm
  | true =>
    rw [realOf_of_neg hs]
    exact (decide_eq_true (neg_lt_zero.2 (abs_pos.2 h))).symm

/-- The magnitude of a finite datum. -/
theorem units_ofSignMag (s : Bool) (m : Nat) (h : m ≤ infBits) : units (ofSignMag s m) = unitsOfMag m := by
  rw [units_eq_unitsOfMag, magBits_ofSignMag s m (by rw [infBits] at h; omega)]

theorem isFinite_ofSignMag (s : Bool) (m : Nat) (h : m < infBits) : isFinite (ofSignMag s m) = true := by
  rwa [isFinite_iff, magBits_ofSignMag s m (by rw [infBits] at h; omega)]

theorem units_lt_of_isFinite (a : F32) (h : isFinite a = true) : units a < unitsOfMag infBits := by
  rw [units_eq_unitsOfMag]
  exact unitsOfMag_strictMono ((isFinite_iff a).1 h)

end Sys2Proof.Machine
end

section
/-! The one rounding of 40_numerics.md R91: `roundUnits` gives the pattern nearest to the exact value, the even one of two,
and infinity from the overflow bound on; so it is exact on what has 24 significant bits. -/

namespace Sys2Proof.Machine

/-! ### The nearest pattern, the exponent unbounded -/

/-- No pattern's value is nearer to `x` units than that of `m`; if another is as near, `m` is even (R91). -/
def NearestMag (x : Rat) (m : Nat) : Prop :=
  ∀ z, |x - unitsOfMag m| ≤ |x - unitsOfMag z| ∧ (z ≠ m → |x - unitsOfMag z| = |x - unitsOfMag m| → m % 2 = 0)

section
variable {x : Rat} {m z : Nat}

theorem unitsOfMag_cast_le (h : m ≤ z) : (unitsOfMag m : Rat) ≤ unitsOfMag z :=
  Nat.cast_le.2 (unitsOfMag_strictMono.monotone h)

theorem unitsOfMag_cast_lt (h : m < z) : (unitsOfMag m : Rat) < unitsOfMag z := Nat.cast_lt.2 (unitsOfMag_strictMono h)

/-- Between two neighbours, in the lower half. -/
theorem nearestMag_lower (hm : unitsOfMag m ≤ x) (hmid : 2 * x ≤ unitsOfMag m + unitsOfMag (m + 1))
    (heven : 2 * x = unitsOfMag m + unitsOfMag (m + 1) → m % 2 = 0) : NearestMag x m := by
  intro z
  rw [abs_of_nonneg (sub_nonneg.2 hm)]
  rcases Nat.lt_or_ge m z with hz | hz
  · have hle := unitsOfMag_cast_le hz
    rw [abs_of_nonpos (by linarith)]
    exact ⟨by linarith, fun _ heq => heven (by linarith)⟩
  · have hle := unitsOfMag_cast_le hz
    rw [abs_of_nonneg (by linarith)]
    refine ⟨by linarith, fun hne heq => ?_⟩
    have hlt := unitsOfMag_cast_lt (lt_of_le_of_ne hz hne)
    linarith

/-- Between two neighbours, in the upper half. -/
theorem nearestMag_upper (hm : x < unitsOfMag (m + 1)) (hmid : unitsOfMag m + unitsOfMag (m + 1) ≤ 2 * x)
    (heven : 2 * x = unitsOfMag m + unitsOfMag (m + 1) → (m + 1) % 2 = 0) : NearestMag x (m + 1) := by
  intro z
  rw [abs_of_neg (sub_neg.2 hm)]
  rcases Nat.lt_or_ge z (m + 1) with hz | hz
  · have hle := unitsOfMag_cast_le (Nat.le_of_lt_succ hz)
    rw [abs_of_nonneg (by linarith [unitsOfMag_cast_lt (Nat.lt_succ_self m)])]
    exact ⟨by linarith, fun _ heq => heven (by linarith)⟩
  · have hle := unitsOfMag_cast_le hz
    rw [abs_of_neg (by linarith)]
    refine ⟨by linarith, fun hne heq => ?_⟩
    have hlt := unitsOfMag_cast_lt (lt_of_le_of_ne hz hne.symm)
    linarith

/-- What has a pattern is not rounded. -/
theorem NearestMag.eq_of_unitsOfMag (h : NearestMag (unitsOfMag z) m) : m = z := by
  have hle := (h z).1
  rw [sub_self, abs_zero, abs_nonpos_iff, sub_eq_zero, Nat.cast_inj] at hle
  exact unitsOfMag_strictMono.injective hle.symm

end

/-! ### The rounding of the model -/

/-- What `roundUnits` computes before it cuts off at infinity. -/
def unboundedRound (num den : Nat) : Nat :=
  ((num / den).log2 - 23) * 2 ^ 23 + roundHalfEven num (den * 2 ^ ((num / den).log2 - 23))

theorem roundUnits_eq_min (num den : Nat) : roundUnits num den = min (unboundedRound num den) infBits := rfl

/-- The quantum of the model leaves 24 significant bits, or it is one unit (R92). -/
theorem quotient_bounds (num den : Nat) :
    num / den / 2 ^ ((num / den).log2 - 23) < 2 ^ 24 ∧
    ((num / den).log2 - 23 = 0 ∨ 2 ^ 23 ≤ num / den / 2 ^ ((num / den).log2 - 23)) := by
  generalize num / den = n
  rcases Nat.lt_or_ge n (2 ^ 23) with h | h
  · have hk : n.log2 - 23 = 0 := by
      rcases Nat.eq_zero_or_pos n with rfl | hpos
      · rfl
      · have := (Nat.log2_lt hpos.ne').2 h
        omega
    rw [hk]
    omega
  · have hn : n ≠ 0 := by omega
    have hle : 23 ≤ n.log2 := (Nat.le_log2 hn).2 h
    refine ⟨?_, .inr ?_⟩
    · rw [Nat.div_lt_iff_lt_mul (Nat.two_pow_pos _), ← Nat.pow_add]
      exact Nat.lt_log2_self.trans_eq (by congr 1; omega)
    · rw [Nat.le_div_iff_mul_le (Nat.two_pow_pos _), ← Nat.pow_add]
      exact (Nat.le_of_eq (by congr 1; omega)).trans (Nat.log2_self_le hn)

/-- `roundHalfEven` goes by the fractional part `t` of the quotient. -/
theorem roundHalfEven_spec (num den : Nat) (hden : 0 < den) :
    ∃ t : Rat, (num : Rat) / den = (num / den : Nat) + t ∧ 0 ≤ t ∧ t < 1 ∧
      ((2 * t ≤ 1 ∧ (2 * t = 1 → num / den % 2 = 0) ∧ roundHalfEven num den = num / den) ∨
       (1 ≤ 2 * t ∧ (2 * t = 1 → num / den % 2 = 1) ∧ roundHalfEven num den = num / den + 1)) := by
  have hpos : (0 : Rat) < den := Nat.cast_pos.2 hden
  refine ⟨(num % den : Nat) / den, ?_, by positivity, ?_, ?_⟩
  · rw [div_eq_iff hpos.ne', add_mul, div_mul_cancel₀ _ hpos.ne']
    exact_mod_cast (Nat.div_add_mod' num den).symm
  · exact (div_lt_one hpos).2 (Nat.cast_lt.2 (Nat.mod_lt num hden))
  · rw [← mul_div_assoc, div_le_one hpos, one_le_div hpos, div_eq_one_iff_eq hpos.ne']
    norm_cast
    simp only [roundHalfEven]
    split
    · next h => exact .inl ⟨h.le, by omega, rfl⟩
    · split
      · next h => exact .inr ⟨h.le, by omega, rfl⟩
      · rcases Nat.mod_two_eq_zero_or_one (num / den) with h | h
        · exact .inl ⟨by omega, fun _ => h, by omega⟩
        · exact .inr ⟨by omega, fun _ => h, by omega⟩

theorem unboundedRound_nearest (num den : Nat) (hden : 0 < den) : NearestMag ((num : Rat) / den) (unboundedRound num den) := by
  obtain ⟨hq, hk⟩ := quotient_bounds num den
  rw [unboundedRound]
  generalize (num / den).log2 - 23 = k at hq hk
  obtain ⟨t, hquot, ht0, ht1, hcases⟩ := roundHalfEven_spec num (den * 2 ^ k) (Nat.mul_pos hden (Nat.two_pow_pos k))
  rw [Nat.div_div_eq_div_mul] at hq hk
  generalize num / (den * 2 ^ k) = q at hq hk hquot hcases
  have hlow : (unitsOfMag (k * 2 ^ 23 + q) : Rat) = q * 2 ^ k := by
    rw [unitsOfMag_quanta k q hq.le hk, Nat.cast_mul, Nat.cast_pow, Nat.cast_ofNat]
  have hhigh : (unitsOfMag (k * 2 ^ 23 + q + 1) : Rat) = q * 2 ^ k + 2 ^ k := by
    rw [Nat.add_assoc, unitsOfMag_quanta k (q + 1) hq (by omega), Nat.cast_mul, Nat.cast_pow, Nat.cast_ofNat, Nat.cast_succ,
      add_one_mul]
  have hpow : (0 : Rat) < 2 ^ k := by positivity
  have hx : (num : Rat) / den = q * 2 ^ k + t * 2 ^ k := by
    rw [← add_mul, ← hquot, Nat.cast_mul, Nat.cast_pow, Nat.cast_ofNat, ← div_div, div_mul_cancel₀ _ hpow.ne']
  generalize (2 : Rat) ^ k = quantum at hlow hhigh hpow hx
  have htie (heq : 2 * (q * quantum + t * quantum) = q * quantum + (q * quantum + quantum)) : 2 * t = 1 :=
    mul_right_cancel₀ hpow.ne' (by linarith)
  rw [hx]
  obtain ⟨hle, heven, hround⟩ | ⟨hle, hodd, hround⟩ := hcases <;> rw [hround]
  · have hmid := mul_le_mul_of_nonneg_right hle hpow.le
    have ht := mul_nonneg ht0 hpow.le
    refine nearestMag_lower (by linarith) (by linarith) fun heq => ?_
    have := heven (htie (by rwa [hlow, hhigh] at heq))
    omega
  · have hmid := mul_le_mul_of_nonneg_right hle hpow.le
    have ht := mul_lt_mul_of_pos_right ht1 hpow
    rw [← Nat.add_assoc]
    refine nearestMag_upper (by linarith) (by linarith) fun heq => ?_
    have := hodd (htie (by rwa [hlow, hhigh] at heq))
    omega

/-- A magnitude that has a pattern is not rounded, infinity's included. -/
theorem roundUnits_unitsOfMag (m den : Nat) (hden : 0 < den) (hm : m ≤ infBits) : roundUnits (unitsOfMag m * den) den = m := by
  have h := unboundedRound_nearest (unitsOfMag m * den) den hden
  have hcast : (((unitsOfMag m * den : Nat) : Rat)) / den = unitsOfMag m := by
    rw [Nat.cast_mul, mul_div_cancel_right₀ _ (Nat.cast_ne_zero.2 hden.ne')]
  rw [hcast] at h
  rw [roundUnits_eq_min, h.eq_of_unitsOfMag, Nat.min_eq_left hm]

/-- A number of units that a finite datum has is that of its pattern. -/
theorem roundUnits_exact {n : Nat} (h : Representable n) (hlt : n < unitsOfMag infBits) :
    unitsOfMag (roundUnits n 1) = n ∧ roundUnits n 1 < infBits := by
  obtain ⟨m, rfl⟩ := exists_unitsOfMag h
  have hm := unitsOfMag_strictMono.lt_iff_lt.1 hlt
  have hround := roundUnits_unitsOfMag m 1 Nat.one_pos hm.le
  rw [Nat.mul_one] at hround
  rw [hround]
  exact ⟨rfl, hm⟩

@[simp] theorem roundUnits_zero : roundUnits 0 1 = 0 := roundUnits_unitsOfMag 0 1 Nat.one_pos (Nat.zero_le _)

theorem roundUnits_units (a : F32) (h : isFinite a = true) : roundUnits (units a) 1 = magBits a := by
  have := roundUnits_unitsOfMag (magBits a) 1 Nat.one_pos ((isFinite_iff a).1 h).le
  rwa [Nat.mul_one, ← units_eq_unitsOfMag] at this

/-! ### Overflow -/

/-- `2^128 − 2^103`, the middle of the largest finite datum and the next pattern's value. -/
theorem overflowBound_mul_unitsPerOne :
    overflowBound * unitsPerOne * 2 = unitsOfMag (infBits - 1) + unitsOfMag infBits := by
  rw [unitsOfMag_lastFinite, unitsOfMag_infBits, overflowBound, unitsPerOne]
  norm_num

section
variable {x : Rat} {m : Nat}

theorem NearestMag.lt_infBits (h : NearestMag x m) (hx : x < overflowBound * unitsPerOne) : m < infBits := by
  by_contra hm
  have hle := (h (infBits - 1)).1
  have hbig := unitsOfMag_cast_le (Nat.le_of_not_lt hm)
  have hmid := overflowBound_mul_unitsPerOne
  have hstep : (unitsOfMag (infBits - 1) : Rat) < unitsOfMag infBits := unitsOfMag_cast_lt (by norm_num [infBits])
  rw [abs_of_neg (by linarith)] at hle
  have := le_abs.1 hle
  rcases this with h1 | h1 <;> linarith

theorem NearestMag.infBits_le (h : NearestMag x m) (hx : overflowBound * unitsPerOne ≤ x) : infBits ≤ m := by
  by_contra hm
  have hsmall : m ≤ infBits - 1 := by omega
  have hle := unitsOfMag_cast_le hsmall
  have hmid := overflowBound_mul_unitsPerOne
  have hstep : (unitsOfMag (infBits - 1) : Rat) < unitsOfMag infBits := unitsOfMag_cast_lt (by norm_num [infBits])
  obtain ⟨hnear, htie⟩ := h infBits
  have hfar : |x - unitsOfMag m| = x - unitsOfMag m := abs_of_pos (by linarith)
  have hdist : |x - unitsOfMag infBits| ≤ x - unitsOfMag (infBits - 1) := abs_le.2 ⟨by linarith, by linarith⟩
  have heq : (unitsOfMag m : Rat) = unitsOfMag (infBits - 1) := by linarith
  have hm' := unitsOfMag_strictMono.injective (Nat.cast_injective heq)
  have hodd := htie (by omega) (by linarith)
  rw [hm', infBits] at hodd
  omega

end

/-! ### A rounded result is nearest (R91) -/

theorem getLsbD_zero_eq_false_iff (a : F32) : a.getLsbD 0 = false ↔ magBits a % 2 = 0 := by
  rw [magBits_eq, BitVec.getLsbD, Nat.testBit_zero, decide_eq_false_iff_not]
  omega

/-- What a rounded result of the right sign is away from `x`, its magnitude is away from that of `x`. -/
theorem abs_sub_realOf_of_sign {x : Rat} {y : F32} (h : x ≠ 0 → signBit y = decide (x < 0)) :
    |x - realOf y| = |(|x| - |realOf y|)| := by
  rcases lt_trichotomy x 0 with hx | rfl | hx
  · rw [realOf_of_neg ((h hx.ne).trans (decide_eq_true hx)), abs_of_neg hx, abs_neg, abs_abs, ← abs_neg]
    congr 1
    ring
  · simp
  · rw [realOf_of_pos ((h hx.ne').trans (decide_eq_false hx.not_gt)), abs_of_pos hx, abs_abs]

theorem abs_sub_abs_realOf_mul (x : Rat) (z : F32) :
    |(|x| - |realOf z|)| * unitsPerOne = |(|x| * unitsPerOne - unitsOfMag (magBits z))| := by
  have hone := unitsPerOne_cast_pos
  calc |(|x| - |realOf z|)| * unitsPerOne
      = |(|x| - |realOf z|) * unitsPerOne| := by rw [abs_mul, abs_of_pos hone]
    _ = |(|x| * unitsPerOne - unitsOfMag (magBits z))| := by
      rw [abs_realOf, units_eq_unitsOfMag, sub_mul, div_mul_cancel₀ _ hone.ne']

/-- A finite datum of the right sign whose magnitude is the nearest one is the rounded `x` (R91): the wrong sign only adds
distance, and where it adds none, `x` or the datum is zero. -/
theorem isNearest_of_nearestMag (x : Rat) (y : F32) (hbound : |x| < overflowBound) (hfin : isFinite y = true)
    (hs : x ≠ 0 → signBit y = decide (x < 0)) (hnear : NearestMag (|x| * unitsPerOne) (magBits y)) : IsNearest x y := by
  have hone := unitsPerOne_cast_pos
  have hy := abs_sub_realOf_of_sign hs
  have hmag (z : F32) : |(|x| - |realOf z|)| ≤ |x - realOf z| := abs_abs_sub_abs_le x (realOf z)
  have hle (z : F32) : |(|x| - |realOf y|)| ≤ |(|x| - |realOf z|)| := by
    rw [← mul_le_mul_iff_left₀ hone, abs_sub_abs_realOf_mul, abs_sub_abs_realOf_mul]
    exact (hnear _).1
  refine ⟨hs, ?_⟩
  rw [if_pos hbound]
  refine ⟨hfin, fun z _ => hy.le.trans ((hle z).trans (hmag z)), fun z _ htie hne => ?_⟩
  have hsame := le_antisymm ((hmag z).trans (htie.trans hy).le) (hle z)
  rw [← mul_left_inj' hone.ne', abs_sub_abs_realOf_mul, abs_sub_abs_realOf_mul] at hsame
  rw [getLsbD_zero_eq_false_iff]
  refine (hnear (magBits z)).2 (fun hz => hne ?_) hsame
  have habs : |realOf z| = |realOf y| := by rw [abs_realOf, abs_realOf, units_eq_unitsOfMag, units_eq_unitsOfMag, hz]
  rcases abs_eq_abs.1 habs with h | h
  · exact h
  · rw [h] at htie
    have hzero : realOf y = 0 := by
      rcases abs_eq_abs.1 htie with h0 | h0
      · linarith
      · obtain rfl : x = 0 := by linarith
        have h0 := hle fzero
        rwa [(realOf_eq_zero_iff fzero).2 rfl, abs_zero, sub_self, abs_zero, zero_sub, abs_neg, abs_abs, abs_nonpos_iff] at h0
    rw [h, hzero, neg_zero]

/-- The model's result of a sign and `num / den` units rounded is the rounded `x` of that sign and magnitude (R91). -/
theorem isNearest_ofSignMag (x : Rat) (s : Bool) (num den : Nat) (hden : 0 < den) (hx : |x| * unitsPerOne = (num : Rat) / den)
    (hs : x ≠ 0 → s = decide (x < 0)) : IsNearest x (ofSignMag s (roundUnits num den)) := by
  have hnear := unboundedRound_nearest num den hden
  rw [← hx] at hnear
  rw [roundUnits_eq_min]
  generalize unboundedRound num den = m at hnear
  rcases lt_or_ge |x| overflowBound with hlt | hge
  · have hfin := hnear.lt_infBits (mul_lt_mul_of_pos_right hlt unitsPerOne_cast_pos)
    rw [Nat.min_eq_left hfin.le]
    refine isNearest_of_nearestMag x _ hlt (isFinite_ofSignMag s m hfin) (by rwa [signBit_ofSignMag]) ?_
    rwa [magBits_ofSignMag s m (hfin.trans (by norm_num [infBits]))]
  · have hinf := hnear.infBits_le (mul_le_mul_of_nonneg_right hge unitsPerOne_cast_pos.le)
    refine ⟨by rwa [signBit_ofSignMag], ?_⟩
    rw [if_neg hge.not_gt, Nat.min_eq_right hinf, isInf_iff, magBits_ofSignMag s infBits (by norm_num [infBits])]

end Sys2Proof.Machine
end

section
/-! The four arithmetic operations and the comparisons (40_numerics.md R91 to R96): what they are on each kind of data. -/

namespace Sys2Proof.Machine

/-! ### The kinds of data (R90, R96) -/

theorem isFinite_iff_not_special (a : F32) : isFinite a = true ↔ isNaN a = false ∧ isInf a = false := by
  rw [← Bool.not_eq_true (isNaN a), ← Bool.not_eq_true (isInf a), isFinite_iff, isNaN_iff, isInf_iff]
  omega

section
variable {a : F32}

theorem isNaN_of_isFinite (h : isFinite a = true) : isNaN a = false := ((isFinite_iff_not_special a).1 h).1

theorem isInf_of_isFinite (h : isFinite a = true) : isInf a = false := ((isFinite_iff_not_special a).1 h).2

theorem isNaN_of_isInf (h : isInf a = true) : isNaN a = false := by
  rw [isInf_iff] at h
  rw [← Bool.not_eq_true, isNaN_iff]
  omega

theorem isZero_of_isInf (h : isInf a = true) : isZero a = false := by
  rw [isInf_iff] at h
  rw [isZero, h]
  rfl

theorem isFinite_of_isZero (h : isZero a = true) : isFinite a = true := by
  rw [isZero, beq_iff_eq] at h
  rw [isFinite_iff, h]
  norm_num [infBits]

end

/-- An infinity is one of two data (R90). -/
theorem eq_ofSignMag_of_isInf {a : F32} (h : isInf a = true) : a = ofSignMag (signBit a) infBits := by
  rw [← (isInf_iff a).1 h, ofSignMag_eta]

@[simp] theorem isInf_ofSignMag_infBits (s : Bool) : isInf (ofSignMag s infBits) = true := by
  rw [isInf_iff, magBits_ofSignMag s infBits (by norm_num [infBits])]

@[simp] theorem isZero_ofSignMag_zero (s : Bool) : isZero (ofSignMag s 0) = true := by cases s <;> decide

/-! ### Addition, multiplication and division of finite data (R91) -/

section
variable {a b : F32}

/-- The sign a zero sum has is R95's; of the others it is that of the sum. -/
def sumSign (a b : F32) : Bool :=
  if signedUnits a + signedUnits b = 0 then signBit a && signBit b else decide (signedUnits a + signedUnits b < 0)

theorem fadd_of_finite (ha : isFinite a = true) (hb : isFinite b = true) :
    fadd a b = ofSignMag (sumSign a b) (roundUnits (signedUnits a + signedUnits b).natAbs 1) := by
  simp only [fadd, sumSign, isNaN_of_isFinite ha, isNaN_of_isFinite hb, isInf_of_isFinite ha, isInf_of_isFinite hb,
    Bool.or_self, Bool.false_eq_true, if_false]
  split
  · next h => rw [h, Int.natAbs_zero, roundUnits_zero]
  · rfl

theorem fmul_of_finite (ha : isFinite a = true) (hb : isFinite b = true) :
    fmul a b = ofSignMag (signBit a != signBit b) (roundUnits (units a * units b) unitsPerOne) := by
  simp [fmul, isNaN_of_isFinite ha, isNaN_of_isFinite hb, isInf_of_isFinite ha, isInf_of_isFinite hb]

theorem fdiv_of_finite (ha : isFinite a = true) (hb : isFinite b = true) (hzero : isZero b = false) :
    fdiv a b = ofSignMag (signBit a != signBit b) (roundUnits (units a * unitsPerOne) (units b)) := by
  simp [fdiv, isNaN_of_isFinite ha, isNaN_of_isFinite hb, isInf_of_isFinite ha, isInf_of_isFinite hb, hzero]

theorem realOf_add_mul : (realOf a + realOf b) * unitsPerOne = ((signedUnits a + signedUnits b : Int) : Rat) := by
  rw [add_mul, realOf_mul_unitsPerOne, realOf_mul_unitsPerOne, Int.cast_add]

theorem fadd_isNearest (ha : isFinite a = true) (hb : isFinite b = true) : IsNearest (realOf a + realOf b) (fadd a b) := by
  have hone := unitsPerOne_cast_pos
  have hsum := realOf_add_mul (a := a) (b := b)
  rw [fadd_of_finite ha hb, sumSign]
  generalize signedUnits a + signedUnits b = sum at hsum
  refine isNearest_ofSignMag _ _ _ 1 Nat.one_pos ?_ fun hne => ?_
  · rw [← abs_of_pos hone, ← abs_mul, hsum, Nat.cast_one, div_one, Nat.cast_natAbs, Int.cast_abs]
  · have hne' : sum ≠ 0 := fun h => mul_ne_zero hne hone.ne' (by rw [hsum, h, Int.cast_zero])
    rw [if_neg hne', decide_eq_decide, ← Int.cast_lt_zero (R := Rat), ← hsum, mul_neg_iff]
    simp [hone, hone.not_gt]

/-- A product is negative when one factor is. -/
theorem bne_decide_neg {x y : Rat} (hx : x ≠ 0) (hy : y ≠ 0) :
    (decide (x < 0) != decide (y < 0)) = decide (x * y < 0) := by
  rcases hx.lt_or_gt with hx | hx <;> rcases hy.lt_or_gt with hy | hy
  · simp [hx, hy, (mul_pos_of_neg_of_neg hx hy).le]
  · simp [hx, hy.le, mul_neg_of_neg_of_pos hx hy]
  · simp [hx.le, hy, mul_neg_of_pos_of_neg hx hy]
  · simp [hx.not_gt, hy.not_gt, (mul_pos hx hy).not_gt]

theorem fmul_isNearest (ha : isFinite a = true) (hb : isFinite b = true) : IsNearest (realOf a * realOf b) (fmul a b) := by
  rw [fmul_of_finite ha hb]
  refine isNearest_ofSignMag _ _ _ _ unitsPerOne_pos ?_ fun hne => ?_
  · rw [abs_mul, abs_realOf, abs_realOf, Nat.cast_mul]
    have := unitsPerOne_cast_pos.ne'
    field
  · obtain ⟨ha0, hb0⟩ := mul_ne_zero_iff.1 hne
    rw [signBit_eq_decide a ha0, signBit_eq_decide b hb0, bne_decide_neg ha0 hb0]

theorem fdiv_isNearest (ha : isFinite a = true) (hb : isFinite b = true) (hne : realOf b ≠ 0) :
    IsNearest (realOf a / realOf b) (fdiv a b) := by
  have hunits : units b ≠ 0 := fun h => hne ((realOf_eq_zero_iff b).2 h)
  have hunits' : (units b : Rat) ≠ 0 := Nat.cast_ne_zero.2 hunits
  have hzero : isZero b = false := by rwa [← Bool.not_eq_true, isZero_iff]
  rw [fdiv_of_finite ha hb hzero]
  refine isNearest_ofSignMag _ _ _ _ (Nat.pos_of_ne_zero hunits) ?_ fun hquot => ?_
  · rw [abs_div, abs_realOf, abs_realOf, Nat.cast_mul]
    have := unitsPerOne_cast_pos.ne'
    field
  · have ha0 : realOf a ≠ 0 := fun h => hquot (by rw [h, zero_div])
    rw [signBit_eq_decide a ha0, signBit_eq_decide b hne, div_eq_mul_inv, ← bne_decide_neg ha0 (inv_ne_zero hne)]
    simp only [inv_lt_zero]

end

/-- Settles O30: each operation computes the exact magnitude as a fraction of units and rounds it once, so
`isNearest_ofSignMag` applies; `fsub` is the sum with the sign flipped. -/
theorem arithmeticRoundsOnce : Obligations.ArithmeticRoundsOnce := by
  intro a b ha hb
  refine ⟨fadd_isNearest ha hb, ?_, fmul_isNearest ha hb, fdiv_isNearest ha hb⟩
  have h := fadd_isNearest ha ((isFinite_fneg b).trans hb)
  rwa [realOf_fneg, ← sub_eq_add_neg] at h

/-! ### Infinities and NaN (R93, R94) -/

section
variable {a b i j x z w : F32}

theorem isNaN_fadd_of_isNaN (h : isNaN a = true ∨ isNaN b = true) : isNaN (fadd a b) = true := by
  rcases h with h | h
  · rw [fadd_nan_left a b h, isNaN_canonNan]
  · rw [fadd_nan_right a b h, isNaN_canonNan]

theorem isNaN_fmul_of_isNaN (h : isNaN a = true ∨ isNaN b = true) : isNaN (fmul a b) = true := by
  rcases h with h | h
  · rw [fmul_nan_left a b h, isNaN_canonNan]
  · rw [fmul_nan_right a b h, isNaN_canonNan]

theorem isNaN_fdiv_of_isNaN (h : isNaN a = true ∨ isNaN b = true) : isNaN (fdiv a b) = true := by
  rcases h with h | h
  · rw [fdiv_nan_left a b h, isNaN_canonNan]
  · rw [fdiv_nan_right a b h, isNaN_canonNan]

theorem fadd_inf_finite (hi : isInf i = true) (hx : isFinite x = true) : fadd i x = i ∧ fadd x i = i := by
  simp [fadd, hi, isNaN_of_isInf hi, isNaN_of_isFinite hx, isInf_of_isFinite hx]

theorem fadd_inf_inf (hi : isInf i = true) (hj : isInf j = true) :
    fadd i j = if signBit i = signBit j then i else Config.canonNan := by
  by_cases h : signBit i = signBit j <;> simp [fadd, hi, hj, isNaN_of_isInf hi, isNaN_of_isInf hj, h]

theorem fmul_inf (hi : isInf i = true) (hx : isNaN x = false) (hne : isZero x = false) :
    isInf (fmul i x) = true ∧ isInf (fmul x i) = true := by
  simp [fmul, hi, isNaN_of_isInf hi, hx, hne, isZero_of_isInf hi]

theorem fmul_zero_inf (hz : isZero z = true) (hi : isInf i = true) :
    fmul z i = Config.canonNan ∧ fmul i z = Config.canonNan := by
  simp [fmul, hz, hi, isNaN_of_isInf hi, isNaN_of_isFinite (isFinite_of_isZero hz)]

theorem fdiv_inf_inf (hi : isInf i = true) (hj : isInf j = true) : fdiv i j = Config.canonNan := by
  simp [fdiv, hi, hj, isNaN_of_isInf hi, isNaN_of_isInf hj]

theorem fdiv_inf_finite (hi : isInf i = true) (hx : isFinite x = true) :
    isInf (fdiv i x) = true ∧ isZero (fdiv x i) = true := by
  simp [fdiv, hi, isNaN_of_isInf hi, isNaN_of_isFinite hx, isInf_of_isFinite hx]

theorem fdiv_by_zero (hx : isFinite x = true) (hne : isZero x = false) (hz : isZero z = true) : isInf (fdiv x z) = true := by
  have hfz := isFinite_of_isZero hz
  simp [fdiv, hz, hne, isNaN_of_isFinite hx, isInf_of_isFinite hx, isNaN_of_isFinite hfz, isInf_of_isFinite hfz]

theorem fdiv_zero_zero (hz : isZero z = true) (hw : isZero w = true) : fdiv z w = Config.canonNan := by
  have hfz := isFinite_of_isZero hz
  have hfw := isFinite_of_isZero hw
  simp [fdiv, hz, hw, isNaN_of_isFinite hfz, isInf_of_isFinite hfz, isNaN_of_isFinite hfw, isInf_of_isFinite hfw]

/-- A product is `CANON_NAN` or has the exclusive or of the signs (R93). -/
theorem fmul_cases (a b : F32) : fmul a b = Config.canonNan ∨ ∃ m, fmul a b = ofSignMag (signBit a != signBit b) m := by
  simp only [fmul]
  split_ifs
  · exact .inl rfl
  · exact .inl rfl
  · exact .inr ⟨_, rfl⟩
  · exact .inr ⟨_, rfl⟩

/-- A quotient is `CANON_NAN` or has the exclusive or of the signs (R93). -/
theorem fdiv_cases (a b : F32) : fdiv a b = Config.canonNan ∨ ∃ m, fdiv a b = ofSignMag (signBit a != signBit b) m := by
  simp only [fdiv]
  split_ifs
  · exact .inl rfl
  · exact .inl rfl
  · exact .inr ⟨_, rfl⟩
  · exact .inr ⟨_, rfl⟩
  · exact .inl rfl
  · exact .inr ⟨_, rfl⟩
  · exact .inr ⟨_, rfl⟩

theorem signBit_of_canonNan_or {y : F32} {s : Bool} (h : y = Config.canonNan ∨ ∃ m, y = ofSignMag s m)
    (hy : isNaN y = false) : signBit y = s := by
  obtain rfl | ⟨m, rfl⟩ := h
  · rw [isNaN_canonNan] at hy
    contradiction
  · exact signBit_ofSignMag s m

/-- R95: a finite datum less itself is +0.0. -/
theorem fadd_fneg_self (hx : isFinite x = true) : fadd x (fneg x) = fzero := by
  rw [fadd_of_finite hx ((isFinite_fneg x).trans hx), sumSign, signedUnits_fneg, Int.add_right_neg, if_pos rfl,
    Int.natAbs_zero, roundUnits_zero, signBit_fneg, Bool.and_not_self]
  rfl

end

/-- Settles O31: clause by clause, from what each operation is on each kind of data; `fsub` is `fadd` with the sign flipped. -/
theorem specialOperands : Obligations.SpecialOperands := by
  refine ⟨by decide +kernel, by decide +kernel, by decide, fun x hx => fadd_fneg_self hx,
    fun a b h => signBit_of_canonNan_or (fmul_cases a b) h, fun a b h => signBit_of_canonNan_or (fdiv_cases a b) h,
    fun x z hx hne hz => fdiv_by_zero hx hne hz, fun z w hz hw => fdiv_zero_zero hz hw ▸ isNaN_canonNan,
    fun z i hz hi => ?_, fun i j hi hj => ⟨fdiv_inf_inf hi hj ▸ isNaN_canonNan, fun hs => ?_⟩, fun i x hi hx => ?_,
    fun i x hi hx hne => fmul_inf hi hx hne, fun i j hi hj hs => ⟨?_, ?_⟩, fun i j hi hj hs => ?_, fun a b h => ?_⟩
  · obtain ⟨hl, hr⟩ := fmul_zero_inf hz hi
    rw [hl, hr]
    exact ⟨isNaN_canonNan, isNaN_canonNan⟩
  · rw [fadd_inf_inf hi hj, if_neg hs, isNaN_canonNan]
  · obtain ⟨hl, hr⟩ := fadd_inf_finite hi hx
    exact ⟨hl, hr, (fadd_inf_finite hi ((isFinite_fneg x).trans hx)).1, (fadd_inf_finite ((isInf_fneg i).trans hi) hx).2,
      fdiv_inf_finite hi hx⟩
  · rw [fadd_inf_inf hi hj, if_pos hs]
  · rw [fsub, fadd_inf_inf hi ((isInf_fneg j).trans hj), if_neg (by simp [hs]), isNaN_canonNan]
  · rw [fsub, fadd_inf_inf hi ((isInf_fneg j).trans hj), if_pos (by rw [signBit_fneg]; exact Bool.eq_not_of_ne hs)]
  · exact ⟨isNaN_fadd_of_isNaN h, isNaN_fadd_of_isNaN (by rwa [isNaN_fneg]), isNaN_fmul_of_isNaN h, isNaN_fdiv_of_isNaN h⟩

/-! ### Comparisons (R96) -/

section
variable {a b v : F32}

theorem signedUnits_eq_unitsOfMag (a : F32) :
    signedUnits a = if signBit a then -(unitsOfMag (magBits a) : Int) else unitsOfMag (magBits a) := by
  rw [signedUnits, units_eq_unitsOfMag]

/-- The patterns, read as signed numbers, are in the order of the values. -/
theorem orderKey_lt_iff : orderKey a < orderKey b ↔ realOf a < realOf b := by
  rw [realOf, realOf, div_lt_div_iff_of_pos_right unitsPerOne_cast_pos, Int.cast_lt, signedUnits_eq_unitsOfMag,
    signedUnits_eq_unitsOfMag, orderKey, orderKey]
  have hmono := unitsOfMag_strictMono.lt_iff_lt (a := magBits a) (b := magBits b)
  have hmono' := unitsOfMag_strictMono.lt_iff_lt (a := magBits b) (b := magBits a)
  have ha := unitsOfMag_strictMono.lt_iff_lt (a := 0) (b := magBits a)
  have hb := unitsOfMag_strictMono.lt_iff_lt (a := 0) (b := magBits b)
  rw [unitsOfMag_zero] at ha hb
  cases signBit a <;> cases signBit b <;> simp only [Bool.false_eq_true, if_true, if_false] <;> omega

theorem orderKey_le_iff : orderKey b ≤ orderKey a ↔ realOf b ≤ realOf a := by
  rw [← not_lt, ← not_lt, orderKey_lt_iff]

theorem flt_iff : flt a b = true ↔ isNaN a = false ∧ isNaN b = false ∧ realOf a < realOf b := by
  simp [flt, orderKey_lt_iff, and_assoc]

theorem fge_iff : fge a b = true ↔ isNaN a = false ∧ isNaN b = false ∧ realOf b ≤ realOf a := by
  simp [fge, orderKey_le_iff, and_assoc]

theorem feq_iff : feq a b = true ↔ isNaN a = false ∧ isNaN b = false ∧ realOf a = realOf b := by
  have h : orderKey a = orderKey b ↔ realOf a = realOf b := by
    rw [le_antisymm_iff, orderKey_le_iff, orderKey_le_iff, ← le_antisymm_iff]
  simp [feq, h, and_assoc]

/-- A finite datum is smaller in magnitude than what an infinity's pattern would be. -/
theorem abs_realOf_lt_inf (h : isFinite a = true) : |realOf a| < realOf 0x7F800000#32 := by
  have hinf : realOf 0x7F800000#32 = (unitsOfMag infBits : Rat) / unitsPerOne := rfl
  rw [abs_realOf, hinf, div_lt_div_iff_of_pos_right unitsPerOne_cast_pos, Nat.cast_lt]
  exact units_lt_of_isFinite a h

/-- A datum above or at zero is `+Inf`, or finite with such a value. -/
theorem notNaN_and_realOf_iff (P : Rat → Prop) (hpos : ∀ x, 0 < x → P x) (hneg : ∀ x, x < 0 → ¬P x) :
    (isNaN v = false ∧ P (realOf v)) ↔ v = 0x7F800000#32 ∨ (isFinite v = true ∧ P (realOf v)) := by
  have hinf : 0 < realOf 0x7F800000#32 := by decide +kernel
  constructor
  · rintro ⟨hnan, hv⟩
    cases hi : isInf v with
    | false => exact .inr ⟨(isFinite_iff_not_special v).2 ⟨hnan, hi⟩, hv⟩
    | true =>
      have hv' := eq_ofSignMag_of_isInf hi
      cases hs : signBit v with
      | false => exact .inl (hv'.trans (by rw [hs]; decide))
      | true =>
        refine absurd hv (hneg _ ?_)
        rw [hv', hs]
        decide +kernel
  · rintro (rfl | ⟨hf, hv⟩)
    · exact ⟨by decide, hpos _ hinf⟩
    · exact ⟨isNaN_of_isFinite hf, hv⟩

end

/-- Settles O32: the patterns are in the order of the values (`orderKey_lt_iff`). -/
theorem comparisonsAreNumeric : Obligations.ComparisonsAreNumeric := by
  have hzero : realOf fzero = 0 := (realOf_eq_zero_iff fzero).2 rfl
  have hnan : isNaN fzero = false := by decide
  refine ⟨fun a b ha hb => ?_, fun a b h => ?_, fun a ha => ?_, fun v => ?_, fun v => ?_, isFinite_iff_not_special⟩
  · simp [flt_iff, fge_iff, feq_iff, isNaN_of_isFinite ha, isNaN_of_isFinite hb]
  · rcases h with h | h <;> simp [flt, fge, feq, h]
  · have hlt := abs_lt.1 (abs_realOf_lt_inf ha)
    have hneg : realOf 0xFF800000#32 = -realOf 0x7F800000#32 := realOf_fneg 0x7F800000#32
    rw [← hneg] at hlt
    exact ⟨flt_iff.2 ⟨isNaN_of_isFinite ha, by decide, hlt.2⟩, flt_iff.2 ⟨by decide, isNaN_of_isFinite ha, hlt.1⟩⟩
  · rw [positive, flt_iff, hzero, and_iff_right hnan]
    exact notNaN_and_realOf_iff (0 < ·) (fun _ => id) fun _ => lt_asymm
  · rw [nonNegative, fge_iff, hzero, and_iff_right hnan]
    exact notNaN_and_realOf_iff (0 ≤ ·) (fun _ => le_of_lt) fun _ => not_le_of_gt

end Sys2Proof.Machine
end

section
/-! Conversions and the periodic wrap (40_numerics.md R97 to R100, R105): where an exact result has 24 significant bits,
rounding leaves it alone. -/

namespace Sys2Proof.Machine

/-! ### Results that are exact -/

/-- A sign and a number of units with 24 significant bits below infinity's are a finite datum, exactly. -/
theorem ofSignMag_exact (s : Bool) {n : Nat} (h : Representable n) (hlt : n < unitsOfMag infBits) :
    isFinite (ofSignMag s (roundUnits n 1)) = true ∧ units (ofSignMag s (roundUnits n 1)) = n := by
  obtain ⟨hval, hfin⟩ := roundUnits_exact h hlt
  exact ⟨isFinite_ofSignMag s _ hfin, (units_ofSignMag s _ hfin.le).trans hval⟩

/-- A whole number up to 2^24, in units, is below infinity's. -/
theorem mul_unitsPerOne_lt_infBits {n : Nat} (h : n ≤ 2 ^ 24) : n * unitsPerOne < unitsOfMag infBits := by
  rw [unitsOfMag_infBits]
  calc n * unitsPerOne ≤ 2 ^ 24 * unitsPerOne := Nat.mul_le_mul_right _ h
    _ < 2 ^ 24 * 2 ^ 253 := Nat.mul_lt_mul_of_pos_left (Nat.pow_lt_pow_right (by norm_num) (by norm_num)) (by norm_num)

/-! ### Floor and ceiling (R97) -/

theorem floorInt_eq_floor (a : F32) : floorInt a = ⌊realOf a⌋ := (Rat.floor_intCast_div_natCast _ _).symm

theorem ceilInt_eq_ceil (a : F32) : ceilInt a = ⌈realOf a⌉ := by
  have h : ceilInt a = -floorInt (fneg a) := by rw [ceilInt, floorInt, signedUnits_fneg]
  rw [h, floorInt_eq_floor, realOf_fneg, Int.floor_neg, neg_neg]

theorem ceil_sub_floor (x : Rat) : ⌈x⌉ - ⌊x⌋ = if x = (⌊x⌋ : Rat) then 0 else 1 := by
  split
  · next h => rw [h, Int.ceil_intCast, Int.floor_intCast, sub_self]
  · next h =>
    have hrange : x ∉ Set.range Int.cast := fun ⟨k, hk⟩ => h (by rw [← hk, Int.floor_intCast])
    rw [(Int.ceil_eq_floor_add_one_iff_notMem x).2 hrange, add_sub_cancel_left]

/-- The units of a datum are a whole number's, or it is small. -/
theorem dvd_or_units_lt (a : F32) : unitsPerOne ∣ units a ∨ units a < 2 ^ 23 * unitsPerOne := by
  rcases Nat.lt_or_ge (units a) (2 ^ 23 * unitsPerOne) with h | h
  · exact .inr h
  · exact .inl ((representable_units a).dvd_of_le h)

theorem realOf_eq_floor_iff (a : F32) : realOf a = (⌊realOf a⌋ : Rat) ↔ unitsPerOne ∣ units a := by
  rw [← floorInt_eq_floor, ← mul_left_inj' unitsPerOne_cast_pos.ne', realOf_mul_unitsPerOne, ← natAbs_signedUnits,
    ← Int.natCast_dvd]
  norm_cast
  exact ⟨fun h => h ▸ dvd_mul_left _ _, fun h => (Int.ediv_mul_cancel h).symm⟩

/-- R97: a magnitude of at least 2^23 is an integer. -/
theorem realOf_eq_floor_of_le (a : F32) (h : 2 ^ 23 ≤ |realOf a|) : realOf a = (⌊realOf a⌋ : Rat) := by
  rw [abs_realOf, le_div_iff₀ unitsPerOne_cast_pos] at h
  exact (realOf_eq_floor_iff a).2 ((representable_units a).dvd_of_le (by exact_mod_cast h))

/-- The floor has 24 significant bits: it is the datum's own value, or small. -/
theorem floor_representable (a : F32) (h : isFinite a = true) :
    Representable ((floorInt a).natAbs * unitsPerOne) ∧ (floorInt a).natAbs * unitsPerOne < unitsOfMag infBits := by
  rcases dvd_or_units_lt a with hdvd | hlt
  · have hmul : (floorInt a).natAbs * unitsPerOne = units a := by
      rw [← natAbs_signedUnits, floorInt, ← Int.natAbs_natCast unitsPerOne, ← Int.natAbs_mul, Int.natAbs_natCast,
        Int.ediv_mul_cancel (Int.natCast_dvd.2 (by rwa [natAbs_signedUnits]))]
    rw [hmul]
    exact ⟨representable_units a, units_lt_of_isFinite a h⟩
  · have hone : (0 : Int) < unitsPerOne := by exact_mod_cast unitsPerOne_pos
    have hbound : |signedUnits a| < 2 ^ 23 * (unitsPerOne : Int) := by
      rw [Int.abs_eq_natAbs, natAbs_signedUnits]
      exact_mod_cast hlt
    have hlow : -2 ^ 23 ≤ floorInt a := (Int.le_ediv_iff_mul_le hone).2 (by linarith [neg_abs_le (signedUnits a)])
    have hhigh : floorInt a < 2 ^ 23 := (Int.ediv_lt_iff_lt_mul hone).2 (by linarith [le_abs_self (signedUnits a)])
    have hsmall : (floorInt a).natAbs ≤ 2 ^ 24 := by omega
    exact ⟨representable_mul_unitsPerOne _ hsmall, mul_unitsPerOne_lt_infBits hsmall⟩

/-! ### Integers to data (R98) -/

theorem u2f_eq_i2f (k : Nat) : u2f k = i2f k := by
  rw [u2f, i2f, Int.natAbs_natCast, decide_eq_false (Int.natCast_nonneg k).not_gt]

@[simp] theorem signBit_i2f (k : Int) : signBit (i2f k) = decide (k < 0) := signBit_ofSignMag _ _

theorem i2f_isNearest (k : Int) : IsNearest k (i2f k) := by
  refine isNearest_ofSignMag _ _ _ 1 Nat.one_pos ?_ fun _ => ?_
  · rw [Nat.cast_mul, Nat.cast_one, div_one, Nat.cast_natAbs, Int.cast_abs]
  · rw [decide_eq_decide, Int.cast_lt_zero]

theorem i2f_exact (k : Int) (h : Representable (k.natAbs * unitsPerOne)) (hlt : k.natAbs * unitsPerOne < unitsOfMag infBits) :
    isFinite (i2f k) = true ∧ signedUnits (i2f k) = k * unitsPerOne := by
  obtain ⟨hfin, hunits⟩ := ofSignMag_exact (decide (k < 0)) h hlt
  refine ⟨hfin, ?_⟩
  rw [signedUnits, signBit_i2f, i2f, hunits, Nat.cast_mul]
  split
  · next hneg => rw [Int.ofNat_natAbs_of_nonpos (of_decide_eq_true hneg).le, neg_mul, neg_neg]
  · next hneg => rw [Int.natAbs_of_nonneg (by simpa using hneg)]

theorem realOf_of_signedUnits {a : F32} {k : Int} (h : signedUnits a = k * unitsPerOne) : realOf a = k := by
  rw [realOf, h, Int.cast_mul, Int.cast_natCast, mul_div_cancel_right₀ _ unitsPerOne_cast_pos.ne']

theorem i2f_small (k : Int) (h : k.natAbs ≤ 2 ^ 24) : isFinite (i2f k) = true ∧ realOf (i2f k) = k := by
  obtain ⟨hfin, hunits⟩ := i2f_exact k (representable_mul_unitsPerOne _ h) (mul_unitsPerOne_lt_infBits h)
  exact ⟨hfin, realOf_of_signedUnits hunits⟩

theorem i2f_floor (a : F32) (h : isFinite a = true) :
    isFinite (i2f (floorInt a)) = true ∧ signedUnits (i2f (floorInt a)) = floorInt a * unitsPerOne := by
  obtain ⟨hrep, hlt⟩ := floor_representable a h
  exact i2f_exact _ hrep hlt

/-! ### The remainder (R105) -/

section
variable {a b m : F32}

/-- The exact remainder has the dividend's sign and no more bits than the operands, so it is not rounded. -/
theorem fmodx_exact (ha : isFinite a = true) (hm : 0 < units m) :
    isFinite (fmodx a m) = true ∧ units (fmodx a m) = units a % units m ∧ signBit (fmodx a m) = signBit a := by
  rw [fmodx, if_pos ha]
  have hlt := (Nat.mod_le (units a) (units m)).trans_lt (units_lt_of_isFinite a ha)
  obtain ⟨hfin, hunits⟩ := ofSignMag_exact (signBit a) ((representable_units a).mod (representable_units m) hm) hlt
  exact ⟨hfin, hunits, signBit_ofSignMag _ _⟩

/-- On signed numbers of units `fmodx` is the remainder of the division towards zero. -/
theorem signedUnits_fmodx (ha : isFinite a = true) (hm : 0 < units m) :
    signedUnits (fmodx a m) = (signedUnits a).tmod (units m) := by
  obtain ⟨-, hunits, hsign⟩ := fmodx_exact ha hm
  cases hs : signBit a with
  | false => rw [signedUnits_of_pos (hsign.trans hs), signedUnits_of_pos hs, hunits, Int.ofNat_tmod]
  | true => rw [signedUnits_of_neg (hsign.trans hs), signedUnits_of_neg hs, hunits, Int.neg_tmod, Int.ofNat_tmod]

/-- A difference with a subtrahend without sign that comes to `n` units, not negative, keeps the minuend's sign. -/
theorem fsub_of_natCast (ha : isFinite a = true) (hb : isFinite b = true) (hs : signBit b = false) {n : Nat}
    (h : signedUnits a - signedUnits b = n) : fsub a b = ofSignMag (signBit a) (roundUnits n 1) := by
  have hsum : signedUnits a + signedUnits (fneg b) = n := by rw [signedUnits_fneg, ← sub_eq_add_neg, h]
  rw [fsub, fadd_of_finite ha ((isFinite_fneg b).trans hb), sumSign, hsum, Int.natAbs_natCast, signBit_fneg, hs]
  rcases Nat.eq_zero_or_pos n with rfl | hpos
  · simp
  · have hsign : signBit a = false := by
      by_contra hneg
      rw [signedUnits_of_neg (Bool.eq_true_of_not_eq_false hneg), signedUnits_of_pos hs] at h
      omega
    rw [if_neg (by omega), hsign, decide_eq_false (by omega)]

/-- R105: one subtraction gives the remainder where the quotient is 1. -/
theorem fmodx_eq_fsub (ha : isFinite a = true) (hm : isFinite m = true) (hs : signBit a = false) (hsm : signBit m = false)
    (hle : units m ≤ units a) (hlt : units a < 2 * units m) : fmodx a m = fsub a m := by
  have hmod : units a % units m = units a - units m := by
    rw [Nat.mod_eq_sub_mod hle, Nat.mod_eq_of_lt (by omega)]
  have hdiff : signedUnits a - signedUnits m = (units a - units m : Nat) := by
    rw [signedUnits_of_pos hs, signedUnits_of_pos hsm, Nat.cast_sub hle]
  rw [fsub_of_natCast ha hm hsm hdiff, fmodx, if_pos ha, hmod]

/-- R105: nothing is taken off below the modulus. -/
theorem fmodx_eq_self (ha : isFinite a = true) (hlt : units a < units m) : fmodx a m = a := by
  rw [fmodx, if_pos ha, Nat.mod_eq_of_lt hlt, roundUnits_units a ha, ofSignMag_eta]

end

/-- Settles O35: `fmodx` is `Int.tmod` on units (`signedUnits_fmodx`), so it differs from `a` by `Int.tdiv` moduli. -/
theorem fmodxExact : Obligations.FmodxExact := by
  refine ⟨fun a m ha hm hpos => ?_, fun a m _ _ ha => ?_⟩
  · obtain ⟨hsm, hum⟩ := (realOf_pos_iff m).1 hpos
    obtain ⟨hfin, hunits, hsign⟩ := fmodx_exact ha hum
    have hone := unitsPerOne_cast_pos
    have hmabs : realOf m = (units m : Rat) / unitsPerOne := by rw [realOf_of_pos hsm, abs_realOf]
    refine ⟨hfin, ⟨(signedUnits a).tdiv (units m), ?_⟩, ?_, hsign, fun hle hlt => ?_, fun h0 hlt => ?_,
      fmodx_eq_self (by decide) hum, fmodx_eq_self (by decide) hum⟩
    · have hdiv := Int.tmod_add_mul_tdiv (signedUnits a) (units m)
      rw [realOf, realOf, hmabs, signedUnits_fmodx ha hum, ← mul_div_assoc, ← sub_div]
      congr 1
      rw [eq_sub_iff_add_eq, mul_comm]
      exact_mod_cast hdiv
    · rw [abs_realOf, hmabs, hunits, div_lt_div_iff_of_pos_right hone, Nat.cast_lt]
      exact Nat.mod_lt _ hum
    · have hsa := ((realOf_pos_iff a).1 (hpos.trans_le hle)).1
      rw [realOf_of_pos hsa, abs_realOf, hmabs] at hle hlt
      rw [div_le_div_iff_of_pos_right hone] at hle
      rw [← mul_div_assoc, div_lt_div_iff_of_pos_right hone] at hlt
      exact fmodx_eq_fsub ha hm hsa hsm (by exact_mod_cast hle) (by exact_mod_cast hlt)
    · rw [← abs_of_nonneg h0, abs_realOf, hmabs, div_lt_div_iff_of_pos_right hone, Nat.cast_lt] at hlt
      exact fmodx_eq_self ha hlt
  · rw [fmodx, if_neg (by rw [ha]; exact Bool.false_ne_true), isNaN_canonNan]

/-! ### The fractional part (R99) -/

@[simp] theorem units_fone : units fone = unitsPerOne := (units_eq_unitsOfMag fone).trans unitsOfMag_one

/-- A zero is one of two data (R90). -/
theorem eq_ofSignMag_of_units_eq_zero {a : F32} (h : units a = 0) : a = ofSignMag (signBit a) 0 := by
  rw [units_eq_unitsOfMag, ← unitsOfMag_zero] at h
  rw [← unitsOfMag_strictMono.injective h, ofSignMag_eta]

theorem eq_fzero_iff (a : F32) : a = fzero ↔ signBit a = false ∧ units a = 0 := by
  constructor
  · rintro rfl
    decide
  · rintro ⟨hs, hu⟩
    rw [eq_ofSignMag_of_units_eq_zero hu, hs]
    rfl

section
variable {a : F32}

theorem signedUnits_of_nonneg (h : 0 ≤ realOf a) : signedUnits a = units a := by
  rw [← natAbs_signedUnits, Int.natAbs_of_nonneg ((realOf_nonneg_iff a).1 h)]

/-- Of the data that are not negative only `-0.0` has the sign. -/
theorem signBit_eq_false_iff_of_nonneg (h : 0 ≤ realOf a) : signBit a = false ↔ a ≠ 0x80000000#32 := by
  cases hs : signBit a with
  | false => exact iff_of_true rfl fun ha => by rw [ha] at hs; exact absurd hs (by decide)
  | true =>
    refine iff_of_false nofun (not_not.2 ?_)
    have hu : units a = 0 := by
      have := signedUnits_of_nonneg h
      rw [signedUnits_of_neg hs] at this
      omega
    rw [eq_ofSignMag_of_units_eq_zero hu, hs]
    decide

/-- For a value that is not negative the fractional part is the remainder of 1. -/
theorem frac_eq_fmodx (ha : isFinite a = true) (h0 : 0 ≤ realOf a) : frac a = fmodx a fone := by
  obtain ⟨hfin, hunits⟩ := i2f_floor a ha
  have hfloor : 0 ≤ floorInt a := by rw [floorInt_eq_floor]; exact Int.floor_nonneg.2 h0
  have hdiff : signedUnits a - signedUnits (i2f (floorInt a)) = (units a % units fone : Nat) := by
    rw [hunits, units_fone, Int.natCast_mod, ← signedUnits_of_nonneg h0, floorInt, Int.emod_def, mul_comm]
  rw [frac, fsub_of_natCast ha hfin (by simpa using hfloor) hdiff, fmodx, if_pos ha]

theorem frac_exact (ha : isFinite a = true) (h0 : 0 ≤ realOf a) :
    isFinite (frac a) = true ∧ realOf (frac a) = realOf a - (⌊realOf a⌋ : Rat) := by
  have hone : 0 < units fone := units_fone ▸ unitsPerOne_pos
  have hfrac : signedUnits (frac a) = signedUnits a - unitsPerOne * floorInt a := by
    rw [frac_eq_fmodx ha h0, signedUnits_fmodx ha hone, units_fone,
      Int.tmod_eq_emod_of_nonneg ((realOf_nonneg_iff a).1 h0), Int.emod_def, floorInt]
  refine ⟨frac_eq_fmodx ha h0 ▸ (fmodx_exact ha hone).1, ?_⟩
  rw [← mul_left_inj' unitsPerOne_cast_pos.ne', sub_mul, realOf_mul_unitsPerOne, realOf_mul_unitsPerOne, hfrac,
    floorInt_eq_floor, mul_comm (⌊realOf a⌋ : Rat)]
  push_cast
  rfl

/-- R99: the fractional part is `+0.0` for the integers, the zero with the sign apart. -/
theorem frac_eq_fzero_iff (ha : isFinite a = true) (h0 : 0 ≤ realOf a) :
    frac a = fzero ↔ realOf a = (⌊realOf a⌋ : Rat) ∧ a ≠ 0x80000000#32 := by
  obtain ⟨-, hunits, hsign⟩ := fmodx_exact ha (units_fone ▸ unitsPerOne_pos)
  rw [frac_eq_fmodx ha h0, eq_fzero_iff, hunits, hsign, signBit_eq_false_iff_of_nonneg h0, units_fone,
    realOf_eq_floor_iff, Nat.dvd_iff_mod_eq_zero, and_comm]

end

/-- Settles O33: floors and data without a fraction have 24 significant bits (`floor_representable`), so converting them is
exact, and `frac` is the exact remainder of 1 (`frac_eq_fmodx`). -/
theorem floorCeilFracExact : Obligations.FloorCeilFracExact := by
  have hnegZero : isFinite 0x80000000#32 = true := by decide
  have hreal : realOf 0x80000000#32 = 0 := (realOf_eq_zero_iff _).2 (by decide)
  refine ⟨fun a ha => ?_, hreal, fun k => ?_, fun k => ⟨i2f_isNearest k, i2f_small k⟩, fun a ha h0 => ?_, ?_⟩
  · obtain ⟨hfin, hunits⟩ := i2f_floor a ha
    rw [ceilInt_eq_ceil, floorInt_eq_floor] at *
    exact ⟨rfl, rfl, ceil_sub_floor _, realOf_eq_floor_of_le a, hfin, realOf_of_signedUnits hunits⟩
  · rw [u2f_eq_i2f, ← Int.cast_natCast k]
    exact ⟨i2f_isNearest k, fun h => i2f_small k (by rwa [Int.natAbs_natCast])⟩
  · obtain ⟨hfin, hval⟩ := frac_exact ha h0
    exact ⟨hfin, hval, frac_eq_fzero_iff ha h0⟩
  · rw [frac_eq_fmodx hnegZero hreal.ge]
    exact fmodx_eq_self hnegZero (by decide +kernel)

/-! ### Rounding to an integer (R100) -/

/-- `⌊|real(a)| + 1/2⌋`, on units. -/
def halfUpNat (u : Nat) : Nat := (2 * u + unitsPerOne) / (2 * unitsPerOne)

theorem fround_of_finite (a : F32) (h : isFinite a = true) :
    fround a = ofSignMag (signBit a) (roundUnits (halfUpNat (units a) * unitsPerOne) 1) := by
  simp [fround, halfUpNat, isNaN_of_isFinite h, isInf_of_isFinite h]

theorem halfUpNat_eq_floor (a : F32) : ((halfUpNat (units a) : Nat) : Int) = ⌊|realOf a| + 1 / 2⌋ := by
  have hone := unitsPerOne_cast_pos.ne'
  have h : |realOf a| + 1 / 2 = ((2 * units a + unitsPerOne : Nat) : Rat) / ((2 * unitsPerOne : Nat) : Rat) := by
    rw [abs_realOf]
    push_cast
    field
  rw [h, Rat.floor_natCast_div_natCast, halfUpNat, Int.natCast_div]

/-- The rounded number has 24 significant bits: it is the datum's own value, or small. -/
theorem halfUpNat_representable (a : F32) (h : isFinite a = true) :
    Representable (halfUpNat (units a) * unitsPerOne) ∧ halfUpNat (units a) * unitsPerOne < unitsOfMag infBits := by
  have hone := unitsPerOne_pos
  rcases dvd_or_units_lt a with ⟨c, hc⟩ | hlt
  · have hval : halfUpNat (units a) * unitsPerOne = units a := by
      have hsplit : 2 * (unitsPerOne * c) + unitsPerOne = unitsPerOne + 2 * unitsPerOne * c := by ring
      rw [hc, halfUpNat, hsplit, Nat.add_mul_div_left _ _ (by omega), Nat.div_eq_of_lt (by omega), Nat.zero_add, Nat.mul_comm]
    rw [hval]
    exact ⟨representable_units a, units_lt_of_isFinite a h⟩
  · have hsmall : halfUpNat (units a) ≤ 2 ^ 24 := by
      refine Nat.le_of_lt_succ ((Nat.div_lt_iff_lt_mul (by omega)).2 ?_)
      omega
    exact ⟨representable_mul_unitsPerOne _ hsmall, mul_unitsPerOne_lt_infBits hsmall⟩

/-- Settles O34: the rounded magnitude has 24 significant bits (`halfUpNat_representable`), so converting it back is exact. -/
theorem froundHalvesAway : Obligations.FroundHalvesAway := by
  refine ⟨fun a ha => ?_, fun a h => ?_, fun a h => ?_, by decide +kernel, by decide +kernel, by decide +kernel,
    by decide +kernel, by decide +kernel, by decide +kernel, by decide +kernel, fun a ha h0 hint => ?_⟩
  · obtain ⟨hrep, hlt⟩ := halfUpNat_representable a ha
    obtain ⟨hfin, hunits⟩ := ofSignMag_exact (signBit a) hrep hlt
    rw [fround_of_finite a ha]
    refine ⟨hfin, signBit_ofSignMag _ _, ?_⟩
    rw [abs_realOf, hunits, ← halfUpNat_eq_floor, Nat.cast_mul, mul_div_cancel_right₀ _ unitsPerOne_cast_pos.ne',
      Int.cast_natCast]
  · simp [fround, h, isNaN_of_isInf h]
  · simp [fround, h]
  · have hfloor : 0 ≤ floorInt a := by rw [floorInt_eq_floor]; exact Int.floor_nonneg.2 h0
    calc (f2n a : Rat) = ((floorInt a).toNat : Int) := (Int.cast_natCast _).symm
      _ = floorInt a := by rw [Int.toNat_of_nonneg hfloor]
      _ = realOf a := by rw [floorInt_eq_floor, ← hint]

end Sys2Proof.Machine
end

section
/-! The sine of 40_numerics.md R106: the model's substitute at the data the open table leaves out is a conforming value, so
`SIN` has S2 to S6, and with a suitable table it is any waveform that has them. -/

namespace Sys2Proof.Machine

/-! ### The series -/

/-- The odd terms of the exponential series at `i·x` are those of the sine, the even ones are real. -/
theorem im_exp_series (x : Rat) (n : Nat) :
    (∑ m ∈ Finset.range (2 * n), ((x : ℝ) * Complex.I) ^ m / (m.factorial : ℂ)).im = ((sinSeries x n : Rat) : ℝ) := by
  induction n with
  | zero => simp [sinSeries]
  | succ n ih =>
    have heven : (((x : ℝ) * Complex.I) ^ (2 * n) / ((2 * n).factorial : ℂ)).im = 0 := by
      have h : ((x : ℝ) * Complex.I) ^ (2 * n) / ((2 * n).factorial : ℂ) =
          (((x : ℝ) ^ (2 * n) * (-1) ^ n / (2 * n).factorial : ℝ) : ℂ) := by
        rw [mul_pow, pow_mul Complex.I, Complex.I_sq]
        push_cast
        rfl
      rw [h, Complex.ofReal_im]
    have hodd : (((x : ℝ) * Complex.I) ^ (2 * n + 1) / ((2 * n + 1).factorial : ℂ)).im =
        (-1) ^ n * (x : ℝ) ^ (2 * n + 1) / ((2 * n + 1).factorial : ℝ) := by
      have h : ((x : ℝ) * Complex.I) ^ (2 * n + 1) / ((2 * n + 1).factorial : ℂ) =
          (((-1) ^ n * (x : ℝ) ^ (2 * n + 1) / (2 * n + 1).factorial : ℝ) : ℂ) * Complex.I := by
        rw [mul_pow, pow_succ Complex.I, pow_mul Complex.I, Complex.I_sq]
        push_cast
        ring
      rw [h, Complex.im_ofReal_mul, Complex.I_im, mul_one]
    rw [Nat.mul_succ, Finset.sum_range_succ, Finset.sum_range_succ, Complex.add_im, Complex.add_im, ih, heven, hodd, sinSeries]
    push_cast
    ring

/-- Forty terms of the series where R106 S5 states the accuracy. -/
theorem sinSeries_accurate (x : Rat) (h : |x| < 8) : |((sinSeries x 40 : Rat) : ℝ) - Real.sin (x : ℝ)| ≤ 1 / 2 ^ 100 := by
  have hnorm : ‖((x : ℝ) * Complex.I : ℂ)‖ ≤ 8 := by
    rw [norm_mul, Complex.norm_I, mul_one, Complex.norm_real, Real.norm_eq_abs]
    exact_mod_cast h.le
  have hbound := Complex.exp_bound' (x := (x : ℝ) * Complex.I) (n := 80) (by
    rw [div_le_iff₀ (by positivity)]
    exact hnorm.trans (by norm_num))
  have him : (Complex.exp ((x : ℝ) * Complex.I)).im = Real.sin x := Complex.exp_ofReal_mul_I_im x
  rw [← im_exp_series x 40, ← him, ← Complex.sub_im, ← abs_neg, ← Complex.neg_im, neg_sub]
  calc _ ≤ _ := Complex.abs_im_le_norm _
    _ ≤ _ := hbound
    _ ≤ 8 ^ 80 / (Nat.factorial 80 : ℝ) * 2 := by gcongr
    _ ≤ 1 / 2 ^ 100 := by norm_num [Nat.factorial]

/-! ### The substitute -/

/-- A rational rounded to a datum and cut off at 1 in magnitude. -/
def clampRound (y : Rat) : F32 :=
  ofSignMag (decide (y < 0)) (min (roundUnits (y.num.natAbs * unitsPerOne) y.den) (magBits fone))

theorem abs_realOf_lt_iff (a : F32) (k : Nat) : |realOf a| < k ↔ units a < k * unitsPerOne := by
  rw [abs_realOf, div_lt_iff₀ unitsPerOne_cast_pos]
  exact_mod_cast Iff.rfl

theorem sinSubstitute_of_lt {a : F32} (h : |realOf a| < 8) : sinSubstitute a = clampRound (sinSeries (realOf a) 40) :=
  if_pos ((abs_realOf_lt_iff a 8).1 h)

theorem sinSubstitute_of_ge {a : F32} (h : ¬|realOf a| < 8) : sinSubstitute a = fzero :=
  if_neg (h ∘ (abs_realOf_lt_iff a 8).2)

/-- Below 2 the nearest magnitude is within 2^-23: the 24 leading bits, cut off, are a pattern already as near. -/
theorem NearestMag.abs_sub_le {x : Rat} {m : Nat} (h : NearestMag x m) (h0 : 0 ≤ x) (hx : x < 2 * unitsPerOne) :
    |x - unitsOfMag m| ≤ 2 ^ 126 := by
  have hpow : (0 : Rat) < 2 ^ 126 := by positivity
  have hfloor0 : 0 ≤ ⌊x / 2 ^ 126⌋ := Int.floor_nonneg.2 (by positivity)
  obtain ⟨q, hq⟩ := Int.eq_ofNat_of_zero_le hfloor0
  have hle := Int.floor_le (x / 2 ^ 126)
  have hlt := Int.lt_floor_add_one (x / 2 ^ 126)
  rw [hq, Int.cast_natCast] at hle hlt
  rw [le_div_iff₀ hpow] at hle
  rw [div_lt_iff₀ hpow, add_one_mul] at hlt
  have hq24 : q < 2 ^ 24 := by
    have hone : (2 : Rat) * unitsPerOne = 2 ^ 24 * 2 ^ 126 := by norm_num [unitsPerOne]
    have : (q : Rat) < 2 ^ 24 := lt_of_mul_lt_mul_right (hle.trans_lt (hx.trans_eq hone)) hpow.le
    exact_mod_cast this
  obtain ⟨z, hz⟩ := exists_unitsOfMag ⟨q, 126, hq24, rfl⟩
  refine (h z).1.trans ?_
  rw [hz, Nat.cast_mul, Nat.cast_pow, Nat.cast_ofNat, abs_of_nonneg (sub_nonneg.2 hle)]
  linarith

/-- The clamped datum: the sign of `y`, and a magnitude near that of `y`, cut off at 1. -/
theorem clampRound_spec (y : Rat) (hy : |y| < 2) :
    isFinite (clampRound y) = true ∧ signBit (clampRound y) = decide (y < 0) ∧
    ∃ mag : Rat, |(mag - |y|)| ≤ 1 / 2 ^ 23 ∧ |realOf (clampRound y)| = min mag 1 := by
  have hone := unitsPerOne_cast_pos
  have hx : |y| * unitsPerOne = ((y.num.natAbs * unitsPerOne : Nat) : Rat) / y.den := by
    conv_lhs => rw [← Rat.num_div_den y]
    rw [abs_div, Nat.abs_cast, Nat.cast_mul, Nat.cast_natAbs, Int.cast_abs]
    ring
  have hnear := unboundedRound_nearest (y.num.natAbs * unitsPerOne) y.den y.den_pos
  rw [← hx] at hnear
  rw [clampRound, roundUnits_eq_min]
  generalize unboundedRound (y.num.natAbs * unitsPerOne) y.den = m at hnear
  have hfone : magBits fone < infBits := by decide
  have hclamp : min (min m infBits) (magBits fone) = min m (magBits fone) := by omega
  have hlt : min m (magBits fone) < infBits := (Nat.min_le_right _ _).trans_lt hfone
  rw [hclamp]
  refine ⟨isFinite_ofSignMag _ _ hlt, signBit_ofSignMag _ _, unitsOfMag m / unitsPerOne, ?_, ?_⟩
  · have hdist := hnear.abs_sub_le (by positivity) (mul_lt_mul_of_pos_right hy hone)
    have hscale : (2 : Rat) ^ 126 = 1 / 2 ^ 23 * unitsPerOne := by norm_num [unitsPerOne]
    rw [← mul_le_mul_iff_left₀ hone, ← hscale]
    calc |((unitsOfMag m : Rat) / unitsPerOne - |y|)| * unitsPerOne
        = |((unitsOfMag m : Rat) / unitsPerOne - |y|) * unitsPerOne| := by rw [abs_mul, abs_of_pos hone]
      _ = |(|y| * unitsPerOne - unitsOfMag m)| := by rw [sub_mul, div_mul_cancel₀ _ hone.ne', abs_sub_comm]
      _ ≤ 2 ^ 126 := hdist
  · rw [abs_realOf, units_ofSignMag _ _ hlt.le, unitsOfMag_strictMono.monotone.map_min, unitsOfMag_one, Nat.cast_min,
      ← min_div_div_right hone.le, div_self hone.ne']

/-- Cutting off at 1 does not leave a number up to 1 behind. -/
theorem abs_min_one_sub_le {x s : ℝ} (hs : s ≤ 1) : |min x 1 - s| ≤ |x - s| := by
  rcases le_total x 1 with h | h
  · rw [min_eq_left h]
  · rw [min_eq_right h, abs_of_nonneg (by linarith), abs_of_nonneg (by linarith)]
    linarith

/-- The rounding and the cut off cost 2^-23 against a number of magnitude at most 1. -/
theorem clampRound_accurate (y : Rat) (s : ℝ) (hy : |y| < 2) (hs : |s| ≤ 1) :
    |((realOf (clampRound y) : Rat) : ℝ) - s| ≤ |(y : ℝ) - s| + 1 / 2 ^ 23 := by
  obtain ⟨-, hsign, mag, hmag, habs⟩ := clampRound_spec y hy
  have hmag' : |((mag : ℝ) - |(y : ℝ)|)| ≤ 1 / 2 ^ 23 := by
    have h := (Rat.cast_le (K := ℝ)).2 hmag
    push_cast at h
    exact h
  obtain ⟨hlow, hhigh⟩ := abs_le.1 hs
  rcases lt_or_ge y 0 with hneg | hnonneg
  · rw [decide_eq_true hneg] at hsign
    rw [abs_of_neg (a := (y : ℝ)) (Rat.cast_lt_zero.2 hneg)] at hmag'
    rw [realOf_of_neg hsign, habs]
    push_cast
    calc |-min (mag : ℝ) 1 - s| = |min (mag : ℝ) 1 - -s| := by rw [← abs_neg]; congr 1; ring
      _ ≤ |mag - -s| := abs_min_one_sub_le (by linarith)
      _ = |(mag - -y) + (s - y)| := by congr 1; ring
      _ ≤ |(mag : ℝ) - -y| + |s - y| := abs_add_le _ _
      _ ≤ _ := by rw [abs_sub_comm s]; linarith
  · rw [decide_eq_false hnonneg.not_gt] at hsign
    rw [abs_of_nonneg (a := (y : ℝ)) (Rat.cast_nonneg.2 hnonneg)] at hmag'
    rw [realOf_of_pos hsign, habs]
    push_cast
    calc |min (mag : ℝ) 1 - s| ≤ |mag - s| := abs_min_one_sub_le hhigh
      _ = |(mag - y) + (y - s)| := by congr 1; ring
      _ ≤ |(mag : ℝ) - y| + |y - s| := abs_add_le _ _
      _ ≤ _ := by linarith

theorem abs_sinSeries_lt (x : Rat) (h : |x| < 8) : |sinSeries x 40| < 2 := by
  have hdist := sinSeries_accurate x h
  have hsin := Real.abs_sin_le_one (x : ℝ)
  have hy : |((sinSeries x 40 : Rat) : ℝ)| ≤ 1 / 2 ^ 100 + 1 := by
    have := abs_sub_abs_le_abs_sub ((sinSeries x 40 : Rat) : ℝ) (Real.sin x)
    linarith
  have : |((sinSeries x 40 : Rat) : ℝ)| < 2 := hy.trans_lt (by norm_num)
  exact_mod_cast this

/-- The substitute has S2 and S5 (R106). -/
theorem sinSubstitute_sineAt (a : F32) : SineAt a (sinSubstitute a) := by
  by_cases h : |realOf a| < 8
  · have hy := abs_sinSeries_lt _ h
    obtain ⟨hfin, -, mag, -, habs⟩ := clampRound_spec _ hy
    rw [sinSubstitute_of_lt h]
    refine ⟨⟨hfin, abs_le.1 (habs.trans_le (min_le_right _ _))⟩, fun _ => ?_⟩
    calc _ ≤ _ := clampRound_accurate _ _ hy (Real.abs_sin_le_one _)
      _ ≤ 1 / 2 ^ 100 + 1 / 2 ^ 23 := by
        have := sinSeries_accurate _ h
        linarith
      _ ≤ 1 / 2 ^ 22 := by norm_num
  · rw [sinSubstitute_of_ge h]
    exact ⟨by decide +kernel, fun h' => absurd h' h⟩

/-! ### The model's sine with any table (R106) -/

/-- S2 and S5 do not see a sign flipped on both sides. -/
theorem SineAt.fneg {a v : F32} (h : SineAt a v) : SineAt (fneg a) (fneg v) := by
  obtain ⟨⟨hfin, hlow, hhigh⟩, hacc⟩ := h
  refine ⟨⟨(isFinite_fneg v).trans hfin, ?_, ?_⟩, fun hlt => ?_⟩
  · rw [realOf_fneg]
    linarith
  · rw [realOf_fneg]
    linarith
  · rw [realOf_fneg, abs_neg] at hlt
    rw [realOf_fneg, realOf_fneg, Rat.cast_neg, Rat.cast_neg, Real.sin_neg, neg_sub_neg, abs_sub_comm]
    exact hacc hlt

section
variable (table : (a : F32) → Option { v : F32 // SineAt a v }) (nan : F32 → F32) {a : F32}

theorem sinUnsigned_sineAt (a : F32) : SineAt a (sinUnsigned table a) := by
  rw [sinUnsigned]
  cases table a with
  | none => exact sinSubstitute_sineAt a
  | some v => exact v.property

theorem isNaN_sineOf_of_not_finite (h : isFinite a = false) : isNaN (sineOf table nan a) = true := by
  rw [sineOf, h, Bool.not_false, if_pos rfl]
  split
  · assumption
  · exact isNaN_canonNan

theorem sineOf_of_isZero (h : isZero a = true) : sineOf table nan a = a := by
  simp [sineOf, isFinite_of_isZero h, h]

theorem sineOf_of_finite (h : isFinite a = true) (hz : isZero a = false) :
    sineOf table nan a = if signBit a then fneg (sinUnsigned table (fneg a)) else sinUnsigned table a := by
  simp [sineOf, h, hz]

theorem sineOf_sineAt (h : isFinite a = true) : SineAt a (sineOf table nan a) := by
  cases hz : isZero a with
  | true =>
    have hreal : realOf a = 0 := (realOf_eq_zero_iff a).2 ((isZero_iff a).1 hz)
    rw [sineOf_of_isZero table nan hz]
    refine ⟨⟨h, ?_⟩, fun _ => ?_⟩ <;> simp [hreal]
  | false =>
    rw [sineOf_of_finite table nan h hz]
    split
    · have hflip := (sinUnsigned_sineAt table (fneg a)).fneg
      rwa [fneg_fneg] at hflip
    · exact sinUnsigned_sineAt table a

theorem sineOf_fneg (h : isFinite a = true) : sineOf table nan (fneg a) = fneg (sineOf table nan a) := by
  cases hz : isZero a with
  | true => rw [sineOf_of_isZero table nan hz, sineOf_of_isZero table nan ((isZero_fneg a).trans hz)]
  | false =>
    rw [sineOf_of_finite table nan h hz, sineOf_of_finite table nan ((isFinite_fneg a).trans h) ((isZero_fneg a).trans hz)]
    cases hs : signBit a <;> simp [hs]

end

/-- Settles O36: the sine has S2 to S6 with every table, since the substitute has S2 and S5. -/
theorem sineProperties : Obligations.SineProperties := by
  refine ⟨fun a ha => (sineOf_sineAt _ _ ha).1, sineOf_of_isZero _ _ (by decide), sineOf_of_isZero _ _ (by decide),
    fun a => ⟨fun h => ?_, isNaN_sineOf_of_not_finite _ _⟩, fun a ha => (sineOf_sineAt _ _ ha).2,
    fun a ha => sineOf_fneg _ _ ha⟩
  by_contra hfin
  have hsin := isNaN_of_isFinite (sineOf_sineAt Config.sinTable Config.sinNan (Bool.eq_true_of_not_eq_false hfin)).1.1
  rw [← SIN, h] at hsin
  contradiction

/-! ### Every conforming sine -/

open Classical in
/-- The table of a waveform: its values where they have S2 and S5. -/
noncomputable def tableOf (f : F32 → F32) (a : F32) : Option { v : F32 // SineAt a v } :=
  if h : SineAt a (f a) then some ⟨f a, h⟩ else none

theorem sinUnsigned_tableOf {f : F32 → F32} {a : F32} (h : SineAt a (f a)) : sinUnsigned (tableOf f) a = f a := by
  rw [sinUnsigned, tableOf, dif_pos h]

/-- Settles O37: with the waveform's own table the sine is the waveform where it conforms; on a datum with the sign, S6 leads
back to the datum without it. -/
theorem sineAdmitsEveryConforming : Obligations.SineAdmitsEveryConforming := by
  refine fun f => ⟨tableOf f, f, fun a h => ?_⟩
  cases hfin : isFinite a with
  | false => simp [sineOf, hfin, h.nonFinite.2 hfin]
  | true =>
    cases hz : isZero a with
    | true => rw [sineOf_of_isZero _ _ hz, h.origin hz]
    | false =>
      rw [sineOf_of_finite _ _ hfin hz]
      split
      · have hflip : SineAt (fneg a) (f (fneg a)) := h.oddness hfin ▸ (h.value hfin).fneg
        rw [sinUnsigned_tableOf hflip, h.oddness hfin, fneg_fneg]
      · exact sinUnsigned_tableOf (h.value hfin)

end Sys2Proof.Machine
end

section
/-! The Delay Line commands (41_delay_line.md) where the common checks of R134 pass: what each answers, said once per command,
and the statements about single commands and pairs of commands. -/

namespace Sys2Proof.Machine

/-! ### How a command ends -/

/-- The status word of `OK` is 0 (30_encoding.md R70, R71). -/
theorem respond_eq (rs : List Word) (s : State) : respond rs s = .next { s with rsp := rs ++ [0x00000000#32] } := rfl

theorem withStore_some {α : Type} (a : α) (k : α → Result) : withStore (some a) k = k a := rfl

/-! ### Cursors and the words of `U32` results -/

/-- One step of a cursor below the capacity wraps at the last index (20_memory.md R42). -/
theorem cursor_succ_mod {c n : Nat} (h : c < n) : (c + 1) % n = if c = n - 1 then 0 else c + 1 := by
  split
  · next hlast => rw [hlast, Nat.sub_add_cancel (by omega), Nat.mod_self]
  · next hinner => exact Nat.mod_eq_of_lt (by omega)

/-- R110 is the Euclidean remainder of the cursors' difference. -/
theorem len_eq_emod (d : DelayLine) (hw : d.w < d.n) (hr : d.r < d.n) : (d.len : Int) = ((d.w : Int) - d.r) % d.n := by
  unfold DelayLine.len wrapSub
  split
  · rw [Int.emod_eq_of_lt (by omega) (by omega)]
    omega
  · rw [← Int.add_emod_right, Int.emod_eq_of_lt (by omega) (by omega)]
    omega

theorem indexWord_toNat {k : Nat} (h : k ≤ 2 ^ 24) : (indexWord k).toNat = k :=
  (BitVec.toNat_ofNat k 32).trans (Nat.mod_eq_of_lt (by omega))

/-! ### The line after a store -/

/-- The line with the word at its write cursor replaced (41_delay_line.md R124). -/
def DelayLine.put (d : DelayLine) (v : F32) : DelayLine := { d with buf := d.buf.write d.w v }

@[simp] theorem put_n (d : DelayLine) (v : F32) : (d.put v).n = d.n := rfl
@[simp] theorem put_w (d : DelayLine) (v : F32) : (d.put v).w = d.w := rfl
@[simp] theorem put_r (d : DelayLine) (v : F32) : (d.put v).r = d.r := rfl

theorem read_put_same {d : DelayLine} (v : F32) (h : d.buf.wf) : (d.put v).buf.read d.w = v := read_write_same _ _ _ h

theorem read_put_other {d : DelayLine} (v : F32) {a : Nat} (h : a ≠ d.w) : (d.put v).buf.read a = d.buf.read a :=
  read_write_other _ _ _ _ h

/-! ### What each command answers -/

section
variable {s : State} {d : DelayLine}

/-- A query (R128, R130, R132, R133). -/
theorem readDl_respond (results : DelayLine → List Word) (hf : s.regs.fault = false) (hd : s.regs.dl = some d) :
    readDl s (fun d => respond (results d) s) = .next { s with rsp := results d ++ [0x00000000#32] } :=
  readDl_pass s _ d hf hd

/-- A command that replaces registers of the line and answers nothing (R121, R129, R131). -/
theorem mutateDl_respond (f : DelayLine → DelayLine) (hf : s.regs.fault = false) (hd : s.regs.dl = some d)
    (he : s.regs.eng = none) :
    mutateDl s (fun d => respond [] (s.setDl (f d))) = .next { s.setDl (f d) with rsp := [0x00000000#32] } :=
  mutateDl_pass s _ d hf hd he

theorem exec_dlPut (v : F32) (hf : s.regs.fault = false) (hd : s.regs.dl = some d) (he : s.regs.eng = none)
    (hw : d.w < d.n) : exec (.dlPut v) s = .next { s.setDl (d.put v) with rsp := [0x00000000#32] } := by
  rw [exec, execDlPut, mutateDl_pass s _ d hf hd he, memWrite_of_lt d _ v hw, withStore_some, respond_eq]
  rfl

theorem exec_dlPush (v : F32) (hf : s.regs.fault = false) (hd : s.regs.dl = some d) (he : s.regs.eng = none)
    (hw : d.w < d.n) : exec (.dlPush v) s = .next { s.setDl (d.put v).advanceWrite with rsp := [0x00000000#32] } := by
  rw [exec, execDlPush, mutateDl_pass s _ d hf hd he, memWrite_of_lt d _ v hw, withStore_some, respond_eq]
  rfl

theorem exec_dlPop (hf : s.regs.fault = false) (hd : s.regs.dl = some d) (he : s.regs.eng = none) (hr : d.r < d.n) :
    exec .dlPop s = .next { s.setDl d.advanceRead with rsp := [d.buf.read d.r, 0x00000000#32] } := by
  rw [exec, execDlPop, mutateDl_pass s _ d hf hd he, memRead_of_lt d _ hr, withStore_some, respond_eq]
  rfl

theorem exec_dlSetwi (i : Word) (hf : s.regs.fault = false) (hd : s.regs.dl = some d) (he : s.regs.eng = none) :
    exec (.dlSetwi i) s = .next { s.setDl { d with w := i.toNat % d.n } with rsp := [0x00000000#32] } :=
  mutateDl_respond (fun d => { d with w := i.toNat % d.n }) hf hd he

theorem exec_dlSetri (i : Word) (hf : s.regs.fault = false) (hd : s.regs.dl = some d) (he : s.regs.eng = none) :
    exec (.dlSetri i) s = .next { s.setDl { d with r := i.toNat % d.n } with rsp := [0x00000000#32] } :=
  mutateDl_respond (fun d => { d with r := i.toNat % d.n }) hf hd he

theorem exec_dlPeek (hf : s.regs.fault = false) (hd : s.regs.dl = some d) (hr : d.r < d.n) :
    exec .dlPeek s = .next { s with rsp := [d.buf.read d.r, 0x00000000#32] } := by
  rw [exec, execDlPeek, readDl_pass s _ d hf hd, memRead_of_lt d _ hr, withStore_some, respond_eq]
  rfl

theorem exec_dlGet (k : Word) (hf : s.regs.fault = false) (hd : s.regs.dl = some d) (hn : 1 ≤ d.n) :
    exec (.dlGet k) s = .next { s with rsp := [d.buf.read ((d.r + k.toNat) % d.n), 0x00000000#32] } := by
  rw [exec, execDlGet, readDl_pass s _ d hf hd, memRead_of_lt d _ (slot_lt d _ hn), withStore_some, slot_ofNat, respond_eq]
  rfl

end

/-! ### The statements about constructing, clearing, storing and reading -/

/-- Settles O17, by the two answers of the capacity check (`validCapacity`). -/
theorem dlNewConstructs : Obligations.DlNewConstructs := by
  intro s capacity hf he
  have hexec : exec (.dlNew capacity) s =
      if validCapacity s.capMax capacity then respond [] (s.setDl (freshDelayLine capacity.toNat)) else refuse .badSize s :=
    newLeaf_pass s _ hf he
  rw [hexec]
  refine ⟨fun hvalid => ?_, fun hinvalid => ?_⟩
  · rw [if_pos ((validCapacity_iff _ _).2 hvalid), respond_eq]
    exact ⟨freshDelayLine capacity.toNat, rfl, rfl, rfl, rfl, read_zeroed⟩
  · have hbad : ¬ validCapacity s.capMax capacity = true := by
      rw [validCapacity_iff]
      omega
    rw [if_neg hbad]
    rfl

/-- Settles O18: what `DL_RESET` writes is the cleared line with both cursors at 0. -/
theorem dlResetClears : Obligations.DlResetClears := fun _ d hf hd he =>
  ⟨d.cleared 0 0, mutateDl_respond (·.cleared 0 0) hf hd he, rfl, rfl, rfl, read_zeroed⟩

/-- Settles O19, by what the store reads after a write in canonical form (`read_put_same`, `read_put_other`). -/
theorem dlPushStores : Obligations.DlPushStores := fun _ d v hf hd he hw hwf =>
  ⟨(d.put v).advanceWrite, exec_dlPush v hf hd he hw, rfl, cursor_succ_mod hw, rfl, read_put_same v hwf,
    fun _ => read_put_other v⟩

/-- Settles O20, by the wrap of a cursor (`cursor_succ_mod`). -/
theorem dlPopReturns : Obligations.DlPopReturns := by
  intro s d hf hd he hr
  rw [exec_dlPop hf hd he hr, DelayLine.advanceRead, cursor_succ_mod hr]

/-- Settles O21: `DL_PUT` writes as `DL_PUSH` does and leaves the cursors. -/
theorem dlPutStores : Obligations.DlPutStores := fun _ d v hf hd he hw hwf =>
  ⟨d.put v, exec_dlPut v hf hd he hw, rfl, rfl, rfl, read_put_same v hwf, fun _ => read_put_other v⟩

/-- Settles O22: both indices are below the capacity, the second as a remainder. -/
theorem dlPeekAndGetRead : Obligations.DlPeekAndGetRead := fun _ _ k hf hd hr =>
  ⟨exec_dlPeek hf hd hr, exec_dlGet k hf hd (Nat.one_le_of_lt hr)⟩

/-- Settles O25: the answers fit in a word (`indexWord_toNat`), the length among them (`len_lt`). -/
theorem dlQueriesRead : Obligations.DlQueriesRead := by
  intro s d hf hd hw hr hn
  have hlen := len_lt d hw
  refine ⟨indexWord d.w, indexWord d.r, indexWord d.len, indexWord d.n,
    readDl_respond (fun d => [indexWord d.w]) hf hd, indexWord_toNat (by omega),
    readDl_respond (fun d => [indexWord d.r]) hf hd, indexWord_toNat (by omega),
    readDl_respond (fun d => [indexWord d.len]) hf hd, ?_,
    readDl_respond (fun d => [indexWord d.n]) hf hd, indexWord_toNat hn⟩
  rw [indexWord_toNat (by omega), len_eq_emod d hw hr]

/-- Settles O26: a setter replaces its cursor and passes on everything else. -/
theorem dlSettersWrap : Obligations.DlSettersWrap := fun _ _ i hf hd he hn =>
  ⟨exec_dlSetwi i hf hd he, exec_dlSetri i hf hd he, Nat.mod_lt _ hn⟩

/-- Settles O28: `DL_PUSH` is the store of `DL_PUT` and then the cursor that `DL_SETWI` writes, `(DL.w + 1) mod DL.N`. -/
theorem dlPutThenSetwiIsPush : Obligations.DlPutThenSetwiIsPush := by
  intro s d v i hf hd he hw hi
  refine ⟨_, exec_dlPut v hf hd he hw, (exec_dlSetwi (s := { s.setDl (d.put v) with rsp := _ }) i hf rfl he).trans ?_⟩
  rw [exec_dlPush v hf hd he hw, hi]
  rfl

end Sys2Proof.Machine
end

section
/-! `DL_GETF` (41_delay_line.md R127): which offsets fault, the taps of the others in real numbers, and its agreement with
`DL_GET` at the offsets that are integers. -/

namespace Sys2Proof.Machine

/-! ### Offsets -/

theorem realOf_fzero : realOf fzero = 0 := (realOf_eq_zero_iff fzero).2 rfl

theorem isNaN_fzero : isNaN fzero = false := by decide

/-- The offsets that fault are those without a real value and the negative ones; `-0.0` is not among them. -/
theorem badOffset_iff (o : F32) : badOffset o = true ↔ isFinite o = false ∨ realOf o < 0 := by
  cases hfin : isFinite o with
  | true => simp [badOffset, isNaN_of_isFinite hfin, isInf_of_isFinite hfin, flt_iff, isNaN_fzero, realOf_fzero]
  | false =>
    have hspecial : ¬ (isNaN o = false ∧ isInf o = false) := (isFinite_iff_not_special o).not.1 (by simp [hfin])
    rw [not_and_or, Bool.not_eq_false, Bool.not_eq_false] at hspecial
    simp [badOffset, hspecial]

/-- The bypass of R108 is taken at the integers: the fractional part is then a zero, of either sign. -/
theorem feq_frac_fzero_iff {o : F32} (hfin : isFinite o = true) (h0 : 0 ≤ realOf o) :
    feq (frac o) fzero = true ↔ (⌊realOf o⌋ : Rat) = realOf o := by
  obtain ⟨hfrac, hval⟩ := frac_exact hfin h0
  rw [feq_iff, realOf_fzero, hval, sub_eq_zero, eq_comm (a := realOf o)]
  simp [isNaN_of_isFinite hfrac, isNaN_fzero]

/-- The slot at an offset that is not negative, in natural numbers (40_numerics.md R109). -/
theorem slot_of_nonneg (d : DelayLine) {k : Int} (h : 0 ≤ k) : d.slot k = (d.r + k.toNat) % d.n := by
  rw [← slot_ofNat, Int.toNat_of_nonneg h]

/-- At an integer offset both taps are one word and `getf` answers it; without a word there is none to answer. -/
theorem getf_of_integer (d : DelayLine) {o : F32} {k : Nat} (hfin : isFinite o = true) (hk : realOf o = k) :
    d.getf o = d.memRead (d.slot k) := by
  have hfloor : floorInt o = k := by rw [floorInt_eq_floor, hk, Int.floor_natCast]
  have hceil : ceilInt o = k := by rw [ceilInt_eq_ceil, hk, Int.ceil_natCast]
  have hfrac : feq (frac o) fzero = true :=
    (feq_frac_fzero_iff hfin (hk ▸ k.cast_nonneg)).2 (by rw [hk, Int.floor_natCast, Int.cast_natCast])
  rw [DelayLine.getf, hfloor, hceil]
  cases d.memRead (d.slot k) with
  | none => rfl
  | some l => exact congrArg some (interp_bypass l l _ hfrac)

/-! ### The statements -/

/-- Settles O23: `floorInt` and `ceilInt` are floor and ceiling of the real value, and the bypass is taken at its integers
(`feq_frac_fzero_iff`). -/
theorem dlGetfInterpolates : Obligations.DlGetfInterpolates := by
  intro s d o hf hd hn hfin h0
  have hgood : ¬ badOffset o = true := by
    rw [badOffset_iff, hfin]
    simpa using h0
  have hexec : exec (.dlGetf o) s =
      .next { s with rsp := [interp (d.buf.read (d.slot (floorInt o))) (d.buf.read (d.slot (ceilInt o))) (frac o), 0#32] } := by
    rw [exec, execDlGetf, readDl_pass s _ d hf hd, if_neg hgood, getf_eq d o hn, withStore_some, respond_eq]
    rfl
  refine ⟨_, hexec, ?_⟩
  rw [floorInt_eq_floor, ceilInt_eq_ceil, slot_of_nonneg d (Int.floor_nonneg.2 h0), slot_of_nonneg d (Int.ceil_nonneg h0),
    interp]
  simp only [feq_frac_fzero_iff hfin h0]
  rfl

/-- Settles O24, by what a fault leaves of the registers (60_exceptions.md R217). -/
theorem dlGetfFaults : Obligations.DlGetfFaults := by
  intro s d o hf hd hbad
  have hexec : exec (.dlGetf o) s = takeFault [] s := by
    rw [exec, execDlGetf, readDl_pass s _ d hf hd, if_pos ((badOffset_iff o).2 hbad)]
  exact ⟨_, hexec, rfl, rfl, faulted_dlValid _ _ _, faulted_lfoValid _ _ _, faulted_engValid _ _ _, rfl, rfl⟩

/-- Settles O27: past the same checks, `u2f k` is an offset that does not fault and `getf` answers the one word at it
(`getf_of_integer`). -/
theorem dlGetfOfIndexIsGet : Obligations.DlGetfOfIndexIsGet := by
  intro s k hk
  obtain ⟨hfin, hval⟩ : isFinite (u2f k.toNat) = true ∧ realOf (u2f k.toNat) = k.toNat := by
    rw [u2f_eq_i2f]
    exact i2f_small k.toNat hk
  have hgood : ¬ badOffset (u2f k.toNat) = true := by
    rw [badOffset_iff, hfin, hval]
    simp
  refine congrArg (readDl s) (funext fun d => ?_)
  rw [if_neg hgood, getf_of_integer d hfin hval]

end Sys2Proof.Machine
end

section
/-! The ring property (41_delay_line.md R136): a Delay Line under the queue discipline is a first-in first-out queue, with the
queued values in the words from the read cursor on, modulo the capacity. -/

namespace Sys2Proof.Machine

/-! ### The queue in the store -/

/-- The queued values, the next to pop first, stand from the read cursor on and end at the write cursor. -/
structure DelayLine.Queues (d : DelayLine) (queue : List F32) : Prop where
  readCursor : d.r < d.n
  writeCursor : d.w = (d.r + queue.length) % d.n
  canonical : d.buf.wf
  word : ∀ (i : Nat) (h : i < queue.length), d.buf.read ((d.r + i) % d.n) = queue[i]

/-- Different offsets below the capacity are different slots. -/
theorem slot_ne_of_lt {r i j n : Nat} (hij : i < j) (hj : j < n) : (r + i) % n ≠ (r + j) % n := fun h =>
  hij.ne ((Nat.ModEq.add_left_cancel' r h).eq_of_lt_of_lt (hij.trans hj) hj)

section
variable {d : DelayLine} {queue : List F32}

theorem DelayLine.Queues.w_lt (h : d.Queues queue) : d.w < d.n :=
  h.writeCursor ▸ Nat.mod_lt _ (Nat.zero_lt_of_lt h.readCursor)

/-- Equal cursors: nothing is queued. -/
theorem DelayLine.Queues.empty (hcursors : d.w = d.r) (hw : d.w < d.n) (hwf : d.buf.wf) : d.Queues [] where
  readCursor := hcursors ▸ hw
  writeCursor := by rw [hcursors, List.length_nil, Nat.add_zero, Nat.mod_eq_of_lt (hcursors ▸ hw)]
  canonical := hwf
  word := nofun

/-- A push onto at most `n − 1` queued values overwrites none of them. -/
theorem DelayLine.Queues.push (h : d.Queues queue) (v : F32) (hroom : queue.length < d.n) :
    (d.put v).advanceWrite.Queues (queue ++ [v]) where
  readCursor := h.readCursor
  writeCursor := by
    show (d.w + 1) % d.n = (d.r + (queue ++ [v]).length) % d.n
    rw [h.writeCursor, Nat.mod_add_mod, List.length_append, List.length_singleton, Nat.add_assoc]
  canonical := write_wf _ _ _ h.canonical
  word i hi := by
    show (d.put v).buf.read ((d.r + i) % d.n) = (queue ++ [v])[i]
    rcases Nat.lt_or_ge i queue.length with hold | hnew
    · have hother : (d.r + i) % d.n ≠ d.w := h.writeCursor ▸ slot_ne_of_lt hold hroom
      rw [read_put_other v hother, h.word i hold, List.getElem_append_left hold]
    · obtain rfl : i = queue.length := by
        rw [List.length_append, List.length_singleton] at hi
        omega
      rw [← h.writeCursor, read_put_same v h.canonical, List.getElem_concat_length rfl]

/-- The next value to pop is at the read cursor. -/
theorem DelayLine.Queues.head {v : F32} (h : d.Queues (v :: queue)) : d.buf.read d.r = v := by
  have hword := h.word 0 (Nat.zero_lt_succ _)
  rwa [Nat.add_zero, Nat.mod_eq_of_lt h.readCursor] at hword

theorem DelayLine.Queues.pop {v : F32} (h : d.Queues (v :: queue)) : d.advanceRead.Queues queue where
  readCursor := Nat.mod_lt _ (Nat.zero_lt_of_lt h.readCursor)
  writeCursor := by
    show d.w = ((d.r + 1) % d.n + queue.length) % d.n
    rw [h.writeCursor, Nat.mod_add_mod, List.length_cons, Nat.add_right_comm, Nat.add_assoc]
  canonical := h.canonical
  word i hi := by
    show d.buf.read (((d.r + 1) % d.n + i) % d.n) = queue[i]
    rw [Nat.mod_add_mod, Nat.add_right_comm, Nat.add_assoc]
    exact h.word (i + 1) (Nat.succ_lt_succ hi)

end

/-! ### Runs of queue operations -/

theorem runCommands_cons {i : Instr} {is : List Instr} {s t u : State} {rs : List (List Word)} (hexec : exec i s = .next t)
    (hrun : runCommands is t = some (rs, u)) : runCommands (i :: is) s = some (t.rsp :: rs, u) := by
  simp [runCommands, hexec, hrun]

/-- Under the discipline no more is popped than was queued or is pushed. -/
theorem count_pop_le {n queued : Nat} {ops : List QueueOp} (h : disciplined n queued ops) :
    ops.count .pop ≤ queued + (pushedValues ops).length := by
  induction ops generalizing queued with
  | nil => exact Nat.zero_le _
  | cons op ops ih =>
    cases op with
    | push v =>
      obtain ⟨-, hrest⟩ := h
      have hcount := ih hrest
      rw [List.count_cons_of_ne (by nofun), pushedValues, List.length_cons]
      omega
    | pop =>
      obtain ⟨hqueued, hrest⟩ := h
      have hcount := ih hrest
      rw [List.count_cons_self, pushedValues]
      omega

/-- From a line that queues `queue`, a disciplined run is answered throughout, and its pops take the queued values and then the
pushed ones, in order. -/
theorem runCommands_disciplined (ops : List QueueOp) (s : State) (d : DelayLine) (queue : List F32)
    (hf : s.regs.fault = false) (hd : s.regs.dl = some d) (he : s.regs.eng = none) (hqueue : d.Queues queue)
    (hops : disciplined d.n queue.length ops) :
    ∃ rs t, runCommands (ops.map QueueOp.instr) s = some (rs, t) ∧
      popResponses ops rs = ((queue ++ pushedValues ops).take (ops.count .pop)).map (fun v => [v, 0x00000000#32]) := by
  induction ops generalizing s d queue with
  | nil => exact ⟨[], s, rfl, rfl⟩
  | cons op ops ih =>
    cases op with
    | push v =>
      obtain ⟨hbound, hrest⟩ := hops
      have hroom : queue.length < d.n := Nat.lt_of_le_pred (Nat.zero_lt_of_lt hqueue.readCursor) hbound
      obtain ⟨rs, t, hrun, hpops⟩ := ih { s.setDl (d.put v).advanceWrite with rsp := _ } _ (queue ++ [v]) hf rfl he
        (hqueue.push v hroom) (by simpa using hrest)
      refine ⟨_, t, runCommands_cons (exec_dlPush v hf hd he hqueue.w_lt) hrun, ?_⟩
      simpa [popResponses, pushedValues] using hpops
    | pop =>
      obtain ⟨hqueued, hrest⟩ := hops
      obtain ⟨v, queue, rfl⟩ := List.exists_cons_of_length_pos hqueued
      obtain ⟨rs, t, hrun, hpops⟩ := ih { s.setDl d.advanceRead with rsp := _ } _ queue hf rfl he hqueue.pop hrest
      refine ⟨_, t, runCommands_cons (exec_dlPop hf hd he hqueue.readCursor) hrun, ?_⟩
      simp [popResponses, pushedValues, hpops, hqueue.head]

/-- Settles O29: equal cursors queue nothing, and the invariant `DelayLine.Queues` goes through every operation
(`runCommands_disciplined`); the discipline bounds the pops (`count_pop_le`). -/
theorem dlRingProperty : Obligations.DlRingProperty := by
  intro s d ops hf hd he hcursors hw hwf hops
  obtain ⟨rs, t, hrun, hpops⟩ := runCommands_disciplined ops s d [] hf hd he (.empty hcursors hw hwf) hops
  refine ⟨rs, t, hrun, hpops, ?_⟩
  have hcount := count_pop_le hops
  rw [Nat.zero_add] at hcount
  rw [hpops, List.nil_append, List.length_map, List.length_take, Nat.min_eq_left hcount]

end Sys2Proof.Machine
end

section
/-! The Oscillator commands (42_oscillator.md R150 to R155) where the common checks of R160 pass: what each answers. -/

namespace Sys2Proof.Machine

theorem rejectValue_eq (esel : BitVec 8) (v : F32) (s : State) :
    rejectValue esel v s = .next { s with rsp := [v, statusWord .invalidValue esel] } := rfl

/-- Of two bad operands the sample rate is the one rejected (60_exceptions.md R219 step 6). -/
theorem lfoNewInvalid_eq (sr freq : F32) :
    lfoNewInvalid sr freq =
      if positive sr = false then some (0#8, sr) else if positive freq = false then some (1#8, freq) else none := by
  cases hsr : positive sr <;> cases hfreq : positive freq <;> simp [lfoNewInvalid, firstInvalid, hsr, hfreq]

section
variable {s : State} {o : Oscillator}

theorem exec_lfoNew (sr freq phase : F32) (hf : s.regs.fault = false) (he : s.regs.eng = none) :
    exec (.lfoNew sr freq phase) s =
      unlessInvalid s (lfoNewInvalid sr freq) (respond [] (s.setLfo (freshOscillator sr freq phase))) :=
  newLeaf_pass s _ hf he

/-- A command that replaces registers of the oscillator (R151, R154). -/
theorem mutateLfo_respond (results : Oscillator → List Word) (f : Oscillator → Oscillator) (hf : s.regs.fault = false)
    (ho : s.regs.lfo = some o) (he : s.regs.eng = none) :
    mutateLfo s (fun o => respond (results o) (s.setLfo (f o))) =
      .next { s.setLfo (f o) with rsp := results o ++ [0x00000000#32] } :=
  mutateLfo_pass s _ o hf ho he

theorem exec_lfoAdv (hf : s.regs.fault = false) (ho : s.regs.lfo = some o) (he : s.regs.eng = none) :
    exec .lfoAdv s = .next { s.setLfo o.advance with rsp := [o.value, 0x00000000#32] } :=
  mutateLfo_respond (fun o => [o.value]) Oscillator.advance hf ho he

theorem exec_lfoSetp_of_accepts {p : LfoParam} {v : F32} (hv : lfoAccepts p v = true) (hf : s.regs.fault = false)
    (ho : s.regs.lfo = some o) (he : s.regs.eng = none) :
    exec (.lfoSetp p v) s = .next { s.setLfo (o.set p v) with rsp := [0x00000000#32] } :=
  (mutateLfo_pass s _ o hf ho he).trans (if_pos hv)

theorem exec_lfoSetp_of_rejects {p : LfoParam} {v : F32} (hv : lfoAccepts p v = false) (hf : s.regs.fault = false)
    (ho : s.regs.lfo = some o) (he : s.regs.eng = none) :
    exec (.lfoSetp p v) s = .next { s with rsp := [v, statusWord .invalidValue p.sel] } :=
  (mutateLfo_pass s _ o hf ho he).trans (if_neg (by rw [hv]; exact Bool.false_ne_true))

theorem exec_lfoGetp (p : LfoParam) (hf : s.regs.fault = false) (ho : s.regs.lfo = some o) :
    exec (.lfoGetp p) s = .next { s with rsp := [o.get p, 0x00000000#32] } :=
  readLfo_pass s _ o hf ho

end

/-- Settles O38, by the three results of the operand check (`lfoNewInvalid_eq`). -/
theorem lfoNewConstructs : Obligations.LfoNewConstructs := by
  intro s sr freq phase hf he
  rw [exec_lfoNew sr freq phase hf he, lfoNewInvalid_eq]
  split_ifs
  · exact rejectValue_eq 0#8 sr s
  · exact rejectValue_eq 1#8 freq s
  · exact respond_eq [] _

/-- Settles O39: what `LFO_RESET` writes is `Oscillator.restored`. -/
theorem lfoResetRestores : Obligations.LfoResetRestores := fun _ _ hf ho he =>
  mutateLfo_respond (fun _ => []) Oscillator.restored hf ho he

/-- Settles O40: the check of `sr` and `freq` is `positive`, that of the phase accepts every value. -/
theorem lfoSetpWrites : Obligations.LfoSetpWrites := fun _ _ _ hf ho he =>
  ⟨fun hv => ⟨exec_lfoSetp_of_accepts (p := .sr) hv hf ho he, exec_lfoSetp_of_accepts (p := .freq) hv hf ho he⟩,
    fun hv => ⟨exec_lfoSetp_of_rejects (p := .sr) hv hf ho he, exec_lfoSetp_of_rejects (p := .freq) hv hf ho he⟩,
    exec_lfoSetp_of_accepts (p := .phase) rfl hf ho he⟩

/-- Settles O41: the register a selector names is `Oscillator.get`. -/
theorem lfoGetpReads : Obligations.LfoGetpReads := fun _ _ hf ho =>
  ⟨exec_lfoGetp .sr hf ho, exec_lfoGetp .freq hf ho, exec_lfoGetp .phase hf ho⟩

/-- Settles O42: the value is that of the oscillator before the advance (R157). -/
theorem lfoAdvAdvances : Obligations.LfoAdvAdvances := fun _ _ hf ho he => exec_lfoAdv hf ho he

end Sys2Proof.Machine
end

section
/-! The phase after an advance (42_oscillator.md R156, R159): the wrap into `(−TWO_PI, TWO_PI)`, and the ordinary case as one
conditional subtraction. -/

namespace Sys2Proof.Machine

/-! ### A rounded result against a datum (40_numerics.md R91) -/

section
variable {x : Rat} {y z : F32}

theorem IsNearest.isFinite_of_lt (h : IsNearest x y) (hx : |x| < overflowBound) : isFinite y = true := by
  obtain ⟨-, h⟩ := h
  rw [if_pos hx] at h
  exact h.1

/-- A finite result is at least as near as any finite datum. -/
theorem IsNearest.abs_sub_le (h : IsNearest x y) (hy : isFinite y = true) (hz : isFinite z = true) :
    |x - realOf y| ≤ |x - realOf z| := by
  obtain ⟨-, h⟩ := h
  split at h
  · obtain ⟨-, hnear, -⟩ := h
    exact hnear z hz
  · rw [isInf_of_isFinite hy] at h
    contradiction

/-- Rounding does not go above a datum that bounds the exact value. -/
theorem IsNearest.le_of_le (h : IsNearest x y) (hy : isFinite y = true) (hz : isFinite z = true) (hx : x ≤ realOf z) :
    realOf y ≤ realOf z := by
  by_contra hlt
  have hnear := h.abs_sub_le hy hz
  rw [abs_of_nonpos (by linarith), abs_of_nonpos (by linarith)] at hnear
  linarith

theorem IsNearest.ge_of_ge (h : IsNearest x y) (hy : isFinite y = true) (hz : isFinite z = true) (hx : realOf z ≤ x) :
    realOf z ≤ realOf y := by
  by_contra hlt
  have hnear := h.abs_sub_le hy hz
  rw [abs_of_nonneg (by linarith), abs_of_nonneg (by linarith)] at hnear
  linarith

end

/-! ### Sums -/

section
variable {a b hi : F32}

/-- A finite sum has finite operands (40_numerics.md R93, R94). -/
theorem isFinite_of_isFinite_fadd (h : isFinite (fadd a b) = true) : isFinite a = true ∧ isFinite b = true := by
  have hnan : isFinite Config.canonNan = false := by
    rw [← Bool.not_eq_true, isFinite_iff_not_special, isNaN_canonNan]
    simp
  simp only [isFinite_iff_not_special a, isFinite_iff_not_special b]
  simp only [fadd] at h
  split_ifs at h with hn ha hs hb
  · exact absurd h (by simp [hnan])
  · exact absurd h (by simp [hnan])
  · exact absurd ha (by simp [isInf_of_isFinite h])
  · exact absurd hb (by simp [isInf_of_isFinite h])
  all_goals simpa [and_and_and_comm, ha, hb] using hn

/-- Neither term below zero, the finite sum is not (R156). -/
theorem realOf_fadd_nonneg (ha : 0 ≤ realOf a) (hb : 0 ≤ realOf b) (h : isFinite (fadd a b) = true) :
    0 ≤ realOf (fadd a b) := by
  obtain ⟨hfa, hfb⟩ := isFinite_of_isFinite_fadd h
  have hzero : isFinite fzero = true := by decide
  simpa only [realOf_fzero] using
    (fadd_isNearest hfa hfb).ge_of_ge h hzero (by rw [realOf_fzero]; exact add_nonneg ha hb)

theorem fge_fzero_iff : fge a fzero = true ↔ isNaN a = false ∧ 0 ≤ realOf a := by
  simp [fge_iff, isNaN_fzero, realOf_fzero]

/-- What lies between zero and a finite datum is finite (R96). -/
theorem isFinite_of_fge_of_flt (hhi : isFinite hi = true) (h0 : fge a fzero = true) (hlt : flt a hi = true) :
    isFinite a = true := by
  obtain ⟨-, h0⟩ := fge_fzero_iff.1 h0
  obtain ⟨-, -, hreal⟩ := flt_iff.1 hlt
  have hhi0 : 0 ≤ realOf hi := h0.trans hreal.le
  rw [← abs_of_nonneg h0, ← abs_of_nonneg hhi0, abs_realOf, abs_realOf, div_lt_div_iff_of_pos_right unitsPerOne_cast_pos,
    Nat.cast_lt, units_eq_unitsOfMag, units_eq_unitsOfMag, unitsOfMag_strictMono.lt_iff_lt] at hreal
  exact (isFinite_iff a).2 (hreal.trans ((isFinite_iff hi).1 hhi))

end

/-! ### The period -/

theorem isFinite_twoPi : isFinite Config.twoPi = true := by decide

theorem realOf_twoPi_pos : 0 < realOf Config.twoPi := by decide +kernel

/-- The datum before `TWO_PI` bounds what lies below it. -/
theorem le_of_flt_twoPi {a : F32} (h : flt a Config.twoPi = true) : realOf a ≤ realOf 0x40C90FDA#32 := by
  have hpred : orderKey Config.twoPi = orderKey 0x40C90FDA#32 + 1 := by decide
  obtain ⟨-, -, hlt⟩ := flt_iff.1 h
  rw [← orderKey_lt_iff, hpred] at hlt
  exact orderKey_le_iff.1 (Int.lt_add_one_iff.1 hlt)

/-- Two terms below `TWO_PI` have a finite sum below twice `TWO_PI`: twice the datum before `TWO_PI` bounds them, and is itself
a datum. -/
theorem fadd_lt_two_mul_twoPi {a b : F32} (ha0 : fge a fzero = true) (ha : flt a Config.twoPi = true)
    (hb0 : fge b fzero = true) (hb : flt b Config.twoPi = true) :
    isFinite (fadd a b) = true ∧ realOf (fadd a b) < 2 * realOf Config.twoPi := by
  have hbound : realOf 0x40C90FDA#32 + realOf 0x40C90FDA#32 = realOf 0x41490FDA#32 := by decide +kernel
  have hbound_fin : isFinite 0x41490FDA#32 = true := by decide
  have hbound_lt : realOf 0x41490FDA#32 < 2 * realOf Config.twoPi := by decide +kernel
  have hoverflow : realOf 0x41490FDA#32 < overflowBound := by decide +kernel
  have hnear := fadd_isNearest (isFinite_of_fge_of_flt isFinite_twoPi ha0 ha) (isFinite_of_fge_of_flt isFinite_twoPi hb0 hb)
  have hnonneg : 0 ≤ realOf a + realOf b := add_nonneg (fge_fzero_iff.1 ha0).2 (fge_fzero_iff.1 hb0).2
  have hle : realOf a + realOf b ≤ realOf 0x41490FDA#32 := hbound ▸ add_le_add (le_of_flt_twoPi ha) (le_of_flt_twoPi hb)
  have hfin := hnear.isFinite_of_lt (by rw [abs_of_nonneg hnonneg]; exact hle.trans_lt hoverflow)
  exact ⟨hfin, (hnear.le_of_le hfin hbound_fin hle).trans_lt hbound_lt⟩

/-! ### The wrap -/

section
variable {a : F32}

theorem fmodx_twoPi_bounded (h : isFinite a = true) :
    isFinite (fmodx a Config.twoPi) = true ∧ |realOf (fmodx a Config.twoPi)| < realOf Config.twoPi := by
  obtain ⟨hfin, -, hlt, -⟩ := fmodxExact.1 a Config.twoPi h isFinite_twoPi realOf_twoPi_pos
  exact ⟨hfin, hlt⟩

/-- Below twice `TWO_PI` the wrap takes off one `TWO_PI` or nothing. -/
theorem fmodx_twoPi_eq (h : isFinite a = true) (h0 : 0 ≤ realOf a) (hlt : realOf a < 2 * realOf Config.twoPi) :
    fmodx a Config.twoPi = if fge a Config.twoPi = true then fsub a Config.twoPi else a := by
  obtain ⟨-, -, -, -, hsub, hself, -⟩ := fmodxExact.1 a Config.twoPi h isFinite_twoPi realOf_twoPi_pos
  have hge : fge a Config.twoPi = true ↔ realOf Config.twoPi ≤ realOf a := by
    simp [fge_iff, isNaN_of_isFinite h, isNaN_of_isFinite isFinite_twoPi]
  split
  next hle => exact hsub (hge.1 hle) hlt
  next hnot => exact hself h0 (not_le.1 (mt hge.2 hnot))

/-- The remainder has the sign of the dividend (40_numerics.md R105). -/
theorem realOf_fmodx_twoPi_nonneg (h : isFinite a = true) (h0 : 0 ≤ realOf a) : 0 ≤ realOf (fmodx a Config.twoPi) := by
  rw [realOf_nonneg_iff] at h0 ⊢
  rw [signedUnits_fmodx h ((realOf_pos_iff _).1 realOf_twoPi_pos).2]
  exact Int.tmod_nonneg _ h0

end

/-- Settles O43: the bound is `fmodx`'s; the ordinary case needs the sum below twice `TWO_PI` (`fadd_lt_two_mul_twoPi`). -/
theorem phaseIsBounded : Obligations.PhaseIsBounded := by
  intro o sum
  refine ⟨fmodx_twoPi_bounded, fmodxExact.2 sum Config.twoPi isFinite_twoPi realOf_twoPi_pos,
    fun hp0 hp hi0 hi => ?_, fun hp0 hi0 hfin => ?_⟩
  · obtain ⟨hfin, hlt⟩ := fadd_lt_two_mul_twoPi hp0 hp hi0 hi
    exact fmodx_twoPi_eq hfin (realOf_fadd_nonneg (fge_fzero_iff.1 hp0).2 (fge_fzero_iff.1 hi0).2 hfin) hlt
  · have hsum := realOf_fadd_nonneg (fge_fzero_iff.1 hp0).2 (fge_fzero_iff.1 hi0).2 hfin
    obtain ⟨hwrap, hlt⟩ := fmodx_twoPi_bounded hfin
    have hnan := isNaN_of_isFinite hwrap
    exact ⟨fge_fzero_iff.2 ⟨hnan, realOf_fmodx_twoPi_nonneg hfin hsum⟩,
      flt_iff.2 ⟨hnan, isNaN_of_isFinite isFinite_twoPi, (abs_lt.1 hlt).2⟩⟩

end Sys2Proof.Machine
end

section
/-! Phase continuity (42_oscillator.md R158): the commands that leave the phase as it is, and those that move it by one
increment. -/

namespace Sys2Proof.Machine

/-! ### The phase kept -/

/-- The oscillator's phase, none where there is no oscillator. -/
def State.phase (s : State) : Option F32 := s.regs.lfo.map Oscillator.phase

/-- A result of a command run in `s` that leaves the phase as it is, unless it is the fault of 60_exceptions.md R217. -/
def KeepsPhase (s : State) (r : Result) : Prop :=
  ∀ t, r = .next t → lastWord t.rsp ≠ 0x00000006#32 → t.phase = s.phase

namespace KeepsPhase

variable {s u : State}

theorem answer (rs : List Word) (st : Status) (esel : BitVec 8) (h : u.phase = s.phase) :
    KeepsPhase s (Machine.answer rs st esel u) := by
  intro t ht _
  obtain rfl := (answer_eq_next rs st esel u t).1 ht
  exact h

theorem respond (rs : List Word) (h : u.phase = s.phase) : KeepsPhase s (Machine.respond rs u) := answer rs .ok 0#8 h

theorem refuse (st : Status) : KeepsPhase s (Machine.refuse st s) := answer [] st 0#8 rfl

theorem rejectValue (esel : BitVec 8) (v : F32) : KeepsPhase s (Machine.rejectValue esel v s) :=
  answer [v] .invalidValue esel rfl

theorem takeFault (ys : List F32) : KeepsPhase s (Machine.takeFault ys s) := by
  intro t ht hstatus
  obtain rfl := (takeFault_eq_next ys s t).1 ht
  exact absurd (lastWord_responseFrame ys .fault 0#8) hstatus

/-! ### The checks -/

theorem ite {c : Prop} [Decidable c] {k j : Result} (hk : KeepsPhase s k) (hj : KeepsPhase s j) :
    KeepsPhase s (if c then k else j) := by
  split
  · exact hk
  · exact hj

theorem withStore {α : Type} (access : Option α) {k : α → Result} (hk : ∀ a, KeepsPhase s (k a)) :
    KeepsPhase s (Machine.withStore access k) := by
  cases access with
  | none => exact nofun
  | some a => exact hk a

theorem newLeaf {k : Result} (hk : KeepsPhase s k) : KeepsPhase s (Machine.newLeaf s k) :=
  ite (refuse _) (ite (refuse _) hk)

theorem readDl {k : DelayLine → Result} (hk : ∀ d, KeepsPhase s (k d)) : KeepsPhase s (Machine.readDl s k) := by
  refine ite (refuse _) ?_
  unfold withDl
  split
  · exact refuse _
  · exact hk _

theorem mutateDl {k : DelayLine → Result} (hk : ∀ d, KeepsPhase s (k d)) : KeepsPhase s (Machine.mutateDl s k) :=
  readDl fun d => ite (refuse _) (hk d)

theorem readLfo {k : Oscillator → Result} (hk : ∀ o, s.regs.lfo = some o → KeepsPhase s (k o)) :
    KeepsPhase s (Machine.readLfo s k) := by
  refine ite (refuse _) ?_
  unfold withLfo
  split
  · exact refuse _
  next o ho => exact hk o ho

theorem mutateLfo {k : Oscillator → Result} (hk : ∀ o, s.regs.lfo = some o → KeepsPhase s (k o)) :
    KeepsPhase s (Machine.mutateLfo s k) :=
  readLfo fun o ho => ite (refuse _) (hk o ho)

theorem onEng {k : Engine → Result} (hk : ∀ e, KeepsPhase s (k e)) : KeepsPhase s (Machine.onEng s k) := by
  refine ite (refuse _) ?_
  unfold withEng
  split
  · exact refuse _
  · exact hk _

theorem withOwned {k : DelayLine → Oscillator → Result} (hk : ∀ d o, s.regs.lfo = some o → KeepsPhase s (k d o)) :
    KeepsPhase s (Machine.withOwned s k) := by
  unfold Machine.withOwned
  split
  next d o _ ho => exact hk d o ho
  · exact nofun

/-! ### The commands that write the oscillator -/

theorem setLfo {o o' : Oscillator} (rs : List Word) (ho : s.regs.lfo = some o) (h : o'.phase = o.phase) :
    KeepsPhase s (Machine.respond rs (s.setLfo o')) :=
  respond rs (by simp [State.phase, ho, h])

theorem setAll {o o' : Oscillator} (d : DelayLine) (e : Engine) (rs : List Word) (ho : s.regs.lfo = some o)
    (h : o'.phase = o.phase) : KeepsPhase s (Machine.respond rs (s.setAll d o' e)) :=
  respond rs (by simp [State.phase, ho, h])

theorem execLfoSetp (p : LfoParam) (v : F32) (hp : p ≠ .phase) : KeepsPhase s (Machine.execLfoSetp p v s) :=
  mutateLfo fun o ho => ite (setLfo [] ho (lfo_get_set_other o p .phase v hp.symm)) (rejectValue _ v)

theorem execEngSetp (p : EngParam) (v : F32) : KeepsPhase s (Machine.execEngSetp p v s) :=
  onEng fun e => ite (withOwned fun d o ho => setAll d (e.set p v) [] ho (follow_phase o p v)) (rejectValue _ v)

end KeepsPhase

/-! ### Every command -/

/-- The commands that R158 lets give the phase another value, those that advance it, and `ENG_FREE`. -/
inductive WritesPhase : Instr → Prop
  | lfoNew (sr freq phase : F32) : WritesPhase (.lfoNew sr freq phase)
  | lfoReset : WritesPhase .lfoReset
  | lfoSetp (v : F32) : WritesPhase (.lfoSetp .phase v)
  | lfoAdv : WritesPhase .lfoAdv
  | engNew (sr mf depth base : F32) : WritesPhase (.engNew sr mf depth base)
  | engReset : WritesPhase .engReset
  | engProc (xs : List F32) : WritesPhase (.engProc xs)
  | engFree : WritesPhase .engFree

theorem exec_keepsPhase (i : Instr) (s : State) (h : ¬WritesPhase i) : KeepsPhase s (exec i s) := by
  cases i with
  | sysStatus => exact .respond _ rfl
  | dlNew capacity => exact .newLeaf (.ite (.respond [] rfl) (.refuse _))
  | dlReset => exact .mutateDl fun _ => .respond [] rfl
  | dlPush value => exact .mutateDl fun _ => .withStore _ fun _ => .respond [] rfl
  | dlPop => exact .mutateDl fun _ => .withStore _ fun _ => .respond _ rfl
  | dlPut value => exact .mutateDl fun _ => .withStore _ fun _ => .respond [] rfl
  | dlPeek => exact .readDl fun _ => .withStore _ fun _ => .respond _ rfl
  | dlGet offset => exact .readDl fun _ => .withStore _ fun _ => .respond _ rfl
  | dlGetf offset => exact .readDl fun _ => .ite (.takeFault []) (.withStore _ fun _ => .respond _ rfl)
  | dlGetwi => exact .readDl fun _ => .respond _ rfl
  | dlSetwi index => exact .mutateDl fun _ => .respond [] rfl
  | dlGetri => exact .readDl fun _ => .respond _ rfl
  | dlSetri index => exact .mutateDl fun _ => .respond [] rfl
  | dlLen => exact .readDl fun _ => .respond _ rfl
  | dlCap => exact .readDl fun _ => .respond _ rfl
  | lfoNew sr freq phase => exact absurd (.lfoNew sr freq phase) h
  | lfoReset => exact absurd (.lfoReset) h
  | lfoSetp sel value => exact .execLfoSetp sel value fun hsel => h (hsel ▸ .lfoSetp value)
  | lfoGetp sel => exact .readLfo fun _ _ => .respond _ rfl
  | lfoAdv => exact absurd (.lfoAdv) h
  | engNew sr mf depth base => exact absurd (.engNew sr mf depth base) h
  | engReset => exact absurd (.engReset) h
  | engSetp sel value => exact .execEngSetp sel value
  | engGetp sel => exact .onEng fun _ => .respond _ rfl
  | engProc xs => exact absurd (.engProc xs) h
  | engFree => exact absurd (.engFree) h
  | engGett => exact .onEng fun _ => .respond _ rfl

/-! ### The advance -/

section
variable {s t : State}

/-- A mutating Oscillator command answered by `OK` passed the checks (60_exceptions.md R219). -/
theorem mutateLfo_ok {k : Oscillator → Result} {o : Oscillator} (h : mutateLfo s k = .next t)
    (hok : lastWord t.rsp = 0x00000000#32) (ho : s.regs.lfo = some o) : s.regs.fault = false ∧ s.regs.eng = none := by
  rcases unlessFaulted_next s t _ h with ⟨-, h⟩ | ⟨hf, h⟩
  · exact absurd (status_of_answer_ok h hok) (by decide)
  · simp only [withLfo, ho, unlessOwned] at h
    split at h
    · exact absurd (status_of_answer_ok h hok) (by decide)
    next hvalid => exact ⟨hf, eng_none_of_not_valid s hvalid⟩

/-- An Engine command answered by `OK` passed the checks. -/
theorem onEng_ok {k : Engine → Result} (h : onEng s k = .next t) (hok : lastWord t.rsp = 0x00000000#32) :
    s.regs.fault = false ∧ ∃ e, s.regs.eng = some e ∧ k e = .next t := by
  rcases unlessFaulted_next s t _ h with ⟨-, h⟩ | ⟨hf, h⟩
  · exact absurd (status_of_answer_ok h hok) (by decide)
  · unfold withEng at h
    split at h
    · exact absurd (status_of_answer_ok h hok) (by decide)
    next e he => exact ⟨hf, e, he, h⟩

/-- A block of one sample advances the oscillator once (43_engine.md R177). -/
theorem runBlock_singleton_lfo {x : F32} {ys : List F32} {v v' : Voice} (h : runBlock [x] v = .outputs ys v') :
    v'.lfo = v.lfo.advance := by
  cases hstep : sampleStep x v with
  | outOfRange => simp [runBlock, hstep] at h
  | bounds => simp [runBlock, hstep] at h
  | output y w =>
    obtain ⟨-, -, -, hw⟩ := sampleStep_output x y v w hstep
    obtain ⟨-, rfl⟩ : [y] = ys ∧ w = v' := by simpa [runBlock, hstep, BlockOutcome.cons] using h
    rw [hw]

theorem execLfoAdv_ok {o : Oscillator} (h : exec .lfoAdv s = .next t) (hok : lastWord t.rsp = 0x00000000#32)
    (ho : s.regs.lfo = some o) : t.regs.lfo = some o.advance := by
  obtain ⟨hf, he⟩ := mutateLfo_ok h hok ho
  rw [exec_lfoAdv hf ho he] at h
  obtain rfl := Host.Outcome.next.inj h
  exact setLfo_lfo s o.advance

theorem execEngProc_singleton_ok {x : F32} {o : Oscillator} (h : execEngProc [x] s = .next t)
    (hok : lastWord t.rsp = 0x00000000#32) (ho : s.regs.lfo = some o) : t.regs.lfo = some o.advance := by
  obtain ⟨hf, e, he, hrest⟩ := onEng_ok h hok
  obtain ⟨d, o', hd, ho', -⟩ := withOwned_next s t _ hrest
  obtain rfl : o = o' := Option.some.inj (ho.symm.trans ho')
  obtain ⟨ys, v, hrun, rfl⟩ := execEngProc_ok [x] s t ⟨d, o, e⟩ h hok hf hd ho he
  exact congrArg some (runBlock_singleton_lfo hrun)

end

/-- Settles O44: the commands of the first part leave the phase to others (`exec_keepsPhase`); each of the two advances ends in
`Oscillator.advance`. -/
theorem phaseIsContinuous : Obligations.PhaseIsContinuous := by
  constructor
  · intro i s t h hstatus hnew hreset hsetp hengNew hengReset hadv hproc hfree
    have hi : ¬WritesPhase i := by
      intro hw
      cases hw with
      | lfoNew sr freq phase => exact hnew sr freq phase rfl
      | lfoReset => exact hreset rfl
      | lfoSetp v => exact hsetp v rfl
      | lfoAdv => exact hadv rfl
      | engNew sr mf depth base => exact hengNew sr mf depth base rfl
      | engReset => exact hengReset rfl
      | engProc xs => exact hproc xs rfl
      | engFree => exact hfree rfl
    exact exec_keepsPhase i s hi t h hstatus
  · intro i s t o hi h hok ho
    have hlfo : t.regs.lfo = some o.advance := by
      rcases hi with rfl | ⟨x, rfl⟩
      · exact execLfoAdv_ok h hok ho
      · exact execEngProc_singleton_ok h hok ho
    rw [hlfo]
    rfl

end Sys2Proof.Machine
end

section
/-! The Engine commands (43_engine.md R170 to R175, R185, R186) where the common checks of R190 pass: what each answers. -/

namespace Sys2Proof.Machine

/-- The engine and the leaves it owns are those of `v`, and no fault has occurred: the checks of R190 pass. -/
structure State.Runs (s : State) (v : Voice) : Prop where
  unfaulted : s.regs.fault = false
  line : s.regs.dl = some v.dl
  oscillator : s.regs.lfo = some v.lfo
  engine : s.regs.eng = some v.eng

section
variable {s : State} {e : Engine} {v : Voice}

/-! ### Construction -/

/-- Of several bad operands the one with the least selector is rejected (60_exceptions.md R219 step 6). -/
theorem engNewInvalid_eq (sr mf depth base : F32) :
    engNewInvalid sr mf depth base =
      if positive sr = false then some (0#8, sr) else if positive mf = false then some (1#8, mf)
      else if nonNegative depth = false then some (2#8, depth) else if positive base = false then some (3#8, base)
      else none := by
  unfold engNewInvalid
  split_ifs <;> simp_all [firstInvalid]

variable {sr mf depth base : F32}

theorem exec_engNew_of_invalid {esel : BitVec 8} {value : F32} (hf : s.regs.fault = false)
    (hbad : engNewInvalid sr mf depth base = some (esel, value)) :
    exec (.engNew sr mf depth base) s = .next { s with rsp := [value, statusWord .invalidValue esel] } := by
  rw [exec, execEngNew, unlessFaulted_pass s _ hf, hbad]
  exact rejectValue_eq esel value s

theorem exec_engNew_of_unsized (hf : s.regs.fault = false) (hvalid : engNewInvalid sr mf depth base = none)
    (hsize : engineSize s.capMax sr depth base = none) :
    exec (.engNew sr mf depth base) s = .next { s with rsp := [0x00000005#32] } := by
  rw [exec, execEngNew, unlessFaulted_pass s _ hf, hvalid, hsize]
  rfl

/-- What `ENG_NEW` builds (R170, R172). -/
def freshVoice (sr mf depth base : F32) (d n : Nat) : Voice :=
  ⟨ownedDelayLine d n, freshOscillator sr mf Config.phase0, freshEngine sr mf depth base⟩

/-- The state after an `ENG_NEW` whose sizing gives `d` and `n`. -/
def State.built (s : State) (sr mf depth base : F32) (d n : Nat) : State :=
  { s.setAll (ownedDelayLine d n) (freshOscillator sr mf Config.phase0) (freshEngine sr mf depth base) with
    rsp := [0x00000000#32] }

theorem State.built_runs (d n : Nat) (hf : s.regs.fault = false) :
    (s.built sr mf depth base d n).Runs (freshVoice sr mf depth base d n) := ⟨hf, rfl, rfl, rfl⟩

theorem exec_engNew_of_sized {d n : Nat} (hf : s.regs.fault = false) (hvalid : engNewInvalid sr mf depth base = none)
    (hsize : engineSize s.capMax sr depth base = some (d, n)) :
    exec (.engNew sr mf depth base) s = .next (s.built sr mf depth base d n) := by
  rw [exec, execEngNew, unlessFaulted_pass s _ hf, hvalid, hsize]
  rfl

/-- `ENG_NEW` answered by `OK` passed every check of R170. -/
theorem exec_engNew_ok {t : State} (hf : s.regs.fault = false) (h : exec (.engNew sr mf depth base) s = .next t)
    (hok : lastWord t.rsp = 0x00000000#32) :
    engNewInvalid sr mf depth base = none ∧
      ∃ d n, engineSize s.capMax sr depth base = some (d, n) ∧ t = s.built sr mf depth base d n := by
  cases hvalid : engNewInvalid sr mf depth base with
  | some bad =>
    rw [exec, execEngNew, unlessFaulted_pass s _ hf, hvalid] at h
    exact absurd (status_of_answer_ok h hok) (by decide)
  | none =>
    cases hsize : engineSize s.capMax sr depth base with
    | none =>
      rw [exec, execEngNew, unlessFaulted_pass s _ hf, hvalid, hsize] at h
      exact absurd (status_of_answer_ok h hok) (by decide)
    | some size =>
      obtain ⟨d, n⟩ := size
      rw [exec_engNew_of_sized hf hvalid hsize] at h
      exact ⟨rfl, d, n, rfl, (Host.Outcome.next.inj h).symm⟩

/-! ### The commands on an engine -/

/-- A command of the engine with its leaves (R190, 10_state.md R23). -/
theorem onEng_withOwned (h : s.Runs v) (k : Engine → DelayLine → Oscillator → Result) :
    onEng s (fun e => withOwned s (k e)) = k v.eng v.dl v.lfo := by
  rw [onEng_pass s _ v.eng h.unfaulted h.engine, withOwned_pass s _ v.dl v.lfo h.line h.oscillator]

theorem exec_engReset {d0 n0 : Nat} (h : s.Runs v)
    (hsize : engineSize s.capMax v.eng.sr0 v.eng.depth0 v.eng.base0 = some (d0, n0)) :
    exec .engReset s =
      .next { s.setAll (v.dl.cleared ((2 * d0) % v.dl.n) 0) v.lfo.restored v.eng.restored with rsp := [0x00000000#32] } := by
  rw [exec, execEngReset, onEng_withOwned h, hsize]
  exact respond_eq [] _

theorem exec_engSetp_of_accepts {p : EngParam} {value : F32} (h : s.Runs v) (hv : positive value = true) :
    exec (.engSetp p value) s =
      .next { s.setAll v.dl (v.lfo.follow p value) (v.eng.set p value) with rsp := [0x00000000#32] } := by
  rw [exec, execEngSetp, onEng_pass s _ v.eng h.unfaulted h.engine, engAccepts, if_pos hv,
    withOwned_pass s _ v.dl v.lfo h.line h.oscillator]
  exact respond_eq [] _

theorem exec_engSetp_of_rejects {p : EngParam} {value : F32} (h : s.Runs v) (hv : positive value = false) :
    exec (.engSetp p value) s = .next { s with rsp := [value, statusWord .invalidValue p.sel] } := by
  rw [exec, execEngSetp, onEng_pass s _ v.eng h.unfaulted h.engine, engAccepts, if_neg (by simp [hv])]
  exact rejectValue_eq p.sel value s

/-- A query of the engine's registers (R175, R186). -/
theorem onEng_respond (results : Engine → List Word) (hf : s.regs.fault = false) (he : s.regs.eng = some e) :
    onEng s (fun e => respond (results e) s) = .next { s with rsp := results e ++ [0x00000000#32] } :=
  onEng_pass s _ e hf he

theorem exec_engGetp (p : EngParam) (hf : s.regs.fault = false) (he : s.regs.eng = some e) :
    exec (.engGetp p) s = .next { s with rsp := [e.get p, 0x00000000#32] } :=
  onEng_respond (fun e => [e.get p]) hf he

end

/-! ### The statements -/

/-- Settles O46, by the results of the operand check (`engNewInvalid_eq`) and of the sizing. -/
theorem engNewConstructs : Obligations.EngNewConstructs := by
  intro s sr mf depth base hf
  have hinvalid := engNewInvalid_eq sr mf depth base
  split_ifs at hinvalid ⊢
  · exact exec_engNew_of_invalid hf hinvalid
  · exact exec_engNew_of_invalid hf hinvalid
  · exact exec_engNew_of_invalid hf hinvalid
  · exact exec_engNew_of_invalid hf hinvalid
  · cases hsize : engineSize s.capMax sr depth base with
    | none => exact exec_engNew_of_unsized hf hinvalid hsize
    | some size => exact exec_engNew_of_sized hf hinvalid hsize

/-- Settles O47: where the invariants hold, the capacity is the one that the originals size (10_state.md R23), so what
`ENG_RESET` writes is what `ENG_NEW` builds. -/
theorem engResetRestores : Obligations.EngResetRestores := by
  intro s d o e d0 n0 hf hd ho he hsize
  have hreset := exec_engReset (v := ⟨d, o, e⟩) ⟨hf, hd, ho, he⟩ hsize
  refine ⟨hreset, fun hinv => ?_⟩
  obtain ⟨-, -, heng, -, -, hsr0, hfreq0, hphase0, d1, hsize1, -⟩ := voice_ok_of_inv s d o e hinv hf hd ho he
  obtain ⟨-, -, -, -, hsr, hmf, hdepth, hbase⟩ := heng
  have hvalid : engNewInvalid e.sr0 e.mf0 e.depth0 e.base0 = none := by
    simp [engNewInvalid_eq, hsr, hmf, hdepth, hbase]
  obtain ⟨-, rfl⟩ : d0 = d1 ∧ n0 = d.n := by simpa [hsize] using hsize1
  have hline : d.cleared ((2 * d0) % d.n) 0 = ownedDelayLine d0 d.n := rfl
  have hlfo : o.restored = freshOscillator e.sr0 e.mf0 Config.phase0 := by
    simp only at hsr0 hfreq0 hphase0
    rw [Oscillator.restored, freshOscillator, ← hsr0, ← hfreq0, ← hphase0]
  have heng : e.restored = freshEngine e.sr0 e.mf0 e.depth0 e.base0 := rfl
  rw [hreset, exec_engNew_of_sized hf hvalid hsize, State.built, hline, hlfo, heng]

/-- Settles O48: the value is copied by `Oscillator.follow`, for the selectors `sr` and `mf` alone. -/
theorem engSetpWrites : Obligations.EngSetpWrites := by
  intro s d o e value hf hd ho he
  have hruns : s.Runs ⟨d, o, e⟩ := ⟨hf, hd, ho, he⟩
  refine ⟨fun hv => ?_, fun hv => ?_⟩
  · exact ⟨exec_engSetp_of_accepts (p := .sr) hruns hv, exec_engSetp_of_accepts (p := .mf) hruns hv,
      exec_engSetp_of_accepts (p := .depth) hruns hv, exec_engSetp_of_accepts (p := .base) hruns hv⟩
  · exact ⟨exec_engSetp_of_rejects (p := .sr) hruns hv, exec_engSetp_of_rejects (p := .mf) hruns hv,
      exec_engSetp_of_rejects (p := .depth) hruns hv, exec_engSetp_of_rejects (p := .base) hruns hv⟩

/-- Settles O49: the register a selector names is `Engine.get`. -/
theorem engGetpGettRead : Obligations.EngGetpGettRead := fun _ _ hf he =>
  ⟨exec_engGetp .sr hf he, exec_engGetp .mf hf he, exec_engGetp .depth hf he, exec_engGetp .base hf he,
    onEng_respond (fun e => [e.time]) hf he⟩

/-- Settles O52: `FAULT` was 0 and stays so. -/
theorem engFreeDestroys : Obligations.EngFreeDestroys := by
  intro s e hf he
  have hregs : s.freed.regs = ⟨false, none, none, none⟩ := by rw [State.freed, ← hf]
  rw [exec, execEngFree, onEng_pass s _ e hf he, respond_eq, hregs]
  rfl

end Sys2Proof.Machine
end

section
/-! The sizing (43_engine.md R171) in real numbers, and what it guarantees of every offset (R187): rounding is monotone and
exact at the integers up to 2^24, which bound the offset. -/

namespace Sys2Proof.Machine

/-! ### Monotone rounding (40_numerics.md R91) -/

/-- Of two different exact values the greater is not rounded to the lesser datum. -/
theorem IsNearest.mono_of_lt {x x' : Rat} {y y' : F32} (h : IsNearest x y) (h' : IsNearest x' y')
    (hy : isFinite y = true) (hy' : isFinite y' = true) (hlt : x < x') : realOf y ≤ realOf y' := by
  by_contra hgt
  have hnear := sq_le_sq.2 (h.abs_sub_le hy hy')
  have hnear' := sq_le_sq.2 (h'.abs_sub_le hy' hy)
  nlinarith

section
variable {a b a' b' : F32}

theorem realOf_ofSignMag_zero (s : Bool) : realOf (ofSignMag s 0) = 0 :=
  (realOf_eq_zero_iff _).2 ((isZero_iff _).1 (isZero_ofSignMag_zero s))

/-- The value of a sum depends on the exact sum alone. -/
theorem realOf_fadd_congr (ha : isFinite a = true) (hb : isFinite b = true) (ha' : isFinite a' = true)
    (hb' : isFinite b' = true) (h : realOf a + realOf b = realOf a' + realOf b') :
    realOf (fadd a b) = realOf (fadd a' b') := by
  have hsum : signedUnits a + signedUnits b = signedUnits a' + signedUnits b' := by
    rw [← mul_left_inj' unitsPerOne_cast_pos.ne', realOf_add_mul, realOf_add_mul] at h
    exact_mod_cast h
  rw [fadd_of_finite ha hb, fadd_of_finite ha' hb', sumSign, sumSign, hsum]
  split
  next hzero => rw [hzero, Int.natAbs_zero, roundUnits_zero, realOf_ofSignMag_zero, realOf_ofSignMag_zero]
  next => rfl

theorem realOf_fadd_mono (ha : isFinite a = true) (hb : isFinite b = true) (ha' : isFinite a' = true)
    (hb' : isFinite b' = true) (hfin : isFinite (fadd a b) = true) (hfin' : isFinite (fadd a' b') = true)
    (h : realOf a + realOf b ≤ realOf a' + realOf b') : realOf (fadd a b) ≤ realOf (fadd a' b') := by
  rcases h.lt_or_eq with hlt | heq
  · exact (fadd_isNearest ha hb).mono_of_lt (fadd_isNearest ha' hb') hfin hfin' hlt
  · exact (realOf_fadd_congr ha hb ha' hb' heq).le

/-- A sum keeps to the side of a small integer on which the exact sum lies. -/
theorem intCast_le_realOf_fadd {k : Int} (hk : k.natAbs ≤ 2 ^ 24) (hfin : isFinite (fadd a b) = true)
    (h : (k : Rat) ≤ realOf a + realOf b) : (k : Rat) ≤ realOf (fadd a b) := by
  obtain ⟨ha, hb⟩ := isFinite_of_isFinite_fadd hfin
  obtain ⟨hkfin, hkval⟩ := i2f_small k hk
  rw [← hkval] at h ⊢
  exact (fadd_isNearest ha hb).ge_of_ge hfin hkfin h

theorem realOf_fadd_le_intCast {k : Int} (hk : k.natAbs ≤ 2 ^ 24) (hfin : isFinite (fadd a b) = true)
    (h : realOf a + realOf b ≤ (k : Rat)) : realOf (fadd a b) ≤ (k : Rat) := by
  obtain ⟨ha, hb⟩ := isFinite_of_isFinite_fadd hfin
  obtain ⟨hkfin, hkval⟩ := i2f_small k hk
  rw [← hkval] at h ⊢
  exact (fadd_isNearest ha hb).le_of_le hfin hkfin h

theorem realOf_fmul_nonneg (ha : isFinite a = true) (hb : isFinite b = true) (ha0 : 0 ≤ realOf a) (hb0 : 0 ≤ realOf b)
    (hfin : isFinite (fmul a b) = true) : 0 ≤ realOf (fmul a b) := by
  have hzero : isFinite fzero = true := by decide
  simpa only [realOf_fzero] using
    (fmul_isNearest ha hb).ge_of_ge hfin hzero (by rw [realOf_fzero]; exact mul_nonneg ha0 hb0)

/-- A factor in `[-1, 1]` gives a product no greater in magnitude. -/
theorem abs_realOf_fmul_le (ha : isFinite a = true) (hb : isFinite b = true) (hbound : |realOf a| < overflowBound)
    (ha0 : 0 ≤ realOf a) (hb1 : |realOf b| ≤ 1) :
    isFinite (fmul a b) = true ∧ |realOf (fmul a b)| ≤ realOf a := by
  have hnear := fmul_isNearest ha hb
  obtain ⟨hlow, hhigh⟩ := abs_le.1 hb1
  have hle : realOf a * realOf b ≤ realOf a := mul_le_of_le_one_right ha0 hhigh
  have hge : -realOf a ≤ realOf a * realOf b := by nlinarith
  have hfin : isFinite (fmul a b) = true :=
    hnear.isFinite_of_lt ((abs_le.2 ⟨hge, hle⟩).trans_lt (abs_of_nonneg ha0 ▸ hbound))
  have hneg := hnear.ge_of_ge hfin (z := fneg a) (by rwa [isFinite_fneg]) (by rwa [realOf_fneg])
  rw [realOf_fneg] at hneg
  exact ⟨hfin, abs_le.2 ⟨hneg, hnear.le_of_le hfin ha hle⟩⟩

end

/-! ### The base delay is an integer (40_numerics.md R100) -/

theorem isFinite_canonNan : isFinite Config.canonNan = false := by
  rw [← Bool.not_eq_true, isFinite_iff_not_special, isNaN_canonNan]
  simp

theorem isFinite_of_isFinite_fround {a : F32} (h : isFinite (fround a) = true) : isFinite a = true := by
  rw [isFinite_iff_not_special]
  unfold fround at h
  split_ifs at h with hnan hinf
  · simp [isFinite_canonNan] at h
  · simp [isInf_of_isFinite h] at hinf
  · simp [hnan, hinf]

/-- `f2n` of a rounded datum is its value, where that is at least 1. -/
theorem f2n_fround_iff {a : F32} (h : isFinite (fround a) = true) (d : Nat) :
    d = f2n (fround a) ∧ 1 ≤ d ↔ 1 ≤ realOf (fround a) ∧ (d : Rat) = realOf (fround a) := by
  obtain ⟨-, -, habs⟩ := froundHalvesAway.1 a (isFinite_of_isFinite_fround h)
  rw [f2n, floorInt_eq_floor]
  constructor
  · rintro ⟨rfl, hd⟩
    have hfloor : 1 ≤ ⌊realOf (fround a)⌋ := by omega
    have hge : 1 ≤ realOf (fround a) := by exact_mod_cast Int.le_floor.1 hfloor
    rw [abs_of_nonneg (by linarith)] at habs
    refine ⟨hge, ?_⟩
    rw [habs, Int.floor_intCast] at *
    exact_mod_cast Int.toNat_of_nonneg (by omega)
  · rintro ⟨hge, hval⟩
    rw [← hval, Int.floor_natCast, Int.toNat_natCast]
    exact ⟨rfl, by rw [← hval] at hge; exact_mod_cast hge⟩

/-! ### What the sizing computes -/

theorem engineSize_eq_some_iff (capMax : Nat) (sr depth base : F32) (d n : Nat) :
    engineSize capMax sr depth base = some (d, n) ↔
      isFinite (baseSamples sr base) = true ∧ (d = f2n (baseSamples sr base) ∧ 1 ≤ d) ∧
      isFinite (fadd (baseSamples sr base) (fmul depth (baseSamples sr base))) = true ∧
      ⌈realOf (fmul depth (baseSamples sr base))⌉ ≤ (d : Int) - 1 ∧
      n = ⌈realOf (fadd (baseSamples sr base) (fmul depth (baseSamples sr base)))⌉.toNat + 2 ∧ n ≤ capMax := by
  simp only [← ceilInt_eq_ceil]
  constructor
  · intro h
    obtain ⟨hdn, hd, h1, hm, hds, hn, hle⟩ := engineSize_eq_some capMax sr depth base d n h
    exact ⟨hdn, ⟨hd, h1⟩, hm, hds, hn, hle⟩
  · rintro ⟨hdn, ⟨rfl, h1⟩, hm, hds, rfl, hle⟩
    simp only [engineSize]
    rw [if_neg (by simp [hdn]), if_neg (by omega), if_neg (by simp [hm]), if_neg (by omega)]
    exact (if_neg (Nat.not_lt.2 hle)).trans rfl

/-- An infinite depth would make the excursion infinite. -/
theorem depth_of_finite_excursion {depth dn : F32} (hdepth : nonNegative depth = true) (hdn : isFinite dn = true)
    (h1 : 1 ≤ realOf dn) (hds : isFinite (fmul depth dn) = true) : isFinite depth = true ∧ 0 ≤ realOf depth := by
  obtain ⟨-, -, -, -, hnonneg, -⟩ := comparisonsAreNumeric
  rcases (hnonneg depth).1 hdepth with rfl | h
  · have hne : isZero dn = false := by
      rw [← Bool.not_eq_true, isZero_iff, ← realOf_eq_zero_iff]
      exact (zero_lt_one.trans_le h1).ne'
    have hinf := (fmul_inf (i := 0x7F800000#32) (by decide) (isNaN_of_isFinite hdn) hne).1
    exact absurd ((isInf_of_isFinite hds).symm.trans hinf) Bool.false_ne_true
  · exact h

/-- Settles O45: the base delay is an integer (`f2n_fround_iff`), and no term of the greatest offset is negative. -/
theorem sizingComputes : Obligations.SizingComputes := by
  intro capMax sr depth base d n hdepth dn ds m
  refine (engineSize_eq_some_iff capMax sr depth base d n).trans ?_
  refine and_congr_right fun hdn => (and_congr_left fun _ => f2n_fround_iff hdn d).trans ?_
  rw [and_assoc]
  refine and_congr_right fun h1 => and_congr_right fun _ => and_congr_right fun hm => and_congr_right fun _ => ?_
  obtain ⟨-, hds⟩ := isFinite_of_isFinite_fadd hm
  obtain ⟨hfin, hdepth0⟩ := depth_of_finite_excursion hdepth hdn h1 hds
  have hdn0 : 0 ≤ realOf dn := zero_le_one.trans h1
  have hds0 := realOf_fmul_nonneg hfin hdn hdepth0 hdn0 hds
  have hceil : 0 ≤ ⌈realOf m⌉ := Int.ceil_nonneg (realOf_fadd_nonneg hdn0 hds0 hm)
  refine and_congr_left fun _ => ?_
  change n = ⌈realOf m⌉.toNat + 2 ↔ _
  omega

/-! ### Offsets (R178, R179) -/

/-- What a sizing that succeeds says of the base delay `dn` and the excursion `ds` (R171), in real numbers. -/
structure Sized (dn ds : F32) (d n : Nat) : Prop where
  value : realOf dn = d
  excursion_nonneg : 0 ≤ realOf ds
  excursion_le : ⌈realOf ds⌉ ≤ (d : Int) - 1
  finite : isFinite (fadd dn ds) = true
  capacity : (n : Int) = ⌈realOf (fadd dn ds)⌉ + 2
  capacity_le : n ≤ 2 ^ 24

theorem sized_of_engineSize {capMax : Nat} {sr depth base : F32} {d n : Nat} (hcap : capMax ≤ 2 ^ 24)
    (hdepth : nonNegative depth = true) (h : engineSize capMax sr depth base = some (d, n)) :
    Sized (baseSamples sr base) (fmul depth (baseSamples sr base)) d n := by
  obtain ⟨hdn, h1, hval, hm, hds, hn, hle⟩ := (sizingComputes capMax sr depth base d n hdepth).1 h
  obtain ⟨-, hdsfin⟩ := isFinite_of_isFinite_fadd hm
  obtain ⟨hfin, hdepth0⟩ := depth_of_finite_excursion hdepth hdn h1 hdsfin
  have hds0 := realOf_fmul_nonneg hfin hdn hdepth0 (zero_le_one.trans h1) hdsfin
  exact ⟨hval.symm, hds0, hds, hm, hn, hle.trans hcap⟩

/-- An offset below `N - 1` is in range (R179). -/
theorem offsetOutOfRange_of_lt {o : F32} {n : Nat} (hfin : isFinite o = true) (h0 : 0 ≤ realOf o)
    (hlt : realOf o < (n - 1 : Nat)) (hn : n - 1 ≤ 2 ^ 24) : offsetOutOfRange o n = false := by
  obtain ⟨-, hval⟩ := i2f_small (n - 1 : Nat) (by simpa using hn)
  have hneg : ¬ flt o fzero = true := fun h => by
    obtain ⟨-, -, h⟩ := flt_iff.1 h
    rw [realOf_fzero] at h
    linarith
  have hhigh : ¬ fge o (u2f (n - 1)) = true := fun h => by
    obtain ⟨-, -, h⟩ := fge_iff.1 h
    rw [u2f_eq_i2f, hval, Int.cast_natCast] at h
    linarith
  simp [offsetOutOfRange, isNaN_of_isFinite hfin, hneg, hhigh]

namespace Sized

variable {dn ds p : F32} {d n : Nat}

/-- With the excursion rounded up, the offset still has 24 significant bits. -/
theorem base_add_ceil_le (h : Sized dn ds d n) : (d : Int) + ⌈realOf ds⌉ ≤ 2 ^ 24 - 1 := by
  have hsum : realOf dn + realOf ds ≤ ((2 ^ 24 - 1 : Int) : Rat) := by
    by_contra hgt
    have hge := Int.le_ceil_iff.2 ((sub_one_lt _).trans_le
      (intCast_le_realOf_fadd (by norm_num) h.finite (not_le.1 hgt).le))
    have hcap := h.capacity
    have hle := h.capacity_le
    omega
  rw [h.value] at hsum
  have hceil : ⌈realOf ds⌉ ≤ 2 ^ 24 - 1 - (d : Int) := Int.ceil_le.2 (by push_cast at hsum ⊢; linarith)
  omega

theorem base_add_ceil_lt_capacity (h : Sized dn ds d n) : (d : Int) + ⌈realOf ds⌉ < n := by
  have hle := h.base_add_ceil_le
  have hnonneg : 0 ≤ ⌈realOf ds⌉ := Int.ceil_nonneg h.excursion_nonneg
  have hsum : (((d : Int) + ⌈realOf ds⌉ - 1 : Int) : Rat) ≤ realOf dn + realOf ds := by
    have := Int.ceil_lt_add_one (realOf ds)
    rw [h.value]
    push_cast
    linarith
  have hceil := Int.le_ceil_iff.2 ((sub_one_lt _).trans_le (intCast_le_realOf_fadd (by omega) h.finite hsum))
  have hcap := h.capacity
  omega

/-- Every offset whose modulation `p` stays within the excursion lies between the integers around the excursion, and is not
above the largest offset (R187). -/
theorem offset_bounds (h : Sized dn ds d n) (hp : isFinite p = true) (hle : |realOf p| ≤ realOf ds) :
    isFinite (fadd dn p) = true ∧ (d : Int) - ⌈realOf ds⌉ ≤ ⌊realOf (fadd dn p)⌋ ∧
    ⌈realOf (fadd dn p)⌉ ≤ (d : Int) + ⌈realOf ds⌉ ∧ ⌈realOf (fadd dn p)⌉ ≤ (n : Int) - 2 := by
  obtain ⟨hdn, hds⟩ := isFinite_of_isFinite_fadd h.finite
  obtain ⟨hlow, hhigh⟩ := abs_le.1 hle
  have hceil := Int.le_ceil (realOf ds)
  have hsmall := h.base_add_ceil_le
  have hexcursion := h.excursion_le
  have hmin : (((d : Int) - ⌈realOf ds⌉ : Int) : Rat) ≤ realOf dn + realOf p := by
    rw [h.value]; push_cast; linarith
  have hmax : realOf dn + realOf p ≤ (((d : Int) + ⌈realOf ds⌉ : Int) : Rat) := by
    rw [h.value]; push_cast; linarith
  have hfin : isFinite (fadd dn p) = true := by
    refine (fadd_isNearest hdn hp).isFinite_of_lt (abs_lt.2 ⟨?_, ?_⟩)
    · have : (0 : Rat) ≤ (((d : Int) - ⌈realOf ds⌉ : Int) : Rat) := Int.cast_nonneg (by omega)
      norm_num [overflowBound]
      linarith
    · have : (((d : Int) + ⌈realOf ds⌉ : Int) : Rat) ≤ ((2 ^ 24 - 1 : Int) : Rat) := Int.cast_le.2 hsmall
      refine (hmax.trans this).trans_lt ?_
      norm_num [overflowBound]
  have hnonneg : 0 ≤ ⌈realOf ds⌉ := Int.ceil_nonneg h.excursion_nonneg
  refine ⟨hfin, Int.le_floor.2 (intCast_le_realOf_fadd (by omega) hfin hmin),
    Int.ceil_le.2 (realOf_fadd_le_intCast (by omega) hfin hmax), ?_⟩
  have hmono := Int.ceil_mono (realOf_fadd_mono hdn hp hdn hds hfin h.finite (by linarith))
  have hcap := h.capacity
  omega

end Sized

/-- Settles O56: the modulation stays within the excursion (`abs_realOf_fmul_le`), so the offset stays within the bounds of the
sizing (`Sized.offset_bounds`). -/
theorem sizingInvariant : Obligations.SizingInvariant := by
  intro capMax e d n osc hcap hdepth hsize hosc hlow hhigh off ds
  have hsized := sized_of_engineSize hcap hdepth hsize
  have hexcursion : ⌈realOf ds⌉ ≤ (d : Int) - 1 := hsized.excursion_le
  have hseam : (d : Int) + ⌈realOf ds⌉ < n := hsized.base_add_ceil_lt_capacity
  have hsmall : (d : Int) + ⌈realOf ds⌉ ≤ 2 ^ 24 - 1 := hsized.base_add_ceil_le
  have hds0 : 0 ≤ realOf ds := hsized.excursion_nonneg
  have hdsfin : isFinite ds = true := (isFinite_of_isFinite_fadd hsized.finite).2
  have hbound : |realOf ds| < overflowBound := by
    have hle : realOf ds ≤ ((2 ^ 24 - 1 : Int) : Rat) := Int.ceil_le.1 (by omega)
    rw [abs_of_nonneg hds0]
    norm_num [overflowBound] at hle ⊢
    linarith
  obtain ⟨hp, hple⟩ := abs_realOf_fmul_le hdsfin hosc hbound hds0 (abs_le.2 ⟨hlow, hhigh⟩)
  obtain ⟨hfin, hfloor, hceil, hceilN⟩ : isFinite off = true ∧ (d : Int) - ⌈realOf ds⌉ ≤ ⌊realOf off⌋ ∧
      ⌈realOf off⌉ ≤ (d : Int) + ⌈realOf ds⌉ ∧ ⌈realOf off⌉ ≤ (n : Int) - 2 := hsized.offset_bounds hp hple
  have hrange : offsetOutOfRange off n = false := by
    have hn := hsized.capacity_le
    have hlt : ⌈realOf off⌉ < ((n - 1 : Nat) : Int) := by omega
    have h0 : 0 ≤ ⌊realOf off⌋ := by omega
    refine offsetOutOfRange_of_lt hfin (Int.floor_nonneg.1 h0) ?_ (by omega)
    calc realOf off ≤ ⌈realOf off⌉ := Int.le_ceil _
      _ < ((n - 1 : Nat) : Int) := Int.cast_lt.2 hlt
      _ = (n - 1 : Nat) := Int.cast_natCast _
  exact ⟨hfin, by omega, hfloor, hceilN, by omega, by omega, hrange⟩

end Sys2Proof.Machine
end

section
/-! `ENG_PROC` (43_engine.md R176 to R179, R182): how a block ends with what its loop gave, and a block in two parts. -/

namespace Sys2Proof.Machine

/-! ### How a block ends -/

/-- The end of `ENG_PROC`, by what its loop gave (R176, R179). -/
def BlockOutcome.result (s : State) : BlockOutcome → Result
  | .outputs ys v => respond ys (s.setAll v.dl v.lfo v.eng)
  | .outOfRange ys => takeFault ys s
  | .bounds => .fault .storeBounds

section
variable {s t : State} {v : Voice} {xs ys : List F32}

theorem exec_engProc (h : s.Runs v) (xs : List F32) : exec (.engProc xs) s = (runBlock xs v).result s := by
  rw [exec, execEngProc, onEng_withOwned h]
  cases runBlock xs v <;> rfl

theorem setAll_of_runs (h : s.Runs v) : s.setAll v.dl v.lfo v.eng = s := by
  rw [State.setAll, ← h.line, ← h.oscillator, ← h.engine]

/-- An answered block ran on an engine with its leaves, or every block is refused alike (R190). -/
theorem runs_or_refused (h : exec (.engProc xs) s = .next t) :
    (∃ v, s.Runs v) ∨ ∃ st, st ≠ .ok ∧ ∀ zs, exec (.engProc zs) s = refuse st s := by
  cases hf : s.regs.fault with
  | true => exact .inr ⟨.faulted, by decide, fun zs => unlessFaulted_refuses s _ hf⟩
  | false =>
    cases he : s.regs.eng with
    | none =>
      refine .inr ⟨.notConstructed, by decide, fun zs => ?_⟩
      rw [exec, execEngProc, onEng, unlessFaulted_pass s _ hf, withEng, he]
    | some e =>
      rw [exec, execEngProc, onEng_pass s _ e hf he] at h
      obtain ⟨d, o, hd, ho, -⟩ := withOwned_next s t _ h
      exact .inl ⟨⟨d, o, e⟩, hf, hd, ho, he⟩

/-- A refusal carries no result word and its status is not `OK` (60_exceptions.md R214, R218). -/
theorem rsp_of_refuse {st : Status} (h : refuse st s = .next t) : t.rsp = [statusWord st 0#8] := by
  obtain rfl := (refuse_eq_next st s t).1 h
  rfl

end

/-! ### A block in two parts (R182) -/

/-- Outputs put before what the rest of the block gives. -/
def BlockOutcome.prepend (ys : List F32) : BlockOutcome → BlockOutcome
  | .outputs zs v => .outputs (ys ++ zs) v
  | .outOfRange zs => .outOfRange (ys ++ zs)
  | .bounds => .bounds

@[simp] theorem BlockOutcome.prepend_nil (b : BlockOutcome) : b.prepend [] = b := by cases b <;> rfl

@[simp] theorem BlockOutcome.cons_prepend (y : F32) (ys : List F32) (b : BlockOutcome) :
    (b.prepend ys).cons y = b.prepend (y :: ys) := by cases b <;> rfl

/-- What a block gives when the rest of it is run from where it ended. -/
def BlockOutcome.andThen : BlockOutcome → (Voice → BlockOutcome) → BlockOutcome
  | .outputs ys v, rest => (rest v).prepend ys
  | .outOfRange ys, _ => .outOfRange ys
  | .bounds, _ => .bounds

theorem BlockOutcome.cons_andThen (y : F32) (b : BlockOutcome) (rest : Voice → BlockOutcome) :
    (b.cons y).andThen rest = (b.andThen rest).cons y := by
  cases b with
  | outputs ys v => exact ((rest v).cons_prepend y ys).symm
  | outOfRange ys => rfl
  | bounds => rfl

theorem runBlock_append (xs ys : List F32) (v : Voice) : runBlock (xs ++ ys) v = (runBlock xs v).andThen (runBlock ys) := by
  induction xs generalizing v with
  | nil => exact (BlockOutcome.prepend_nil _).symm
  | cons x xs ih =>
    rw [List.cons_append, runBlock, runBlock]
    cases sampleStep x v with
    | outOfRange => rfl
    | bounds => rfl
    | output y v' => exact (congrArg (BlockOutcome.cons y) (ih v')).trans (BlockOutcome.cons_andThen y _ _).symm

section
variable {s u : State} {v : Voice}

/-- A fault leaves values that do not depend on what the components held (60_exceptions.md R217). -/
theorem faulted_setAll (h : s.Runs v) (d : DelayLine) (o : Oscillator) (e : Engine) (capMax k : Nat) :
    (s.setAll d o e).regs.faulted capMax k = s.regs.faulted capMax k := by
  simp [Regs.faulted, h.line, h.oscillator, h.engine]

/-- The second part ends as the whole block does, but for the outputs before it. -/
theorem result_prepend {v' : Voice} {ys rsp : List F32} {b : BlockOutcome} (h : s.Runs v)
    (hend : b.result { s.setAll v'.dl v'.lfo v'.eng with rsp := rsp } = .next u) :
    (b.prepend ys).result s = .next { u with rsp := ys ++ u.rsp } := by
  cases b with
  | outputs zs w =>
    obtain rfl := (respond_eq_next _ _ u).1 hend
    exact (respond_eq_next _ _ _).2 (by simp [responseFrame, State.setAll])
  | outOfRange zs =>
    obtain rfl := (takeFault_eq_next _ _ u).1 hend
    exact (takeFault_eq_next _ _ _).2 (by simp [responseFrame, faulted_setAll h])
  | bounds => exact absurd hend (by simp [BlockOutcome.result])

end

/-- Settles O53: the loop over the whole block is the loop over the second part from where the first ended
(`runBlock_append`), and a first part that faults is all of the block that runs. -/
theorem blockSizeInvariance : Obligations.BlockSizeInvariance := by
  intro s t xs ys h
  rcases runs_or_refused h with ⟨v, hruns⟩ | ⟨st, hst, hrefused⟩
  · rw [exec_engProc hruns] at h ⊢
    rw [runBlock_append]
    cases hrun : runBlock xs v with
    | outputs zs v' =>
      rw [hrun] at h
      obtain rfl := (respond_eq_next _ _ t).1 h
      have hok : lastWord (responseFrame zs .ok 0#8) = 0x00000000#32 := lastWord_responseFrame zs .ok 0#8
      refine ⟨fun _ u hu => ?_, fun hne => absurd hok hne⟩
      have hruns' : State.Runs { s.setAll v'.dl v'.lfo v'.eng with rsp := responseFrame zs .ok 0#8 } v' :=
        ⟨hruns.unfaulted, rfl, rfl, rfl⟩
      rw [exec_engProc hruns'] at hu
      have hdrop : (responseFrame zs .ok 0#8).dropLast = zs := List.dropLast_concat
      rw [hdrop]
      exact result_prepend hruns hu
    | outOfRange zs =>
      rw [hrun] at h
      exact ⟨fun hok => absurd (status_of_answer_ok h hok) (by decide), fun _ => h⟩
    | bounds =>
      rw [hrun] at h
      exact absurd h (by simp [BlockOutcome.result])
  · rw [hrefused] at h ⊢
    exact ⟨fun hok => absurd (status_of_answer_ok h hok) hst, fun _ => h⟩

/-! ### One sample (R177 to R179) -/

theorem offsetOutOfRange_iff (o : F32) (n : Nat) :
    offsetOutOfRange o n = true ↔ isNaN o = true ∨ flt o fzero = true ∨ fge o (u2f (n - 1)) = true := by
  simp [offsetOutOfRange, or_assoc]

/-- An offset in range is not negative; it is finite, since no conversion exceeds `+Inf`. -/
theorem finite_nonneg_of_inRange {o : F32} {n : Nat} (h : offsetOutOfRange o n = false) :
    isFinite o = true ∧ 0 ≤ realOf o := by
  rw [← Bool.not_eq_true, offsetOutOfRange_iff, not_or, not_or, Bool.not_eq_true] at h
  obtain ⟨hnan, hneg, hhigh⟩ := h
  have h0 : 0 ≤ realOf o := by
    simpa [flt_iff, hnan, isNaN_fzero, realOf_fzero] using hneg
  refine ⟨(isFinite_iff_not_special o).2 ⟨hnan, ?_⟩, h0⟩
  by_contra hinf
  rw [Bool.not_eq_false, isInf_iff] at hinf
  have hround := roundUnits_le_inf ((n - 1) * unitsPerOne) 1
  have hmag : magBits (u2f (n - 1)) = roundUnits ((n - 1) * unitsPerOne) 1 :=
    magBits_ofSignMag _ _ (hround.trans_lt (by decide))
  have hu2f : isNaN (u2f (n - 1)) = false := by
    rw [← Bool.not_eq_true, isNaN_iff, hmag]
    exact hround.not_gt
  have hsign : signBit o = false := by
    rw [signBit_eq_false_iff_of_nonneg h0]
    rintro rfl
    exact absurd hinf (by decide)
  refine hhigh (fge_iff.2 ⟨hnan, hu2f, orderKey_le_iff.1 ?_⟩)
  have hpos : signBit (u2f (n - 1)) = false := signBit_ofSignMag _ _
  simp only [orderKey, hsign, hpos, Bool.false_eq_true, if_false, hinf, hmag]
  exact_mod_cast hround

/-- The offset in range is not negative, so its taps are natural offsets from the read cursor (R177). -/
theorem runBlock_singleton {d : DelayLine} {o : Oscillator} {e : Engine} {off : F32} (x : F32)
    (hoff : e.offset o.value = off) (hr : offsetOutOfRange off d.n = false) (hw : d.w < d.n) :
    runBlock [x] ⟨d, o, e⟩ =
      .outputs [interp (d.buf.read ((d.r + ⌊realOf off⌋.toNat) % d.n)) (d.buf.read ((d.r + ⌈realOf off⌉.toNat) % d.n))
          (frac off)]
        ⟨(d.put x).advanceWrite.advanceRead, o.advance, e.tick⟩ := by
  subst hoff
  obtain ⟨-, h0⟩ := finite_nonneg_of_inRange hr
  rw [← slot_of_nonneg d (Int.floor_nonneg.2 h0), ← slot_of_nonneg d (Int.ceil_nonneg h0), ← floorInt_eq_floor,
    ← ceilInt_eq_ceil, runBlock_cons_output x _ [] _ _ (sampleStep_of_inRange x ⟨d, o, e⟩ hr hw)]
  rfl

/-- Settles O50: the offset is in range, and what the step stores is `DelayLine.put` at the write cursor. -/
theorem engProcOneSample : Obligations.EngProcOneSample := by
  intro s d o e x hf hd ho he hw hwf dn off hnan hneg hhigh
  have hrange : offsetOutOfRange off d.n = false := by
    rw [← Bool.not_eq_true, offsetOutOfRange_iff, hnan, hhigh]
    exact not_or.2 ⟨Bool.false_ne_true, not_or.2 ⟨ne_true_of_eq_false hneg, Bool.false_ne_true⟩⟩
  have hexec := exec_engProc (v := ⟨d, o, e⟩) ⟨hf, hd, ho, he⟩ [x]
  rw [runBlock_singleton x (off := off) rfl hrange hw] at hexec
  exact ⟨_, (d.put x).advanceWrite.advanceRead, hexec, rfl, rfl, rfl, rfl, read_put_same x hwf,
    fun a ha => read_put_other x ha⟩

/-- Settles O51: the loop of an empty block changes no register; a first sample out of range is a fault before any output. -/
theorem engProcEmptyOrFaults : Obligations.EngProcEmptyOrFaults := by
  intro s d o e hf hd ho he
  have hruns : s.Runs ⟨d, o, e⟩ := ⟨hf, hd, ho, he⟩
  constructor
  · rw [exec_engProc hruns, runBlock_nil, BlockOutcome.result, setAll_of_runs hruns, respond_eq]
    rfl
  · intro x xs dn off hbad
    have hstep : sampleStep x ⟨d, o, e⟩ = .outOfRange :=
      (sampleStep_outOfRange x ⟨d, o, e⟩).2 ((offsetOutOfRange_iff off d.n).2 hbad)
    have hexec : exec (.engProc (x :: xs)) s = takeFault [] s := by
      rw [exec_engProc hruns, runBlock_cons_outOfRange x xs _ hstep, BlockOutcome.result]
    refine ⟨_, hexec, rfl, rfl, ?_, ?_, ?_, rfl, rfl⟩
    · simp [faulted_dl, hd]
    · simp [faulted_lfo, ho]
    · simp [faulted_eng, he]

end Sys2Proof.Machine
end

section
/-! Silence (43_engine.md R183): what the words of the store and the inputs have in common and interpolation keeps, the outputs
have too; the zeros are such words. -/

namespace Sys2Proof.Machine

/-! ### What interpolation keeps -/

/-- A property of words that interpolation at a fraction in `[0, 1)` keeps (40_numerics.md R108). -/
def InterpKeeps (P : F32 → Prop) : Prop :=
  ∀ l r fr, P l → P r → isFinite fr = true → 0 ≤ realOf fr → realOf fr < 1 → P (interp l r fr)

/-- The outputs delivered before a block ended (R176, R179). -/
def BlockOutcome.delivered : BlockOutcome → List F32
  | .outputs ys _ => ys
  | .outOfRange ys => ys
  | .bounds => []

theorem BlockOutcome.mem_delivered_cons {y z : F32} {b : BlockOutcome} (h : z ∈ (b.cons y).delivered) :
    z = y ∨ z ∈ b.delivered := by
  cases b with
  | outputs ys v => exact List.mem_cons.1 h
  | outOfRange ys => exact List.mem_cons.1 h
  | bounds => exact .inr h

/-- The result words of an answered block are the outputs delivered. -/
theorem dropLast_rsp_of_result {b : BlockOutcome} {s t : State} (h : b.result s = .next t) :
    t.rsp.dropLast = b.delivered := by
  cases b with
  | outputs ys v =>
    obtain rfl := (respond_eq_next _ _ t).1 h
    exact List.dropLast_concat
  | outOfRange ys =>
    obtain rfl := (takeFault_eq_next _ _ t).1 h
    exact List.dropLast_concat
  | bounds => exact absurd h (by simp [BlockOutcome.result])

section
variable {P : F32 → Prop} {x y : F32} {v v' : Voice}

/-- The output of a sample step is interpolated at the fractional part of an offset in range. -/
theorem InterpKeeps.output (hP : InterpKeeps P) (hstep : sampleStep x v = .output y v')
    (hread : ∀ a, P (v.dl.buf.read a)) : P y := by
  obtain ⟨hr, hget, hw, -⟩ := sampleStep_output x y v v' hstep
  obtain ⟨hfin, h0⟩ := finite_nonneg_of_inRange hr
  obtain ⟨hfrac, hval⟩ := frac_exact hfin h0
  have hlow := Int.floor_le (realOf (v.eng.offset v.lfo.value))
  have hhigh := Int.lt_floor_add_one (realOf (v.eng.offset v.lfo.value))
  rw [getf_eq v.dl _ (by omega)] at hget
  obtain rfl := Option.some.inj hget
  exact hP _ _ _ (hread _) (hread _) hfrac (by linarith) (by linarith)

theorem read_after_sampleStep (hstep : sampleStep x v = .output y v') (hwf : v.dl.buf.wf) (hx : P x)
    (hread : ∀ a, P (v.dl.buf.read a)) : v'.dl.buf.wf ∧ ∀ a, P (v'.dl.buf.read a) := by
  obtain ⟨-, -, -, rfl⟩ := sampleStep_output x y v v' hstep
  refine ⟨write_wf _ _ _ hwf, fun a => ?_⟩
  by_cases ha : a = v.dl.w
  · rw [ha, read_write_same _ _ _ hwf]
    exact hx
  · rw [read_write_other _ _ _ _ ha]
    exact hread a

theorem InterpKeeps.delivered (hP : InterpKeeps P) (xs : List F32) (v : Voice) (hwf : v.dl.buf.wf)
    (hread : ∀ a, P (v.dl.buf.read a)) (hxs : ∀ x ∈ xs, P x) : ∀ y ∈ (runBlock xs v).delivered, P y := by
  induction xs generalizing v with
  | nil => exact nofun
  | cons x xs ih =>
    intro z hz
    rw [runBlock] at hz
    split at hz
    · exact absurd hz List.not_mem_nil
    · exact absurd hz List.not_mem_nil
    next y v' hstep =>
      rcases BlockOutcome.mem_delivered_cons hz with rfl | hz
      · exact hP.output hstep hread
      · obtain ⟨hwf', hread'⟩ := read_after_sampleStep hstep hwf (hxs x List.mem_cons_self) hread
        exact ih v' hwf' hread' (fun x' hx' => hxs x' (List.mem_cons_of_mem x hx')) z hz

end

/-! ### Zeros (40_numerics.md R91, R95) -/

section
variable {a z l r fr : F32}

theorem fmul_zero_left (hz : isZero z = true) (ha : isFinite a = true) :
    fmul z a = ofSignMag (signBit z != signBit a) 0 := by
  rw [fmul_of_finite (isFinite_of_isZero hz) ha, units_zero_of_isZero z hz, Nat.zero_mul, ← Nat.zero_mul unitsPerOne]
  exact congrArg (ofSignMag _) (roundUnits_unitsOfMag 0 unitsPerOne unitsPerOne_pos (Nat.zero_le _))

theorem fadd_zeros (p q : Bool) : fadd (ofSignMag p 0) (ofSignMag q 0) = ofSignMag (p && q) 0 := by
  cases p <;> cases q <;> decide

theorem eq_zero_of_isZero (h : isZero a = true) : a = ofSignMag (signBit a) 0 :=
  eq_ofSignMag_of_units_eq_zero ((isZero_iff a).1 h)

/-- `1 - fr` is finite for a fraction. -/
theorem isFinite_one_sub (hfin : isFinite fr = true) (h0 : 0 ≤ realOf fr) (h1 : realOf fr < 1) :
    isFinite (fsub fone fr) = true := by
  have hone : realOf fone = 1 := by decide +kernel
  refine (fadd_isNearest (by decide) (by rwa [isFinite_fneg])).isFinite_of_lt ?_
  have hbound : (1 : Rat) < overflowBound := by norm_num [overflowBound]
  rw [realOf_fneg, hone, abs_of_nonneg (by linarith)]
  linarith

/-- Between two zeros interpolation gives a zero: the left one, or past the bypass the one whose sign both products have. -/
theorem interp_zeros (hl : isZero l = true) (hr : isZero r = true) (hfin : isFinite fr = true) (h0 : 0 ≤ realOf fr)
    (h1 : realOf fr < 1) :
    interp l r fr = l ∨ ∃ p, interp l r fr = ofSignMag (p && signBit r) 0 := by
  unfold interp
  split_ifs with hbypass
  · exact .inl rfl
  · have hne : realOf fr ≠ 0 := by
      simpa [feq_iff, isNaN_of_isFinite hfin, isNaN_fzero, realOf_fzero] using hbypass
    have hsign : signBit fr = false := ((realOf_pos_iff fr).1 (lt_of_le_of_ne h0 hne.symm)).1
    rw [fmul_zero_left hl (isFinite_one_sub hfin h0 h1), fmul_zero_left hr hfin, fadd_zeros, hsign, Bool.bne_false]
    exact .inr ⟨_, rfl⟩

end

theorem interpKeeps_isZero : InterpKeeps (fun a => isZero a = true) := by
  intro l r fr hl hr hfin h0 h1
  rcases interp_zeros hl hr hfin h0 h1 with h | ⟨p, h⟩
  · exact (congrArg isZero h).trans hl
  · exact (congrArg isZero h).trans (isZero_ofSignMag_zero _)

theorem interpKeeps_fzero : InterpKeeps (fun a => a = fzero) := by
  rintro l r fr rfl rfl hfin h0 h1
  rcases interp_zeros (l := fzero) (r := fzero) (by decide) (by decide) hfin h0 h1 with h | ⟨p, h⟩
  · exact h
  · have hsign : signBit fzero = false := by decide
    rw [h, hsign, Bool.and_false]
    rfl

/-- Settles O55: interpolation keeps the zeros (`interpKeeps_isZero`) and keeps `+0.0` (`interpKeeps_fzero`). -/
theorem silencePreserved : Obligations.SilencePreserved := by
  intro s t d xs hf hd hwf h
  rcases runs_or_refused h with ⟨v, hruns⟩ | ⟨st, -, hrefused⟩
  · obtain rfl : d = v.dl := Option.some.inj (hd.symm.trans hruns.line)
    rw [exec_engProc hruns] at h
    rw [dropLast_rsp_of_result h]
    exact ⟨interpKeeps_isZero.delivered xs v hwf, interpKeeps_fzero.delivered xs v hwf⟩
  · rw [hrefused] at h
    rw [rsp_of_refuse h]
    exact ⟨fun _ _ => nofun, fun _ _ => nofun⟩

end Sys2Proof.Machine
end

section
/-! A freshly built engine (43_engine.md R181, R187): its parameters stay as built and its phase stays finite, so by the sizing
every sample step is in range; with zero depth every step reads the word `D` samples behind. -/

namespace Sys2Proof.Machine

/-! ### The phase stays finite (42_oscillator.md R156) -/

/-- The greatest finite value is half a unit in its last place below the overflow bound (40_numerics.md R91). -/
theorem abs_realOf_le_of_isFinite {a : F32} (h : isFinite a = true) : |realOf a| ≤ 2 ^ 128 - 2 ^ 104 := by
  have hmag : magBits a ≤ infBits - 1 := Nat.le_sub_one_of_lt ((isFinite_iff a).1 h)
  have hunits : units a ≤ (2 ^ 24 - 1) * 2 ^ 253 := by
    rw [units_eq_unitsOfMag, ← unitsOfMag_lastFinite]
    exact unitsOfMag_strictMono.monotone hmag
  rw [abs_realOf, div_le_iff₀ unitsPerOne_cast_pos]
  calc (units a : Rat) ≤ ((2 ^ 24 - 1) * 2 ^ 253 : Nat) := Nat.cast_le.2 hunits
    _ = (2 ^ 128 - 2 ^ 104) * unitsPerOne := by norm_num [unitsPerOne]

/-- The registers that keep the phase finite: it is below `TWO_PI` and the increment is finite. -/
structure Oscillator.Steady (o : Oscillator) : Prop where
  increment : isFinite o.increment = true
  phase : isFinite o.phase = true
  phase_lt : |realOf o.phase| < realOf Config.twoPi

theorem Oscillator.Steady.advance {o : Oscillator} (h : o.Steady) : o.advance.Steady := by
  have hsum : isFinite (fadd o.phase o.increment) = true := by
    refine (fadd_isNearest h.phase h.increment).isFinite_of_lt ((abs_add_le _ _).trans_lt ?_)
    have htwoPi : realOf Config.twoPi < 8 := by decide +kernel
    have hphase := h.phase_lt
    have hincrement := abs_realOf_le_of_isFinite h.increment
    norm_num [overflowBound] at hincrement ⊢
    linarith
  obtain ⟨hphase, hlt⟩ := fmodx_twoPi_bounded hsum
  exact ⟨h.increment, hphase, hlt⟩

theorem Oscillator.Steady.value {o : Oscillator} (h : o.Steady) :
    isFinite o.value = true ∧ -1 ≤ realOf o.value ∧ realOf o.value ≤ 1 :=
  sineProperties.1 o.phase h.phase

/-! ### The engine as built, after some samples -/

/-- Operands that `ENG_NEW` accepts and can size (R170, R171), the increment they give being finite. -/
structure Buildable (capMax : Nat) (sr mf depth base : F32) (d n : Nat) : Prop where
  capMax_le : capMax ≤ 2 ^ 24
  valid : engNewInvalid sr mf depth base = none
  size : engineSize capMax sr depth base = some (d, n)
  increment : isFinite (fdiv (fmul Config.twoPi mf) sr) = true

/-- What stays as `ENG_NEW` built it while the samples `past` are processed: the parameters of the offset, the finite phase,
and the history in the store. -/
structure Voice.Processed (sr depth base : F32) (d n : Nat) (past : List F32) (v : Voice) : Prop where
  sr_eq : v.eng.sr = sr
  depth_eq : v.eng.depth = depth
  base_eq : v.eng.base = base
  steady : v.lfo.Steady
  history : HoldsHistory (2 * d) n past v.dl

section
variable {capMax : Nat} {sr mf depth base : F32} {d n : Nat}

theorem Buildable.depth_nonneg (hb : Buildable capMax sr mf depth base d n) : nonNegative depth = true := by
  obtain ⟨-, -, h, -⟩ := engNewInvalid_eq_none sr mf depth base hb.valid
  exact h

theorem Buildable.sized (hb : Buildable capMax sr mf depth base d n) :
    Sized (baseSamples sr base) (fmul depth (baseSamples sr base)) d n :=
  sized_of_engineSize hb.capMax_le hb.depth_nonneg hb.size

theorem Buildable.base_lt_capacity (hb : Buildable capMax sr mf depth base d n) : d < n := by
  have hlt := hb.sized.base_add_ceil_lt_capacity
  have h0 : 0 ≤ ⌈realOf (fmul depth (baseSamples sr base))⌉ := Int.ceil_nonneg hb.sized.excursion_nonneg
  omega

theorem freshOscillator_steady (h : isFinite (fdiv (fmul Config.twoPi mf) sr) = true) :
    (freshOscillator sr mf Config.phase0).Steady := by
  have hfin : isFinite Config.phase0 = true := by decide
  have hlt : |realOf Config.phase0| < realOf Config.twoPi := by decide +kernel
  exact ⟨h, hfin, hlt⟩

theorem Buildable.processed_nil (hb : Buildable capMax sr mf depth base d n) :
    (freshVoice sr mf depth base d n).Processed sr depth base d n [] where
  sr_eq := rfl
  depth_eq := rfl
  base_eq := rfl
  steady := freshOscillator_steady hb.increment
  history := ownedDelayLine_holdsHistory d n

variable {past xs : List F32} {v : Voice}

/-- The oscillator's value is in `[-1, 1]`, so by the sizing the offset is finite and in range (R187). -/
theorem Voice.Processed.inRange (hb : Buildable capMax sr mf depth base d n) (h : v.Processed sr depth base d n past) :
    isFinite (v.eng.offset v.lfo.value) = true ∧ offsetOutOfRange (v.eng.offset v.lfo.value) v.dl.n = false := by
  obtain ⟨rfl, rfl, rfl, hsteady, hhistory⟩ := h
  obtain ⟨hfin, hlow, hhigh⟩ := hsteady.value
  obtain ⟨hoff, -, -, -, -, -, hrange⟩ :=
    sizingInvariant capMax v.eng d n v.lfo.value hb.capMax_le hb.depth_nonneg hb.size hfin hlow hhigh
  exact ⟨hoff, hhistory.capacity ▸ hrange⟩

theorem Voice.Processed.step (hb : Buildable capMax sr mf depth base d n) (h : v.Processed sr depth base d n past) (x : F32) :
    ∃ y v', sampleStep x v = .output y v' ∧ v.dl.getf (v.eng.offset v.lfo.value) = some y ∧
      v'.Processed sr depth base d n (past ++ [x]) := by
  have hw : v.dl.w < v.dl.n := by
    rw [h.history.writeCursor, h.history.capacity]
    exact Nat.mod_lt _ (Nat.zero_lt_of_lt hb.base_lt_capacity)
  have hstep := sampleStep_of_inRange x v (h.inRange hb).2 hw
  obtain ⟨-, hget, -, -⟩ := sampleStep_output x _ v _ hstep
  exact ⟨_, _, hstep, hget, h.sr_eq, h.depth_eq, h.base_eq, h.steady.advance, h.history.sampleStep hstep⟩

/-- A block gives one output per sample: what the engine reads after the samples before it. -/
theorem Voice.Processed.block (hb : Buildable capMax sr mf depth base d n) (h : v.Processed sr depth base d n past)
    (xs : List F32) :
    ∃ ys v', runBlock xs v = .outputs ys v' ∧ ys.length = xs.length ∧ ∀ (i : Nat) (hi : i < ys.length), ∃ w : Voice,
      w.Processed sr depth base d n (past ++ xs.take i) ∧ w.dl.getf (w.eng.offset w.lfo.value) = some ys[i] := by
  induction xs generalizing past v with
  | nil => exact ⟨[], v, rfl, rfl, nofun⟩
  | cons x xs ih =>
    obtain ⟨y, v', hstep, hget, h'⟩ := h.step hb x
    obtain ⟨ys, v'', hrun, hlen, hreads⟩ := ih h'
    refine ⟨y :: ys, v'', by rw [runBlock_cons_output x y xs v v' hstep, hrun]; rfl, by simp [hlen], fun i hi => ?_⟩
    cases i with
    | zero => exact ⟨v, by simpa using h, hget⟩
    | succ i => simpa using hreads i (Nat.lt_of_succ_lt_succ hi)

theorem Buildable.exec_engProc {s : State} (hb : Buildable s.capMax sr mf depth base d n) (hf : s.regs.fault = false)
    (xs : List F32) :
    ∃ u ys, exec (.engProc xs) (s.built sr mf depth base d n) = .next u ∧ u.rsp = ys ++ [0x00000000#32] ∧
      ys.length = xs.length ∧ ∀ (i : Nat) (hi : i < ys.length), ∃ w : Voice,
        w.Processed sr depth base d n (xs.take i) ∧ w.dl.getf (w.eng.offset w.lfo.value) = some ys[i] := by
  obtain ⟨ys, v', hrun, hlen, hreads⟩ := hb.processed_nil.block hb xs
  rw [Machine.exec_engProc (State.built_runs d n hf), hrun]
  exact ⟨_, ys, respond_eq ys _, rfl, hlen, hreads⟩

/-! ### Zero depth (R181) -/

/-- A zero added to a small integer leaves its value. -/
theorem realOf_fadd_zero {a b : F32} {k : Nat} (hk : k ≤ 2 ^ 24) (ha : realOf a = k) (hb : realOf b = 0)
    (hfin : isFinite (fadd a b) = true) : realOf (fadd a b) = k := by
  have hsum : realOf a + realOf b = ((k : Int) : Rat) := by rw [ha, hb, add_zero, Int.cast_natCast]
  have hsmall : (k : Int).natAbs ≤ 2 ^ 24 := by rwa [Int.natAbs_natCast]
  rw [← Int.cast_natCast k]
  exact le_antisymm (realOf_fadd_le_intCast hsmall hfin hsum.le) (intCast_le_realOf_fadd hsmall hfin hsum.ge)

theorem Voice.Processed.offset_of_zero_depth (hb : Buildable capMax sr mf depth base d n) (hz : isZero depth = true)
    (h : v.Processed sr depth base d n past) : realOf (v.eng.offset v.lfo.value) = d := by
  obtain ⟨hfin, -⟩ := h.inRange hb
  obtain ⟨rfl, rfl, rfl, hsteady, -⟩ := h
  obtain ⟨hdn, -⟩ := isFinite_of_isFinite_fadd hb.sized.finite
  have hds : isZero (fmul v.eng.depth (baseSamples v.eng.sr v.eng.base)) = true := by
    rw [fmul_zero_left hz hdn]
    exact isZero_ofSignMag_zero _
  have hsmall : d ≤ 2 ^ 24 := hb.base_lt_capacity.le.trans hb.sized.capacity_le
  refine realOf_fadd_zero hsmall hb.sized.value ?_ hfin
  rw [fmul_zero_left hds hsteady.value.1]
  exact realOf_ofSignMag_zero _

/-- At the integer offset `D` the engine reads the input of `D` samples ago (R47). -/
theorem Voice.Processed.getf_of_zero_depth (hb : Buildable capMax sr mf depth base d n) (hz : isZero depth = true)
    (h : v.Processed sr depth base d n past) : v.dl.getf (v.eng.offset v.lfo.value) = some (inputAt past d) := by
  have hlt := hb.base_lt_capacity
  obtain ⟨-, -, hd, -⟩ := engineSize_eq_some capMax sr depth base d n hb.size
  obtain ⟨hn, hr, hw, -, hwords⟩ := h.history
  have hslot : v.dl.slot d = (past.length + d) % n := by rw [slot_ofNat, hr, hn, Nat.mod_add_mod]
  have hbehind : ((past.length + d) % n + d) % n = v.dl.w := by
    rw [hw, Nat.mod_add_mod]
    congr 1
    omega
  have hin : (past.length + d) % n < n := Nat.mod_lt _ (by omega)
  rw [getf_of_integer v.dl (h.inRange hb).1 (h.offset_of_zero_depth hb hz), hslot, memRead_of_lt _ _ (hn ▸ hin),
    hwords _ d hin hd hlt.le hbehind]

/-- The inputs of `d` samples ago, one after another: `+0.0` until the first input is that old. -/
theorem inputAt_take_eq {ys : List F32} (d : Nat) (hd : 1 ≤ d) (hlen : ys.length = xs.length)
    (h : ∀ (i : Nat) (hi : i < ys.length), ys[i] = inputAt (xs.take i) d) :
    ys = List.replicate (min d xs.length) 0x00000000#32 ++ xs.take (xs.length - d) := by
  refine List.ext_getElem (by simp; omega) fun i hi _ => ?_
  have htake : (xs.take i).length = i := by simp; omega
  rw [h i hi, inputAt, htake]
  by_cases hle : d ≤ i
  · rw [if_pos hle, List.getElem_append_right (by simp; omega), List.getD_eq_getElem _ _ (by omega)]
    simp only [List.getElem_take, List.length_replicate]
    congr 1
    omega
  · rw [if_neg hle, List.getElem_append_left (by simp; omega), List.getElem_replicate]
    rfl

end

/-! ### The statements -/

/-- Settles O57: what `ENG_NEW` built with `OK` is `Buildable`, and each sample of the block gives an output. -/
theorem freshEngineNeverFaults : Obligations.FreshEngineNeverFaults := by
  intro s t sr mf depth base xs hf hcap hnew hok hincrement
  obtain ⟨hvalid, d, n, hsize, rfl⟩ := exec_engNew_ok hf hnew hok
  obtain ⟨u, ys, hexec, hrsp, hlen, -⟩ := Buildable.exec_engProc ⟨hcap, hvalid, hsize, hincrement⟩ hf xs
  exact ⟨u, ys, hexec, hrsp, hlen⟩

/-- Settles O54: every output is the read at the offset `D` (`Voice.Processed.getf_of_zero_depth`). -/
theorem zeroDepthIdentity : Obligations.ZeroDepthIdentity := by
  intro s t sr mf depth base d n xs hf hcap hsr hmf hdepth hbase hsize hincrement hnew
  obtain ⟨-, -, -, -, hnonneg, -⟩ := comparisonsAreNumeric
  have hdepth0 : nonNegative depth = true :=
    (hnonneg depth).2 (.inr ⟨isFinite_of_isZero hdepth, ((realOf_eq_zero_iff depth).2 ((isZero_iff depth).1 hdepth)).ge⟩)
  have hvalid : engNewInvalid sr mf depth base = none := by
    simp [engNewInvalid_eq, hsr, hmf, hdepth0, hbase]
  obtain ⟨-, -, hd, -⟩ := engineSize_eq_some s.capMax sr depth base d n hsize
  have hb : Buildable s.capMax sr mf depth base d n := ⟨hcap, hvalid, hsize, hincrement⟩
  rw [exec_engNew_of_sized hf hvalid hsize] at hnew
  obtain rfl := Host.Outcome.next.inj hnew
  obtain ⟨u, ys, hexec, hrsp, hlen, hreads⟩ := hb.exec_engProc hf xs
  have hys : ys = List.replicate (min d xs.length) 0x00000000#32 ++ xs.take (xs.length - d) := by
    refine inputAt_take_eq d hd hlen fun i hi => ?_
    obtain ⟨w, hw, hget⟩ := hreads i hi
    exact Option.some.inj (hget.symm.trans (hw.getf_of_zero_depth hb hdepth))
  exact ⟨u, hexec, hys ▸ hrsp⟩

end Sys2Proof.Machine
end

section
/-! `SYS_STATUS` (44_system.md R200): the flags word bit by bit and as a number. -/

namespace Sys2Proof.Machine

/-! ### The flags word -/

/-- The bit layout of R200. -/
theorem getLsbD_flagsWord (g : Regs) (b : Nat) :
    g.flagsWord.getLsbD b =
      if b = 3 then g.fault else if b = 2 then g.engValid else if b = 1 then g.lfoValid
      else if b = 0 then g.dlValid else false := by
  rw [Regs.flagsWord, BitVec.getLsbD_setWidth, BitVec.getLsbD_append, BitVec.getLsbD_append, BitVec.getLsbD_append]
  match b with
  | 0 | 1 | 2 | 3 | b + 4 => simp

/-- The three VALID flags are the flags word below `FAULT`. -/
theorem flagsWord_toNat_mod_eight (g : Regs) :
    g.flagsWord.toNat % 8 = 4 * g.engValid.toNat + 2 * g.lfoValid.toNat + g.dlValid.toNat := by
  have hvalue : g.flagsWord.toNat =
      8 * g.fault.toNat + 4 * g.engValid.toNat + 2 * g.lfoValid.toNat + g.dlValid.toNat := by
    rw [Regs.flagsWord, BitVec.toNat_setWidth_of_le (by decide), append_toNat, append_toNat, append_toNat]
    simp only [BitVec.toNat_ofBool]
    ring
  have heng := g.engValid.toNat_le
  have hlfo := g.lfoValid.toNat_le
  have hdl := g.dlValid.toNat_le
  omega

/-- 10_state.md R12 leaves five values of the three VALID flags: an engine has both leaves. -/
theorem flagsWord_toNat_mod_eight_of_leaves (g : Regs) (h : g.engValid = true → g.dlValid = true ∧ g.lfoValid = true) :
    g.flagsWord.toNat % 8 = 0 ∨ g.flagsWord.toNat % 8 = 1 ∨ g.flagsWord.toNat % 8 = 2 ∨ g.flagsWord.toNat % 8 = 3 ∨
      g.flagsWord.toNat % 8 = 7 := by
  rw [flagsWord_toNat_mod_eight]
  cases heng : g.engValid with
  | true =>
    obtain ⟨hdl, hlfo⟩ := h heng
    simp [hdl, hlfo]
  | false =>
    have hlfo := g.lfoValid.toNat_le
    have hdl := g.dlValid.toNat_le
    simp only [Bool.toNat_false]
    omega

/-! ### The statement -/

/-- Settles O16: the word is `Regs.flagsWord`, which `SYS_STATUS` answers past no check (60_exceptions.md R218, R219). -/
theorem sysStatusReadsFlags : Obligations.SysStatusReadsFlags := by
  refine ⟨decode_row .sysStatus .sysStatus 0#8, fun s => ⟨s.regs.flagsWord, rfl, getLsbD_flagsWord s.regs, ?_⟩⟩
  rintro ⟨-, -, -, hleaves⟩
  exact flagsWord_toNat_mod_eight_of_leaves s.regs hleaves

end Sys2Proof.Machine
end

section
/-! The steps that run no command (60_exceptions.md R213, R229; 70_reset_and_hazards.md R240 to R242): a frame that is no
command, no event, and hardware reset. -/

namespace Sys2Proof.Machine

/-- A refusal is its status word alone (60_exceptions.md R221). -/
theorem refuse_eq (st : Status) (s : State) : refuse st s = .next { s with rsp := [statusWord st 0#8] } := rfl

theorem decode_error_of_not_legalFrame {f : Frame} (h : ¬LegalFrame f) : ∃ e, decode f = .error e := by
  cases hdecode : decode f with
  | error e => exact ⟨e, rfl⟩
  | ok i => exact absurd ((decodesExactlyLegalFrames f).1 ⟨i, hdecode⟩) h

/-- Settles O6: the decoder refuses the frame, and the answer to that looks at no part of the state. -/
theorem illegalFrameAnswered : Obligations.IllegalFrameAnswered := by
  intro s f rest hinbox hlegal
  obtain ⟨e, hdecode⟩ := decode_error_of_not_legalFrame hlegal
  rw [step_of_decode_error s f rest e hinbox hdecode]
  exact refuse_eq .illegalCmd _

/-- Settles O8: the words of a response that `rst` cut short are the model's `Config.partialResponse`. -/
theorem stepWithoutCommand : Obligations.StepWithoutCommand := by
  refine ⟨fun s hinbox => ?_, fun s rest hinbox => ?_, fun s f rest hinbox => ⟨Config.partialResponse s.freeIdx, ?_⟩⟩
  · rw [step, nextEvent_nil s hinbox]
  · rw [step, nextEvent_cons s .reset rest hinbox]
    rfl
  · rw [step, nextEvent_cons s (.resetDuring f) rest hinbox]
    rfl

end Sys2Proof.Machine
end

section
/-! The common checks (60_exceptions.md R214, R215, R218, R219 steps 2 to 5): which refusal a command ends in, whatever it
would do past the checks. -/

namespace Sys2Proof.Machine

/-- `r` is what the checks of R219 steps 3 to 5 let a command end in that needs the component `need`, if any, and mutates a
leaf or not: the first check that fails refuses it. -/
structure Checked (s : State) (need : Option Component) (mutates : Bool) (r : Result) : Prop where
  faulted : s.regs.fault = true → r = refuse .faulted s
  missing : s.regs.fault = false → ∀ c, need = some c → c.valid s.regs = false → r = refuse .notConstructed s
  owned : s.regs.fault = false → (∀ c, need = some c → c.valid s.regs = true) → mutates = true →
    s.regs.engValid = true → r = refuse .owned s

section
variable {s : State}

/-! ### One check -/

theorem unlessOwned_refuses {k : Result} (h : s.regs.engValid = true) : unlessOwned s k = refuse .owned s := if_pos h

theorem withDl_refuses {k : DelayLine → Result} (h : Component.delayLine.valid s.regs = false) :
    withDl s k = refuse .notConstructed s := by
  rw [withDl, Option.not_isSome_iff_eq_none.1 (ne_true_of_eq_false h)]

theorem withLfo_refuses {k : Oscillator → Result} (h : Component.oscillator.valid s.regs = false) :
    withLfo s k = refuse .notConstructed s := by
  rw [withLfo, Option.not_isSome_iff_eq_none.1 (ne_true_of_eq_false h)]

theorem withEng_refuses {k : Engine → Result} (h : Component.engine.valid s.regs = false) :
    withEng s k = refuse .notConstructed s := by
  rw [withEng, Option.not_isSome_iff_eq_none.1 (ne_true_of_eq_false h)]

theorem withDl_of_valid (k : DelayLine → Result) (h : Component.delayLine.valid s.regs = true) :
    ∃ d, withDl s k = k d := by
  obtain ⟨d, hd⟩ := Option.isSome_iff_exists.1 h
  exact ⟨d, by rw [withDl, hd]⟩

theorem withLfo_of_valid (k : Oscillator → Result) (h : Component.oscillator.valid s.regs = true) :
    ∃ o, withLfo s k = k o := by
  obtain ⟨o, ho⟩ := Option.isSome_iff_exists.1 h
  exact ⟨o, by rw [withLfo, ho]⟩

/-! ### The checks of each kind of command -/

theorem unlessFaulted_checked {need : Option Component} {mutates : Bool} {k : Result}
    (hmissing : ∀ c, need = some c → c.valid s.regs = false → k = refuse .notConstructed s)
    (howned : (∀ c, need = some c → c.valid s.regs = true) → mutates = true → s.regs.engValid = true →
      k = refuse .owned s) : Checked s need mutates (unlessFaulted s k) where
  faulted hf := unlessFaulted_refuses s k hf
  missing hf c hneed hc := (unlessFaulted_pass s k hf).trans (hmissing c hneed hc)
  owned hf hvalid hm he := (unlessFaulted_pass s k hf).trans (howned hvalid hm he)

theorem newLeaf_checked {k : Result} : Checked s none true (newLeaf s k) :=
  unlessFaulted_checked nofun fun _ _ => unlessOwned_refuses

theorem newEngine_checked {k : Result} : Checked s none false (unlessFaulted s k) :=
  unlessFaulted_checked nofun nofun

theorem readDl_checked {k : DelayLine → Result} : Checked s (some .delayLine) false (readDl s k) :=
  unlessFaulted_checked (by rintro _ ⟨⟩ h; exact withDl_refuses h) nofun

theorem mutateDl_checked {k : DelayLine → Result} : Checked s (some .delayLine) true (mutateDl s k) :=
  unlessFaulted_checked (by rintro _ ⟨⟩ h; exact withDl_refuses h) fun hvalid _ he => by
    obtain ⟨d, hd⟩ := withDl_of_valid (fun d => unlessOwned s (k d)) (hvalid _ rfl)
    rw [hd, unlessOwned_refuses he]

theorem readLfo_checked {k : Oscillator → Result} : Checked s (some .oscillator) false (readLfo s k) :=
  unlessFaulted_checked (by rintro _ ⟨⟩ h; exact withLfo_refuses h) nofun

theorem mutateLfo_checked {k : Oscillator → Result} : Checked s (some .oscillator) true (mutateLfo s k) :=
  unlessFaulted_checked (by rintro _ ⟨⟩ h; exact withLfo_refuses h) fun hvalid _ he => by
    obtain ⟨o, ho⟩ := withLfo_of_valid (fun o => unlessOwned s (k o)) (hvalid _ rfl)
    rw [ho, unlessOwned_refuses he]

theorem onEng_checked {k : Engine → Result} : Checked s (some .engine) false (onEng s k) :=
  unlessFaulted_checked (by rintro _ ⟨⟩ h; exact withEng_refuses h) nofun

end

/-! ### Every command -/

/-- Every command but `SYS_STATUS` begins with the checks its row of R214 and R215 asks for. -/
theorem exec_checked (i : Instr) (s : State) (hi : i ≠ .sysStatus) :
    Checked s (needsComponent i) (mutatesLeaf i) (exec i s) := by
  cases i with
  | sysStatus => exact absurd rfl hi
  | dlNew | lfoNew => exact newLeaf_checked
  | dlPeek | dlGet | dlGetf | dlGetwi | dlGetri | dlLen | dlCap => exact readDl_checked
  | dlReset | dlPush | dlPop | dlPut | dlSetwi | dlSetri => exact mutateDl_checked
  | lfoGetp => exact readLfo_checked
  | lfoReset | lfoSetp | lfoAdv => exact mutateLfo_checked
  | engNew => exact newEngine_checked
  | engReset | engSetp | engGetp | engProc | engFree | engGett => exact onEng_checked

/-- Settles O13: the three refusals of `exec_checked` with their status words. -/
theorem commonChecksRefuse : Obligations.CommonChecksRefuse := by
  intro s i hi
  obtain ⟨hfaulted, hmissing, howned⟩ := exec_checked i s hi
  exact ⟨hfaulted, fun hf => ⟨hmissing hf, howned hf⟩⟩

/-! ### The sticky flag (R218) -/

theorem exec_of_fault {i : Instr} {s : State} (hi : i ≠ .sysStatus) (hf : s.regs.fault = true) :
    exec i s = refuse .faulted s :=
  (exec_checked i s hi).faulted hf

/-- No command clears `FAULT`: the refused ones change no register, and `SYS_STATUS` reads only. -/
theorem exec_keeps_fault {i : Instr} {s t : State} (hf : s.regs.fault = true) (h : exec i s = .next t) :
    t.regs.fault = true := by
  by_cases hi : i = .sysStatus
  · subst hi
    obtain rfl := (respond_eq_next _ s t).1 h
    exact hf
  · rw [exec_of_fault hi hf] at h
    obtain rfl := (refuse_eq_next _ s t).1 h
    exact hf

/-- Settles O14: of the events of a step only the two resets write the flag (`exec_keeps_fault`). -/
theorem faultedUntilReset : Obligations.FaultedUntilReset := by
  intro s hf
  refine ⟨fun i hi => exec_of_fault hi hf, ⟨s.regs.flagsWord, rfl, ?_⟩, fun t h => ?_⟩
  · rw [getLsbD_flagsWord, if_pos rfl, hf]
  · rcases step_next s t h with
      ⟨-, rfl⟩ | ⟨f, rest, i, -, -, h⟩ | ⟨f, rest, e, -, -, h⟩ | ⟨rest, hinbox, -⟩ | ⟨f, rest, hinbox, -⟩
    case inl => exact .inl hf
    case inr.inl => exact .inl (exec_keeps_fault (s := { s with inbox := rest }) hf h)
    case inr.inr.inl =>
      obtain rfl := (answerIllegal_eq_next _ t).1 h
      exact .inl hf
    case inr.inr.inr.inl => exact .inr (.inl ⟨rest, hinbox⟩)
    case inr.inr.inr.inr => exact .inr (.inr ⟨f, rest, hinbox⟩)

end Sys2Proof.Machine
end

section
/-! Rejection is atomic (60_exceptions.md R212): a command changes the state only where it ends in `OK` or `FAULT`, and what a
`SETP` wrote is what the `GETP` of its selector reads. -/

namespace Sys2Proof.Machine

/-- R212: where a command run in `s` ends in neither `OK` nor `FAULT`, nothing but the response has changed. -/
def Atomic (s : State) (r : Result) : Prop :=
  ∀ t, r = .next t → lastWord t.rsp ≠ 0x00000000#32 → lastWord t.rsp ≠ 0x00000006#32 → t = { s with rsp := t.rsp }

namespace Atomic
variable {s : State}

/-! ### How a command ends -/

theorem respond (rs : List Word) (u : State) : Atomic s (Machine.respond rs u) := by
  intro t h hok _
  obtain rfl := (respond_eq_next rs u t).1 h
  exact absurd (lastWord_responseFrame rs .ok 0#8) hok

/-- Whatever the status, an answer on the state that the command found. -/
theorem answer (rs : List Word) (st : Status) (esel : BitVec 8) : Atomic s (Machine.answer rs st esel s) := by
  intro t h _ _
  obtain rfl := (answer_eq_next rs st esel s t).1 h
  rfl

theorem refuse (st : Status) : Atomic s (Machine.refuse st s) := answer [] st 0#8

theorem rejectValue (esel : BitVec 8) (v : F32) : Atomic s (Machine.rejectValue esel v s) :=
  answer [v] .invalidValue esel

theorem takeFault (ys : List F32) : Atomic s (Machine.takeFault ys s) := by
  intro t h _ hfault
  obtain rfl := (takeFault_eq_next ys s t).1 h
  exact absurd (lastWord_responseFrame ys .fault 0#8) hfault

/-! ### The checks -/

theorem ite {c : Prop} [Decidable c] {k j : Result} (hk : Atomic s k) (hj : Atomic s j) :
    Atomic s (if c then k else j) := by
  split
  · exact hk
  · exact hj

theorem withStore {α : Type} (access : Option α) {k : α → Result} (hk : ∀ a, Atomic s (k a)) :
    Atomic s (Machine.withStore access k) := by
  intro t h
  obtain ⟨a, -, h⟩ := withStore_next access k t h
  exact hk a t h

theorem withOwned {k : DelayLine → Oscillator → Result} (hk : ∀ d o, Atomic s (k d o)) :
    Atomic s (Machine.withOwned s k) := by
  intro t h
  obtain ⟨d, o, -, -, h⟩ := withOwned_next s t k h
  exact hk d o t h

theorem unlessInvalid (bad : Option (BitVec 8 × F32)) {k : Result} (hk : Atomic s k) :
    Atomic s (Machine.unlessInvalid s bad k) := by
  cases bad with
  | none => exact hk
  | some rejected => exact rejectValue rejected.1 rejected.2

theorem newLeaf {k : Result} (hk : Atomic s k) : Atomic s (Machine.newLeaf s k) :=
  ite (refuse .faulted) (ite (refuse .owned) hk)

theorem readDl {k : DelayLine → Result} (hk : ∀ d, Atomic s (k d)) : Atomic s (Machine.readDl s k) := by
  intro t h
  rcases readDl_next s t k h with ⟨st, h⟩ | ⟨d, -, -, h⟩
  · exact refuse st t h
  · exact hk d t h

theorem mutateDl {k : DelayLine → Result} (hk : ∀ d, Atomic s (k d)) : Atomic s (Machine.mutateDl s k) :=
  readDl fun d => ite (refuse .owned) (hk d)

theorem readLfo {k : Oscillator → Result} (hk : ∀ o, Atomic s (k o)) : Atomic s (Machine.readLfo s k) := by
  intro t h
  rcases readLfo_next s t k h with ⟨st, h⟩ | ⟨o, -, -, h⟩
  · exact refuse st t h
  · exact hk o t h

theorem mutateLfo {k : Oscillator → Result} (hk : ∀ o, Atomic s (k o)) : Atomic s (Machine.mutateLfo s k) :=
  readLfo fun o => ite (refuse .owned) (hk o)

theorem onEng {k : Engine → Result} (hk : ∀ e, Atomic s (k e)) : Atomic s (Machine.onEng s k) := by
  intro t h
  rcases onEng_next s t k h with ⟨st, h⟩ | ⟨e, -, -, h⟩
  · exact refuse st t h
  · exact hk e t h

/-! ### The engine commands with endings of their own -/

/-- A stop of the model's own is no next state. -/
theorem fault (x : Fault) : Atomic s (.fault x) := nofun

theorem execEngNew (sr mf depth base : F32) : Atomic s (Machine.execEngNew sr mf depth base s) :=
  ite (refuse .faulted) <| unlessInvalid _ <| by
    split
    next => exact refuse .badSize
    next => exact respond _ _

theorem execEngReset : Atomic s (Machine.execEngReset s) :=
  onEng fun _ => withOwned fun _ _ => by
    split
    next => exact fault .sizeLost
    next => exact respond _ _

theorem execEngProc (xs : List F32) : Atomic s (Machine.execEngProc xs s) :=
  onEng fun _ => withOwned fun _ _ => by
    split
    next => exact respond _ _
    next ys _ => exact takeFault ys
    next => exact fault .storeBounds

end Atomic

/-! ### Every command -/

theorem exec_atomic (i : Instr) (s : State) : Atomic s (exec i s) := by
  cases i with
  | sysStatus => exact .respond _ _
  | dlNew => exact .newLeaf (.ite (.respond _ _) (.refuse _))
  | dlReset | dlSetwi | dlSetri => exact .mutateDl fun _ => .respond _ _
  | dlPush | dlPop | dlPut => exact .mutateDl fun _ => .withStore _ fun _ => .respond _ _
  | dlPeek | dlGet => exact .readDl fun _ => .withStore _ fun _ => .respond _ _
  | dlGetf => exact .readDl fun _ => .ite (.takeFault _) (.withStore _ fun _ => .respond _ _)
  | dlGetwi | dlGetri | dlLen | dlCap => exact .readDl fun _ => .respond _ _
  | lfoNew => exact .newLeaf (.unlessInvalid _ (.respond _ _))
  | lfoReset | lfoAdv => exact .mutateLfo fun _ => .respond _ _
  | lfoSetp => exact .mutateLfo fun _ => .ite (.respond _ _) (.rejectValue _ _)
  | lfoGetp => exact .readLfo fun _ => .respond _ _
  | engNew sr mf depth base => exact .execEngNew sr mf depth base
  | engReset => exact .execEngReset
  | engSetp => exact .onEng fun _ => .ite (.withOwned fun _ _ => .respond _ _) (.rejectValue _ _)
  | engProc xs => exact .execEngProc xs
  | engGetp | engFree | engGett => exact .onEng fun _ => .respond _ _

/-! ### `SETP`, then `GETP` -/

/-- The phase is unconstrained (30_encoding.md R66). -/
theorem lfoAccepts_iff (p : LfoParam) (v : F32) : lfoAccepts p v = true ↔ p = .phase ∨ positive v = true := by
  cases p <;> simp [lfoAccepts]

theorem engGetp_after_engSetp {s : State} {v : Voice} (p : EngParam) (value : F32) (h : s.Runs v) :
    ∃ t u, exec (.engSetp p value) s = .next t ∧ exec (.engGetp p) t = .next u ∧
      u.rsp = [if positive value = true then value else v.eng.get p, 0x00000000#32] := by
  cases hv : positive value with
  | true =>
    refine ⟨_, _, exec_engSetp_of_accepts h hv, exec_engGetp (e := v.eng.set p value) p h.unfaulted rfl, ?_⟩
    rw [eng_get_set, if_pos rfl]
  | false =>
    exact ⟨_, _, exec_engSetp_of_rejects h hv, exec_engGetp p h.unfaulted h.engine, rfl⟩

theorem lfoGetp_after_lfoSetp {s : State} {o : Oscillator} (p : LfoParam) (value : F32) (hf : s.regs.fault = false)
    (ho : s.regs.lfo = some o) (he : s.regs.eng = none) :
    ∃ t u, exec (.lfoSetp p value) s = .next t ∧ exec (.lfoGetp p) t = .next u ∧
      u.rsp = [if lfoAccepts p value = true then value else o.get p, 0x00000000#32] := by
  cases hv : lfoAccepts p value with
  | true =>
    refine ⟨_, _, exec_lfoSetp_of_accepts hv hf ho he, exec_lfoGetp (o := o.set p value) p hf rfl, ?_⟩
    rw [lfo_get_set, if_pos rfl]
  | false =>
    exact ⟨_, _, exec_lfoSetp_of_rejects hv hf ho he, exec_lfoGetp p hf ho, rfl⟩

/-- Settles O15: the first part is `exec_atomic`; the read-backs go by whether the value is accepted. -/
theorem rejectionIsAtomic : Obligations.RejectionIsAtomic := by
  refine ⟨exec_atomic, fun p value s d o e hf hd ho he => ?_, fun p value s o hf ho he => ?_⟩
  · exact engGetp_after_engSetp (v := ⟨d, o, e⟩) p value ⟨hf, hd, ho, he⟩
  · simpa only [lfoAccepts_iff] using lfoGetp_after_lfoSetp p value hf ho he

end Sys2Proof.Machine
end

section
/-! After hardware reset (70_reset_and_hazards.md R241, R243): no component is there (10_state.md R25), so the checks refuse
every command that needs one. -/

namespace Sys2Proof.Machine

@[simp] theorem reset_flagsWord : Regs.reset.flagsWord = 0x00000000#32 := by decide

@[simp] theorem reset_valid (c : Component) : c.valid Regs.reset = false := by
  cases c <;> rfl

theorem ne_sysStatus_of_needsComponent {i : Instr} {c : Component} (h : needsComponent i = some c) : i ≠ .sysStatus := by
  rintro rfl
  exact nomatch h

/-- Settles O9: with the reset registers `FAULT` is 0 and no VALID flag is 1, so `exec_checked` refuses at step 4 of R219. -/
theorem nothingConstructedAfterReset : Obligations.NothingConstructedAfterReset := by
  refine ⟨reset_flagsWord, fun s i hregs hneeds => ?_⟩
  obtain ⟨c, hc⟩ := Option.isSome_iff_exists.1 hneeds
  have hfault : s.regs.fault = false := by rw [hregs, state_reset_regs, reset_fault]
  have hmissing : c.valid s.regs = false := by rw [hregs, state_reset_regs, reset_valid]
  exact (exec_checked i s (ne_sysStatus_of_needsComponent hc)).missing hfault c hc hmissing

end Sys2Proof.Machine
end
